-- ==== Sys2Proof/Word.lean ====
section
/-! DEFINITION. The word types of the go722 codec core (spec 00_scope.md R9, R11, R14). -/

namespace Sys2Proof

/-- A 16-bit register, read as signed (R9: "every Band signal and coefficient register is 16 bits signed"). -/
abbrev Reg16 := BitVec 16

/-- A 15-bit unsigned register: `Nb`, `Det` (R9, R33, R34). -/
abbrev Reg15 := BitVec 15

/-- A byte of the code byte stream (R78). -/
abbrev Byte := BitVec 8

/-- A command word: 48 bits (R14, R90). -/
abbrev CmdWord := BitVec 48

/-- The word `RD_STATUS` returns: 32 bits (R108). -/
abbrev StatusWord := BitVec 32

end Sys2Proof
end

