-- ==== Sys2Proof/Syntax.lean ====
section
/-! DEFINITION. The commands of the core (spec 30_encoding.md R90 to R95; 46_commands.md): one constructor for each
row of spec/opcode_table.json. -/

namespace Sys2Proof

/-- A coder context: `enc` or `dec` (R10). The `ctx` operand of `RD_STATUS` names one (R94). -/
inductive Ctx where
  | enc | dec
deriving DecidableEq, Repr

/-- A command with its operands. `options` is the whole modifier byte `m` of format I (R91), of which bits 7:2 must
be zero (R111, checked by `Instr.wellFormed`); samples are 16-bit two's-complement fields (R92, R93). -/
inductive Instr where
  /-- `ENC_INIT rate, options` (R271). -/
  | encInit (rate : BitVec 32) (options : BitVec 8)
  /-- `ENC_INIT_T rate, options` (R272). -/
  | encInitT (rate : BitVec 32) (options : BitVec 8)
  /-- `ENC_PAIR s0, s1`: `s0` is the earlier sample (R275). -/
  | encPair (s0 s1 : BitVec 16)
  /-- `ENC_SAMPLE s` (R276). -/
  | encSample (smp : BitVec 16)
  /-- `DEC_INIT rate, options` (R273). -/
  | decInit (rate : BitVec 32) (options : BitVec 8)
  /-- `DEC_INIT_T rate, options` (R274). -/
  | decInitT (rate : BitVec 32) (options : BitVec 8)
  /-- `DEC_BYTE b` (R278). -/
  | decByte (b : BitVec 8)
  /-- `RD_STATUS ctx` (R280). -/
  | rdStatus (ctx : Ctx)
deriving DecidableEq, Repr

end Sys2Proof
end

