-- ==== Sys2Proof/WellFormed.lean ====
section
/-! DEFINITION. Which commands have an encoding: the operand checks of spec 30_encoding.md R111, R112. -/

namespace Sys2Proof

/-- The reserved option bits `m[7:2]` are zero (R91, R111). -/
def optionsOk (options : BitVec 8) : Bool := options.extractLsb' 2 6 == 0

/-- A command is well formed when its operands fit the fields of its format (R91 to R94). The operand types already
bound rates, samples and bytes; "No other operand has an illegal value: every 16-bit sample and every byte is
accepted" (R112). A rate that no codec mode uses is well formed: it faults when it runs (R97, R112). -/
def Instr.wellFormed : Instr → Bool
  | .encInit _ options => optionsOk options
  | .encInitT _ options => optionsOk options
  | .encPair _ _ => true
  | .encSample _ => true
  | .decInit _ options => optionsOk options
  | .decInitT _ options => optionsOk options
  | .decByte _ => true
  | .rdStatus _ => true

end Sys2Proof
end

