-- ==== Sys2Proof/Decode.lean ====
section
/-! DEFINITION. Decoding and encoding of command words (spec 30_encoding.md R90 to R95, R110, R111, R115). -/

namespace Sys2Proof

/-- Why a command word is illegal (R110, R111). Each is answered with `ILLEGAL_CMD`. -/
inductive DecodeError where
  /-- `op` is none of the eight opcodes of R95. -/
  | unassignedOpcode
  /-- A format I word with a bit of `m[7:2]` set (R111). -/
  | reservedOptions
  /-- A nonzero bit in the part of `m` that formats P, S, B, Q mark zero. -/
  | reservedModifier
  /-- A nonzero bit in the part of `arg` that formats S, B, Q mark zero. -/
  | reservedArgument
deriving DecidableEq, Repr

/-- `op` = bits 47:40 (R90). -/
def CmdWord.op (w : CmdWord) : BitVec 8 := w.extractLsb' 40 8

/-- `m` = bits 39:32 (R90). -/
def CmdWord.modifier (w : CmdWord) : BitVec 8 := w.extractLsb' 32 8

/-- `arg` = bits 31:0 (R90). -/
def CmdWord.arg (w : CmdWord) : BitVec 32 := w.extractLsb' 0 32

/-- A command word from its three fields: `word = (op << 40) | (m << 32) | arg` (R115). -/
def CmdWord.ofFields (op m : BitVec 8) (arg : BitVec 32) : CmdWord := op ++ m ++ arg

/-- The opcodes of R95. -/
def opEncInit : BitVec 8 := 0x10
def opEncInitT : BitVec 8 := 0x11
def opEncPair : BitVec 8 := 0x12
def opEncSample : BitVec 8 := 0x13
def opDecInit : BitVec 8 := 0x20
def opDecInitT : BitVec 8 := 0x21
def opDecByte : BitVec 8 := 0x22
def opRdStatus : BitVec 8 := 0x30

/-- Format I (R91): `m` is the options byte with bits 7:2 zero, `arg` the rate. -/
def decodeFormatI (build : BitVec 32 → BitVec 8 → Instr) (w : CmdWord) : Except DecodeError Instr :=
  if optionsOk w.modifier then .ok (build w.arg w.modifier) else .error .reservedOptions

/-- Format P (R92): `m` zero, `s1` = `arg[31:16]`, `s0` = `arg[15:0]`. -/
def decodeFormatP (w : CmdWord) : Except DecodeError Instr :=
  if w.modifier ≠ 0 then .error .reservedModifier
  else .ok (.encPair (w.arg.extractLsb' 0 16) (w.arg.extractLsb' 16 16))

/-- Format S (R93): `m` and `arg[31:16]` zero, `s` = `arg[15:0]`. -/
def decodeFormatS (w : CmdWord) : Except DecodeError Instr :=
  if w.modifier ≠ 0 then .error .reservedModifier
  else if w.arg.extractLsb' 16 16 ≠ 0 then .error .reservedArgument
  else .ok (.encSample (w.arg.extractLsb' 0 16))

/-- Format B (R94): `m` and `arg[31:8]` zero, `b` = `arg[7:0]`. -/
def decodeFormatB (w : CmdWord) : Except DecodeError Instr :=
  if w.modifier ≠ 0 then .error .reservedModifier
  else if w.arg.extractLsb' 8 24 ≠ 0 then .error .reservedArgument
  else .ok (.decByte (w.arg.extractLsb' 0 8))

/-- The context the `ctx` bit selects: 0 is `enc`, 1 is `dec` (R94). -/
def ctxOfBit (bit : BitVec 1) : Ctx := if bit = 0 then .enc else .dec

/-- The `ctx` bit of a context (R94). -/
def Ctx.toBit : Ctx → BitVec 1
  | .enc => 0
  | .dec => 1

/-- Format Q (R94): `m[7:1]` and `arg` zero, `ctx` = `m[0]`. -/
def decodeFormatQ (w : CmdWord) : Except DecodeError Instr :=
  if w.modifier.extractLsb' 1 7 ≠ 0 then .error .reservedModifier
  else if w.arg ≠ 0 then .error .reservedArgument
  else .ok (.rdStatus (ctxOfBit (w.modifier.extractLsb' 0 1)))

/-- The word decoder (R95, R110): total, and an illegal word is rejected by name. -/
def decode (w : CmdWord) : Except DecodeError Instr :=
  if w.op = opEncInit then decodeFormatI .encInit w
  else if w.op = opEncInitT then decodeFormatI .encInitT w
  else if w.op = opEncPair then decodeFormatP w
  else if w.op = opEncSample then decodeFormatS w
  else if w.op = opDecInit then decodeFormatI .decInit w
  else if w.op = opDecInitT then decodeFormatI .decInitT w
  else if w.op = opDecByte then decodeFormatB w
  else if w.op = opRdStatus then decodeFormatQ w
  else .error .unassignedOpcode

/-- The word of a command (R91 to R95, R115). Meant for well-formed commands: an options byte with a reserved bit set
gives an illegal word, as it would in the assembler's formula. -/
def encode : Instr → CmdWord
  | .encInit rate options => CmdWord.ofFields opEncInit options rate
  | .encInitT rate options => CmdWord.ofFields opEncInitT options rate
  | .encPair s0 s1 => CmdWord.ofFields opEncPair 0 (s1 ++ s0)
  | .encSample smp => CmdWord.ofFields opEncSample 0 ((0 : BitVec 16) ++ smp)
  | .decInit rate options => CmdWord.ofFields opDecInit options rate
  | .decInitT rate options => CmdWord.ofFields opDecInitT options rate
  | .decByte b => CmdWord.ofFields opDecByte 0 ((0 : BitVec 24) ++ b)
  | .rdStatus ctx => CmdWord.ofFields opRdStatus ((0 : BitVec 7) ++ ctx.toBit) 0

/-- A row of the opcode map of R95. -/
structure OpcodeRow where
  mnemonic : String
  pattern : CmdWord
  mask : CmdWord
deriving DecidableEq, Repr

/-- "a word `w` is the command of a row when `w & mask = match`" (R95). -/
def OpcodeRow.accepts (r : OpcodeRow) (w : CmdWord) : Bool := w &&& r.mask == r.pattern

/-- The opcode map of R95, as printed there. -/
def opcodeMap : List OpcodeRow :=
  [ ⟨"ENC_INIT",   0x100000000000, 0xFFFC00000000⟩,
    ⟨"ENC_INIT_T", 0x110000000000, 0xFFFC00000000⟩,
    ⟨"ENC_PAIR",   0x120000000000, 0xFFFF00000000⟩,
    ⟨"ENC_SAMPLE", 0x130000000000, 0xFFFFFFFF0000⟩,
    ⟨"DEC_INIT",   0x200000000000, 0xFFFC00000000⟩,
    ⟨"DEC_INIT_T", 0x210000000000, 0xFFFC00000000⟩,
    ⟨"DEC_BYTE",   0x220000000000, 0xFFFFFFFFFF00⟩,
    ⟨"RD_STATUS",  0x300000000000, 0xFFFEFFFFFFFF⟩ ]

/-- The mnemonic of a command (R95). -/
def Instr.mnemonic : Instr → String
  | .encInit _ _ => "ENC_INIT"
  | .encInitT _ _ => "ENC_INIT_T"
  | .encPair _ _ => "ENC_PAIR"
  | .encSample _ => "ENC_SAMPLE"
  | .decInit _ _ => "DEC_INIT"
  | .decInitT _ _ => "DEC_INIT_T"
  | .decByte _ => "DEC_BYTE"
  | .rdStatus _ => "RD_STATUS"

/-- What the decoder reads from the word whose bits are `w`, numbered as spec/opcode_table.json numbers them: one 48-bit
word, bit 0 the least significant (R11, R90), bits from `nbits` up zero. Log entry 12. -/
def decodeTableWord (nbits w : Nat) : Option Instr :=
  (decode (BitVec.ofNat 48 (w % 2 ^ nbits))).toOption

end Sys2Proof
end

