-- ==== Sys2Proof/Config.lean ====
section
/-! DEFINITION. The parameters of a model instance (spec 00_scope.md R9, 20_memory.md R60 to R77): the values an
implementation fixes and no command changes. The default values stand in `Machine/Tables.lean`. -/

namespace Sys2Proof

/-- `CFG.BITS`, bits per codeword: legal values 6, 7, 8 (R9, R42). Log entry 5. -/
inductive CodeBits where
  | six | seven | eight
deriving DecidableEq, Repr

/-- The number `BITS` stands for. -/
def CodeBits.toNat : CodeBits → Nat
  | .six => 6
  | .seven => 7
  | .eight => 8

/-- `QMF_PAIRING`: which coefficient order multiplies the even-indexed delay-line entries (R9, R231). -/
inductive QmfPairing where
  | doc | itu
deriving DecidableEq, Repr

/-- `NEG_MAG`: the magnitude of a negative quantizer error (R9, R181). -/
inductive NegMag where
  | abs | ones
deriving DecidableEq, Repr

/-- `ODD_TAIL`: what `encode` does with an odd sample count in full-band mode; one value is defined (R9, R118). -/
inductive OddTail where
  | refuse
deriving DecidableEq, Repr

/-- The fifteen constant ROM tables (R60 to R76), one record, so that another table set can stand in. The lengths
are those of R77; the entry types of `ilp`, `iln`, `rl42`, `rh2`, `ihp`, `ihn` are the shape constraints R77 puts
on a substituted set, and every index a rule computes has a type that lies inside its table. -/
structure Tables where
  /-- QMF coefficients (R62). -/
  qmf : Vector Int 12
  /-- Low-band decision levels (R63). -/
  q6 : Vector Int 32
  /-- Low-band code for a non-negative error (R64). -/
  ilp : Vector (BitVec 6) 32
  /-- Low-band code for a negative error (R65). -/
  iln : Vector (BitVec 6) 32
  /-- High-band inverse quantizer (R66). -/
  qm2 : Vector Int 4
  /-- 4-bit low-band inverse quantizer (R67). -/
  qm4 : Vector Int 16
  /-- 5-bit low-band inverse quantizer (R68). -/
  qm5 : Vector Int 32
  /-- 6-bit low-band inverse quantizer (R69). -/
  qm6 : Vector Int 64
  /-- Low-band log-scale-factor increments (R70). -/
  wl : Vector Int 8
  /-- From `ril` to an index of `wl` (R71). -/
  rl42 : Vector (Fin 8) 16
  /-- The log table (R72). -/
  ilb : Vector Int 32
  /-- High-band log-scale-factor increments (R73). -/
  wh : Vector Int 3
  /-- From `ihigh` to an index of `wh` (R74). -/
  rh2 : Vector (Fin 3) 4
  /-- High-band code for a non-negative error (R75). -/
  ihp : Vector (BitVec 2) 3
  /-- High-band code for a negative error (R76). -/
  ihn : Vector (BitVec 2) 3
deriving DecidableEq, Repr

/-- The parameters this spec leaves open (R9, second group, and the table record of R61). Log entry 4. -/
structure Params where
  /-- `QMF_PAIRING` (R231). -/
  qmfPairing : QmfPairing
  /-- `NEG_MAG` (R181). -/
  negMag : NegMag
  /-- `EIGHTK_HIGH`: the high field the encoder writes in 8 kHz mode (R277). -/
  eightkHigh : BitVec 2
  /-- `ODD_TAIL` (R118). -/
  oddTail : OddTail
  /-- The ROM tables. -/
  tables : Tables
deriving DecidableEq, Repr

/-- Whether `encode` on an encoder context that is not constructed works as in full-band mode: a free value. `CFG` is
unspecified before the first successful INIT (R42) and R116 gives the steps of `encode` for a constructed context only. No
command depends on it: every command it could choose is refused (R307). Log entry 8. -/
opaque Config.unconstructedFullBand : Bool

end Sys2Proof
end

