-- ==== Sys2Proof/Machine/Arith.lean ====
section
/-! DEFINITION. Saturation arithmetic and the integer laws every micro-operation uses (spec
40_saturation_arithmetic.md R130 to R136). All values are exact integers; nothing wraps implicitly (R12). -/

namespace Sys2Proof.Machine

/-- `SAT16` (R130): saturation to the signed 16-bit range. -/
def sat16 (v : Int) : Int :=
  if v > 32767 then 32767 else if v < -32768 then -32768 else v

/-- `clamp(v, lo, hi)` (R135). -/
def clamp (v lo hi : Int) : Int :=
  if v < lo then lo else if v > hi then hi else v

/-- `v >> n`: arithmetic shift right, `floor(v / 2^n)` (R132). -/
def asr (v : Int) (n : Nat) : Int := v / 2 ^ n

/-- `v << n` = `v * 2^n`, exact (R131). -/
def shl (v : Int) (n : Nat) : Int := v * 2 ^ n

/-- `sgn(v)`: 0 if `v ≥ 0`, −1 if `v < 0`; zero counts as non-negative (R13, R133). -/
def sgn (v : Int) : Int := if v ≥ 0 then 0 else -1

/-- A 16-bit register value from an integer. Every use in a rule is lossless in reachable states (R12, R136); outside the
16-bit range the low 16 bits are kept. Log entry 6. -/
def toReg (v : Int) : Reg16 := BitVec.ofInt 16 v

/-- A 15-bit register value (`Nb`, `Det`) from an integer; lossless in reachable states (R33, R34). Log entry 6. -/
def toReg15 (v : Int) : Reg15 := BitVec.ofInt 15 v

/-- `mag(e)` (R181): the magnitude of a quantizer error, by `NEG_MAG`. -/
def mag (m : NegMag) (e : Int) : Int :=
  if e ≥ 0 then e
  else match m with
    | .abs => -e
    | .ones => -(e + 1)

end Sys2Proof.Machine
end

