-- ==== Sys2Proof/Machine/Tables.lean ====
section
/-! DEFINITION. The default contents of the fifteen ROM tables (spec 20_memory.md R62 to R76) and the default
parameters (00_scope.md R9). All but `qmf` are marked by the spec as supplied from general knowledge, not in its
source (93_implementation_defined.md G1). Log entry 4. -/

namespace Sys2Proof.Machine

/-- `qmf` (R62). -/
def tableQmf : Vector Int 12 :=
  #v[3, -11, 12, 32, -210, 951, 3876, -805,
     362, -156, 53, -11]

/-- `q6` (R63). -/
def tableQ6 : Vector Int 32 :=
  #v[0, 35, 72, 110, 150, 190, 233, 276,
     323, 370, 422, 473, 530, 587, 650, 714,
     786, 858, 940, 1023, 1121, 1219, 1339, 1458,
     1612, 1765, 1980, 2195, 2557, 2919, 0, 0]

/-- `ilp` (R64). -/
def tableIlp : Vector (BitVec 6) 32 :=
  #v[0, 61, 60, 59, 58, 57, 56, 55,
     54, 53, 52, 51, 50, 49, 48, 47,
     46, 45, 44, 43, 42, 41, 40, 39,
     38, 37, 36, 35, 34, 33, 32, 0]

/-- `iln` (R65). -/
def tableIln : Vector (BitVec 6) 32 :=
  #v[0, 63, 62, 31, 30, 29, 28, 27,
     26, 25, 24, 23, 22, 21, 20, 19,
     18, 17, 16, 15, 14, 13, 12, 11,
     10, 9, 8, 7, 6, 5, 4, 0]

/-- `qm2` (R66). -/
def tableQm2 : Vector Int 4 :=
  #v[-7408, -1616, 7408, 1616]

/-- `qm4` (R67). -/
def tableQm4 : Vector Int 16 :=
  #v[0, -20456, -12896, -8968, -6288, -4240, -2584, -1200,
     20456, 12896, 8968, 6288, 4240, 2584, 1200, 0]

/-- `qm5` (R68). -/
def tableQm5 : Vector Int 32 :=
  #v[-280, -280, -23352, -17560, -14120, -11664, -9752, -8184,
     -6864, -5712, -4696, -3784, -2960, -2208, -1520, -880,
     23352, 17560, 14120, 11664, 9752, 8184, 6864, 5712,
     4696, 3784, 2960, 2208, 1520, 880, 280, -280]

/-- `qm6` (R69). -/
def tableQm6 : Vector Int 64 :=
  #v[-136, -136, -136, -136, -24808, -21904, -19008, -16704,
     -14984, -13512, -12280, -11192, -10232, -9360, -8576, -7856,
     -7192, -6576, -6000, -5456, -4944, -4464, -4008, -3576,
     -3168, -2776, -2400, -2032, -1688, -1360, -1040, -728,
     24808, 21904, 19008, 16704, 14984, 13512, 12280, 11192,
     10232, 9360, 8576, 7856, 7192, 6576, 6000, 5456,
     4944, 4464, 4008, 3576, 3168, 2776, 2400, 2032,
     1688, 1360, 1040, 728, 432, 136, -432, -136]

/-- `wl` (R70). -/
def tableWl : Vector Int 8 :=
  #v[-60, -30, 58, 172, 334, 538, 1198, 3042]

/-- `rl42` (R71). -/
def tableRl42 : Vector (Fin 8) 16 :=
  #v[0, 7, 6, 5, 4, 3, 2, 1,
     7, 6, 5, 4, 3, 2, 1, 0]

/-- `ilb` (R72). -/
def tableIlb : Vector Int 32 :=
  #v[2048, 2093, 2139, 2186, 2233, 2282, 2332, 2383,
     2435, 2489, 2543, 2599, 2656, 2714, 2774, 2834,
     2896, 2960, 3025, 3091, 3158, 3228, 3298, 3371,
     3444, 3520, 3597, 3676, 3756, 3838, 3922, 4008]

/-- `wh` (R73). -/
def tableWh : Vector Int 3 :=
  #v[0, -214, 798]

/-- `rh2` (R74). -/
def tableRh2 : Vector (Fin 3) 4 :=
  #v[2, 1, 2, 1]

/-- `ihp` (R75). -/
def tableIhp : Vector (BitVec 2) 3 :=
  #v[0, 3, 2]

/-- `ihn` (R76). -/
def tableIhn : Vector (BitVec 2) 3 :=
  #v[0, 1, 0]

/-- The table record with the contents the spec lists. -/
def defaultTables : Tables :=
  { qmf := tableQmf,
    q6 := tableQ6,
    ilp := tableIlp,
    iln := tableIln,
    qm2 := tableQm2,
    qm4 := tableQm4,
    qm5 := tableQm5,
    qm6 := tableQm6,
    wl := tableWl,
    rl42 := tableRl42,
    ilb := tableIlb,
    wh := tableWh,
    rh2 := tableRh2,
    ihp := tableIhp,
    ihn := tableIhn }

/-- The defaults of R9: `QMF_PAIRING` = `doc`, `NEG_MAG` = `abs`, `EIGHTK_HIGH` = 3, `ODD_TAIL` = `refuse`. -/
def defaultParams : Params :=
  { qmfPairing := .doc, negMag := .abs, eightkHigh := 3, oddTail := .refuse, tables := defaultTables }

end Sys2Proof.Machine
end

