-- ==== Sys2Proof/Machine/State.lean ====
section
/-! DEFINITION. The state of the core (spec 10_state.md R20 to R48), the stop reasons, and power-on. -/

namespace Sys2Proof.Machine

/-- A Band register bank (R21): the adaptive predictor and quantizer state of one sub-band. -/
structure Band where
  /-- Predicted signal `S` (R22). -/
  s : Reg16
  /-- Pole-section component `Sp` (R23). -/
  sp : Reg16
  /-- Zero-section component `Sz` (R24). -/
  sz : Reg16
  /-- Reconstructed signal history `R[0..2]` (R25). -/
  r : Vector Reg16 3
  /-- Current pole coefficients `A[0..2]` (R26). -/
  a : Vector Reg16 3
  /-- Next pole coefficients `Ap[0..2]` (R27). -/
  ap : Vector Reg16 3
  /-- Partial reconstruction history `P[0..2]` (R28). -/
  p : Vector Reg16 3
  /-- Dequantized difference history `D[0..6]` (R29). -/
  d : Vector Reg16 7
  /-- Current zero-section coefficients `B[0..6]` (R30). -/
  b : Vector Reg16 7
  /-- Next zero-section coefficients `Bp[0..6]` (R31). -/
  bp : Vector Reg16 7
  /-- Sign history `Sg[0..6]` (R32). -/
  sg : Vector Reg16 7
  /-- Log scale factor `Nb` (R33). -/
  nb : Reg15
  /-- Quantizer step size `Det` (R34). -/
  det : Reg15
deriving DecidableEq, Repr

/-- The configuration register `CFG` (R42). -/
structure Cfg where
  bits : CodeBits
  packed : Bool
  eightk : Bool
  itu : Bool
deriving DecidableEq, Repr

/-- The status register `STATUS` (R43). -/
structure Status where
  constructed : Bool
  fault : BitVec 8
deriving DecidableEq, Repr

/-- A coder context (R10, R20). `accBuf`, `accBits` are the bit accumulator: `OutBuffer`, `OutBits` in `enc` (R45),
`InBuffer`, `InBits` in `dec` (R46). -/
structure Context where
  /-- `Band[0]`, the low sub-band. -/
  band0 : Band
  /-- `Band[1]`, the high sub-band. -/
  band1 : Band
  /-- The QMF delay line `X[0..23]` (R44). -/
  x : Vector Reg16 24
  accBuf : BitVec 16
  accBits : BitVec 4
  cfg : Cfg
  status : Status
deriving DecidableEq, Repr

/-- One item of a response's output list (R14, R109): a code byte, a PCM sample or a status word. -/
inductive OutItem where
  | byte (b : Byte)
  | sample (v : Reg16)
  | word (w : StatusWord)
deriving DecidableEq, Repr

/-- A response `(fault, out)` (R14, R109). -/
structure Response where
  fault : BitVec 8
  out : List OutItem
deriving DecidableEq, Repr

/-- The state. `enc` and `dec` are the architectural state (R20); the other three fields are the model's own:
`params` holds the instance's parameters and tables, which no step writes (R9, R48; log entry 4), `pending` the command
words the host has delivered and the core has not taken, `responses` the responses given so far, oldest first
(R14, R78; log entry 1). -/
structure State where
  enc : Context
  dec : Context
  params : Params
  pending : List CmdWord
  responses : List Response
deriving DecidableEq, Repr

/-- Reasons the machine stops with a fault: none. The core's own faults are refused commands answered with a code, after
which it accepts the next command (R300, R304, R309); they are next states. No constructor, so nothing raises one. -/
inductive Fault
deriving DecidableEq, Repr

/-- Reasons a command has no meaning in the model. -/
inductive Refusal where
  /-- An instruction without a meaning yet. No arm of `exec` answers it: all eight commands are modelled. Safe. -/
  | notModelled (mnemonic : String)
deriving DecidableEq, Repr

/-- The command fault codes of R301. `invalidInput` and `outCapacity` belong to the pseudo-instruction layer. -/
inductive FaultCode where
  | none | cfgRate | notConstructed | wrongMode | illegalCmd | invalidInput | outCapacity
deriving DecidableEq, Repr

/-- A Band bank after construction: all zero but `Det` (R47). -/
def Band.constructed (det : Reg15) : Band :=
  { s := 0, sp := 0, sz := 0, r := #v[0, 0, 0], a := #v[0, 0, 0], ap := #v[0, 0, 0], p := #v[0, 0, 0],
    d := #v[0, 0, 0, 0, 0, 0, 0], b := #v[0, 0, 0, 0, 0, 0, 0], bp := #v[0, 0, 0, 0, 0, 0, 0],
    sg := #v[0, 0, 0, 0, 0, 0, 0], nb := 0, det := det }

/-- The delay line after construction: all zero (R47). -/
def zeroLine : Vector Reg16 24 :=
  #v[0, 0, 0, 0, 0, 0, 0, 0, 0, 0, 0, 0, 0, 0, 0, 0, 0, 0, 0, 0, 0, 0, 0, 0]

/-- The state construction gives a context (R47): `Band[0].Det` = 32, `Band[1].Det` = 8, all else zero. -/
def Context.constructed (cfg : Cfg) : Context :=
  { band0 := .constructed 32, band1 := .constructed 8, x := zeroLine, accBuf := 0, accBits := 0, cfg := cfg,
    status := { constructed := true, fault := 0 } }

/-- A context at power-on: `CONSTRUCTED` = 0 and `FAULT` = 0 are the spec's (R47, R330). Every other register is
"unspecified (a model may take any value; none is observable before construction)": here the value of construction, and
`CFG` = 8 bits, full-band, not packed. DESIGN CHOICE, log entry 2. -/
def Context.powerOn : Context :=
  { Context.constructed { bits := .eight, packed := false, eightk := false, itu := false } with
    status := { constructed := false, fault := 0 } }

/-- The machine right after power-on (R47, R330), no command delivered, at the default parameters (R9). -/
def State.reset : State :=
  { enc := .powerOn, dec := .powerOn, params := defaultParams, pending := [], responses := [] }

/-- `OutBuffer` (R45). -/
abbrev State.outBuffer (s : State) : BitVec 16 := s.enc.accBuf

/-- `OutBits` (R45). -/
abbrev State.outBits (s : State) : BitVec 4 := s.enc.accBits

/-- `InBuffer` (R46). -/
abbrev State.inBuffer (s : State) : BitVec 16 := s.dec.accBuf

/-- `InBits` (R46). -/
abbrev State.inBits (s : State) : BitVec 4 := s.dec.accBits

end Sys2Proof.Machine
end

