-- ==== Sys2Proof/Machine/BitPacker.lean ====
section
/-! DEFINITION. The variable-width bit packer and unpacker (spec 45_bitpacker.md R250 to R258). There is no flush
(R253): no operation here emits a partly filled byte. -/

namespace Sys2Proof.Machine

/-- `PACK(code)` (R251): the emitted bytes and the context with its accumulator advanced. -/
def pack (c : Context) (code : BitVec 8) : List Byte × Context :=
  let buf := c.accBuf.toNat ||| (code.toNat <<< c.accBits.toNat)
  let n := c.accBits.toNat + c.cfg.bits.toNat
  if n ≥ 8 then
    ([BitVec.ofNat 8 (buf &&& 0xFF)], { c with accBuf := BitVec.ofNat 16 (buf >>> 8), accBits := BitVec.ofNat 4 (n - 8) })
  else
    ([], { c with accBuf := BitVec.ofNat 16 buf, accBits := BitVec.ofNat 4 n })

/-- `EMIT_BYTE(code)` (R252): the codeword as one byte. -/
def emitByte (code : BitVec 8) : List Byte := [code]

/-- `EMIT(code)` (R252): `PACK` or `EMIT_BYTE`, by `CFG.PACKED`. -/
def emit (c : Context) (code : BitVec 8) : List Byte × Context :=
  if c.cfg.packed then pack c code else (emitByte code, c)

/-- `TAKE_BYTE(b)` (R255): the whole byte is one codeword. -/
def takeByte (b : Byte) : List (BitVec 8) := [b]

/-- The `while InBits >= CFG.BITS` loop of `UNPACK` (R256, R257): codewords, then the buffer and count left. `fuel` bounds the
number of turns; `unpack` gives enough for every count a 4-bit register and one byte can make. Log entry 11. -/
def unpackLoop (bits : Nat) : Nat → Nat → Nat → List (BitVec 8) × Nat × Nat
  | 0, buf, n => ([], buf, n)
  | fuel + 1, buf, n =>
    if n ≥ bits then
      let rest := unpackLoop bits fuel (buf >>> bits) (n - bits)
      (BitVec.ofNat 8 (buf &&& ((1 <<< bits) - 1)) :: rest.1, rest.2)
    else ([], buf, n)

/-- `UNPACK(b)` (R256): every whole codeword available, and the context with its accumulator advanced. -/
def unpack (c : Context) (b : Byte) : List (BitVec 8) × Context :=
  let r := unpackLoop c.cfg.bits.toNat 4 (c.accBuf.toNat ||| (b.toNat <<< c.accBits.toNat)) (c.accBits.toNat + 8)
  (r.1, { c with accBuf := BitVec.ofNat 16 r.2.1, accBits := BitVec.ofNat 4 r.2.2 })

end Sys2Proof.Machine
end

