-- ==== Sys2Proof/Machine/Operands.lean ====
section
/-! DEFINITION. Operand forms: option bits, rate, samples and bytes of a command, and the codeword formats (spec
30_encoding.md R91 to R104; 10_state.md R42). -/

namespace Sys2Proof.Machine

/-- `SAMPLE_RATE_8000` = `options[0]` (R91, R96). -/
def optEightK (options : BitVec 8) : Bool := options.getLsbD 0

/-- `PACKED` = `options[1]` (R91, R96). -/
def optPacked (options : BitVec 8) : Bool := options.getLsbD 1

/-- `BITS` from `rate`: 64000 gives 8, 56000 gives 7, 48000 gives 6, anything else is refused (R97, R270). -/
def bitsOfRate (rate : BitVec 32) : Option CodeBits :=
  if rate = 64000 then some .eight
  else if rate = 56000 then some .seven
  else if rate = 48000 then some .six
  else none

/-- `CFG` as a successful INIT sets it (R42, R270): `PACKED` is honored only when `BITS` ≠ 8. -/
def cfgOf (bits : CodeBits) (options : BitVec 8) (itu : Bool) : Cfg :=
  { bits := bits, packed := optPacked options && bits != .eight, eightk := optEightK options, itu := itu }

/-- A PCM sample operand: `sext_16` of its 16-bit field (R92, R93). -/
def sext16 (v : BitVec 16) : Int := v.toInt

/-- Codeword assembly, `((ihigh << 6) | ilow) >> (8 - BITS)` (R101). -/
def assembleCode (bits : CodeBits) (ihigh : BitVec 2) (ilow : BitVec 6) : BitVec 8 :=
  ((ihigh.setWidth 8 <<< 6) ||| ilow.setWidth 8) >>> (8 - bits.toNat)

/-- `lw = CFG.BITS − 2`, the width of the low field (R100, R102). -/
def lowWidth (bits : CodeBits) : Nat := bits.toNat - 2

/-- `field = code & ((1 << lw) - 1)` (R102), the low field, at most 6 bits. -/
def codeField (bits : CodeBits) (code : BitVec 8) : BitVec 6 :=
  (code &&& ((1 <<< lowWidth bits) - 1)).setWidth 6

/-- `ihigh = (code >> lw) & 3` (R102), the high field. -/
def codeHigh (bits : CodeBits) (code : BitVec 8) : BitVec 2 :=
  ((code >>> lowWidth bits) &&& 3).setWidth 2

/-- `ril = field >> (lw - 4)` (R102), the 4 most significant bits of the low field. -/
def codeRil (bits : CodeBits) (code : BitVec 8) : BitVec 4 :=
  (codeField bits code >>> (lowWidth bits - 4)).setWidth 4

end Sys2Proof.Machine
end

