-- ==== Sys2Proof/Machine/Flags.lean ====
section
/-! DEFINITION. Flag-like state. The core keeps no arithmetic flags: "no carry, overflow, zero or sign flag is kept"
(spec 10_state.md R41). What a host can see is `STATUS` and the status word of 30_encoding.md R108. -/

namespace Sys2Proof.Machine

/-- A code of R301 as the 8-bit number stored in `STATUS.FAULT` and returned in a response. -/
def FaultCode.toByte : FaultCode → BitVec 8
  | .none => 0
  | .cfgRate => 1
  | .notConstructed => 2
  | .wrongMode => 3
  | .illegalCmd => 4
  | .invalidInput => 5
  | .outCapacity => 6

/-- One bit from a flag. -/
def flagBit (f : Bool) : BitVec 1 := BitVec.ofBool f

/-- The status word of a context (R108): fields that depend on construction read 0 before it. From the top: zero
(31:20), `NBITS`, `FAULT`, `BITS`, `ITU`, `PACKED`, `EIGHTK`, `CONSTRUCTED`. -/
def statusWord (c : Context) : StatusWord :=
  let on := c.status.constructed
  (0 : BitVec 12)
    ++ (if on then c.accBits else 0)
    ++ c.status.fault
    ++ (if on then BitVec.ofNat 4 c.cfg.bits.toNat else 0)
    ++ flagBit (on && c.cfg.itu)
    ++ flagBit (on && c.cfg.packed)
    ++ flagBit (on && c.cfg.eightk)
    ++ flagBit on

/-- `STATUS.FAULT` when a fault is raised (R304 step 2): the first code since the last successful INIT or power-on is
kept. -/
def stickyFault (st : Status) (code : BitVec 8) : Status :=
  if st.fault = 0 then { st with fault := code } else st

end Sys2Proof.Machine
end

