-- ==== Sys2Proof/Machine/Block4.lean ====
section
/-! DEFINITION. The adaptive predictor update `BLOCK4` and its nine steps (spec 41_block4_predictor.md R150 to R158). -/

namespace Sys2Proof.Machine

/-- Steps RECONS and PARREC (R151): `D[0]`, `R[0]`, `P[0]`. -/
def recons (b : Band) (d : Int) : Band :=
  { b with
    d := b.d.set 0 (toReg d)
    r := b.r.set 0 (toReg (sat16 (b.s.toInt + d)))
    p := b.p.set 0 (toReg (sat16 (b.sz.toInt + d))) }

/-- Step UPPOL2 (R152): `Sg[0..2]` and `Ap[2]`. -/
def uppol2 (b : Band) : Band :=
  let sg0 := sgn b.p[0].toInt
  let sg1 := sgn b.p[1].toInt
  let sg2 := sgn b.p[2].toInt
  let wd1 := sat16 (b.a[1].toInt * 4)
  let wd2 := clamp (if sg0 = sg1 then -wd1 else wd1) (-32767) 32767
  let wd3 := asr wd2 7 + (if sg0 = sg2 then 128 else -128) + asr (b.a[2].toInt * 32512) 15
  { b with
    sg := ((b.sg.set 0 (toReg sg0)).set 1 (toReg sg1)).set 2 (toReg sg2)
    ap := b.ap.set 2 (toReg (clamp wd3 (-12288) 12288)) }

/-- Step UPPOL1 (R153): `Sg[0..1]` and `Ap[1]`; `Ap[2]` is the value UPPOL2 just wrote. -/
def uppol1 (b : Band) : Band :=
  let sg0 := sgn b.p[0].toInt
  let sg1 := sgn b.p[1].toInt
  let wd1 : Int := if sg0 = sg1 then 192 else -192
  let wd2 := asr (b.a[1].toInt * 32640) 15
  let wd3 := sat16 (15360 - b.ap[2].toInt)
  { b with
    sg := (b.sg.set 0 (toReg sg0)).set 1 (toReg sg1)
    ap := b.ap.set 1 (toReg (clamp (sat16 (wd1 + wd2)) (-wd3) wd3)) }

/-- One tap of step UPZERO (R154): the next coefficient from the difference `d`, its history entry `di` and the current
coefficient `bi`. -/
def upzeroTap (d : Int) (di bi : Reg16) : Reg16 :=
  let wd1 : Int := if d = 0 then 0 else 128
  let wd2 := if sgn di.toInt = sgn d then wd1 else -wd1
  let wd3 := asr (bi.toInt * 32640) 15
  toReg (sat16 (wd2 + wd3))

/-- Step UPZERO (R154): `Sg[0..6]` and `Bp[1..6]`, against the six previous differences. -/
def upzero (b : Band) (d : Int) : Band :=
  { b with
    sg := #v[toReg (sgn d), toReg (sgn b.d[1].toInt), toReg (sgn b.d[2].toInt), toReg (sgn b.d[3].toInt),
             toReg (sgn b.d[4].toInt), toReg (sgn b.d[5].toInt), toReg (sgn b.d[6].toInt)]
    bp := #v[b.bp[0], upzeroTap d b.d[1] b.b[1], upzeroTap d b.d[2] b.b[2], upzeroTap d b.d[3] b.b[3],
             upzeroTap d b.d[4] b.b[4], upzeroTap d b.d[5] b.b[5], upzeroTap d b.d[6] b.b[6]] }

/-- Step DELAYA (R155): signal histories shift by one, coefficients take their next values. -/
def delaya (b : Band) : Band :=
  { b with
    d := #v[b.d[0], b.d[0], b.d[1], b.d[2], b.d[3], b.d[4], b.d[5]]
    b := #v[b.b[0], b.bp[1], b.bp[2], b.bp[3], b.bp[4], b.bp[5], b.bp[6]]
    r := #v[b.r[0], b.r[0], b.r[1]]
    p := #v[b.p[0], b.p[0], b.p[1]]
    a := #v[b.a[0], b.ap[1], b.ap[2]] }

/-- A tap product `(coef * sat16(2 * sig)) >> 15` of FILTEP and FILTEZ (R156, R157). -/
def tap (coef sig : Reg16) : Int := asr (coef.toInt * sat16 (2 * sig.toInt)) 15

/-- Step FILTEP (R156): `Sp`. -/
def filtep (b : Band) : Band :=
  { b with sp := toReg (sat16 (tap b.a[1] b.r[1] + tap b.a[2] b.r[2])) }

/-- Step FILTEZ (R157): `Sz`; no saturation between the six terms. -/
def filtez (b : Band) : Band :=
  { b with
    sz := toReg (sat16 (tap b.b[1] b.d[1] + tap b.b[2] b.d[2] + tap b.b[3] b.d[3]
            + tap b.b[4] b.d[4] + tap b.b[5] b.d[5] + tap b.b[6] b.d[6])) }

/-- Step PREDIC (R158): `S`. -/
def predic (b : Band) : Band :=
  { b with s := toReg (sat16 (b.sp.toInt + b.sz.toInt)) }

/-- `BLOCK4(b, d)` (R150): the steps strictly in this order. -/
def block4 (b : Band) (d : Int) : Band :=
  predic (filtez (filtep (delaya (upzero (uppol1 (uppol2 (recons b d))) d))))

end Sys2Proof.Machine
end

