-- ==== Sys2Proof/Machine/LowBand.lean ====
section
/-! DEFINITION. The low-band ADPCM encoder and decoder (spec 42_lowband_adpcm.md R180 to R192), and the log-table step
size that both bands share (R186, R215). -/

namespace Sys2Proof.Machine

/-- The indices the threshold scan visits, 1 to 29 in order (R182). -/
def scanOrder : List (Fin 32) :=
  [1, 2, 3, 4, 5, 6, 7, 8, 9, 10, 11, 12, 13, 14, 15, 16, 17, 18, 19, 20, 21, 22, 23, 24, 25, 26, 27, 28, 29]

/-- The decision threshold of index `i`: `(q6[i] * det) >> 12` (R182). -/
def threshold (t : Tables) (det : Int) (i : Fin 32) : Int := asr (t.q6[i] * det) 12

/-- The threshold scan (R182): the first index whose threshold exceeds `wd`, 30 when none does. -/
def scan (t : Tables) (wd det : Int) : Fin 32 :=
  (scanOrder.find? fun i => wd < threshold t det i).getD 30

/-- `QUANTL` (R180, R183). -/
def quantl (p : Params) (b : Band) (xlow : Int) : BitVec 6 :=
  let el := sat16 (xlow - b.s.toInt)
  let wd := mag p.negMag el
  let i := scan p.tables wd b.det.toNat
  if el ≥ 0 then p.tables.ilp[i] else p.tables.iln[i]

/-- `INVQAL` (R184): the 4-bit dequantized difference, with `Det` as it stands. -/
def invqal (t : Tables) (b : Band) (ril : BitVec 4) : Int :=
  asr (b.det.toNat * t.qm4[ril.toNat]'ril.isLt) 15

/-- `LOGSCL` (R185). -/
def logscl (t : Tables) (b : Band) (ril : BitVec 4) : Band :=
  { b with nb := toReg15 (clamp (asr (b.nb.toNat * 127) 7 + t.wl[t.rl42[ril.toNat]'ril.isLt]) 0 18432) }

/-- The step size from `Nb` through the log table, with shift base `base` (R186 with 8, R215 with 10). -/
def scaleDet (t : Tables) (base : Int) (nb : Reg15) : Int :=
  let wd1 : BitVec 5 := nb.extractLsb' 6 5
  let wd2 : Int := base - (nb >>> 11).toNat
  let e := t.ilb[wd1.toNat]'wd1.isLt
  let wd3 := if wd2 < 0 then shl e (-wd2).toNat else asr e wd2.toNat
  shl wd3 2

/-- `SCALEL` (R186). -/
def scalel (t : Tables) (b : Band) : Band := { b with det := toReg15 (scaleDet t 8 b.nb) }

/-- `LOW_ADAPT` (R187): `dlow` from the old `Det`, then `LOGSCL`, `SCALEL`, `BLOCK4`. -/
def lowAdapt (t : Tables) (b : Band) (ril : BitVec 4) : Band :=
  block4 (scalel t (logscl t b ril)) (invqal t b ril)

/-- `ril = ilow >> 2` in the encoder (R184, R188). -/
def rilOfIlow (ilow : BitVec 6) : BitVec 4 := ilow.extractLsb' 2 4

/-- `LOW_ENC` (R188): the 6-bit code and the adapted bank. -/
def lowEnc (p : Params) (b : Band) (xlow : Int) : BitVec 6 × Band :=
  let ilow := quantl p b xlow
  (ilow, lowAdapt p.tables b (rilOfIlow ilow))

/-- The table entry `INVQBL` reads (R190): `qm6`, `qm5` or `qm4` by `CFG.BITS`. -/
def invqblEntry (t : Tables) (bits : CodeBits) (field : BitVec 6) : Int :=
  match bits with
  | .eight => t.qm6[field.toNat]'field.isLt
  | .seven => t.qm5[(field.setWidth 5).toNat]'(field.setWidth 5).isLt
  | .six => t.qm4[(field.setWidth 4).toNat]'(field.setWidth 4).isLt

/-- `INVQBL` (R190). -/
def invqbl (t : Tables) (bits : CodeBits) (b : Band) (field : BitVec 6) : Int :=
  asr (b.det.toNat * invqblEntry t bits field) 15

/-- The reconstruction limit, `clamp(sat16(v), −16384, 16383)` (R191, R218). -/
def limitRecon (v : Int) : Int := clamp (sat16 v) (-16384) 16383

/-- `LOW_DEC` (R189, R191): `rlow` from `S` and `Det` before `LOW_ADAPT`, and the adapted bank. -/
def lowDec (t : Tables) (bits : CodeBits) (b : Band) (field : BitVec 6) (ril : BitVec 4) : Int × Band :=
  (limitRecon (b.s.toInt + invqbl t bits b field), lowAdapt t b ril)

end Sys2Proof.Machine
end

