-- ==== Sys2Proof/Machine/HighBand.lean ====
section
/-! DEFINITION. The high-band ADPCM encoder and decoder (spec 43_highband_adpcm.md R210 to R219). -/

namespace Sys2Proof.Machine

/-- `QUANTH` (R210 to R212): two magnitudes by one threshold, two signs. -/
def quanth (p : Params) (b : Band) (xhigh : Int) : BitVec 2 :=
  let eh := sat16 (xhigh - b.s.toInt)
  let wd := mag p.negMag eh
  let wd1 := asr (564 * b.det.toNat) 12
  let mih : Fin 3 := if wd ≥ wd1 then 2 else 1
  if eh ≥ 0 then p.tables.ihp[mih] else p.tables.ihn[mih]

/-- `INVQAH` (R213): the dequantized difference, with `Det` as it stands. -/
def invqah (t : Tables) (b : Band) (ihigh : BitVec 2) : Int :=
  asr (b.det.toNat * t.qm2[ihigh.toNat]'ihigh.isLt) 15

/-- `LOGSCH` (R214). -/
def logsch (t : Tables) (b : Band) (ihigh : BitVec 2) : Band :=
  { b with nb := toReg15 (clamp (asr (b.nb.toNat * 127) 7 + t.wh[t.rh2[ihigh.toNat]'ihigh.isLt]) 0 22528) }

/-- `SCALEH` (R215): as `SCALEL` with shift base 10. -/
def scaleh (t : Tables) (b : Band) : Band := { b with det := toReg15 (scaleDet t 10 b.nb) }

/-- `HIGH_ADAPT` (R216): `dhigh` from the old `Det`, then `LOGSCH`, `SCALEH`, `BLOCK4`. -/
def highAdapt (t : Tables) (b : Band) (ihigh : BitVec 2) : Band :=
  block4 (scaleh t (logsch t b ihigh)) (invqah t b ihigh)

/-- `HIGH_ENC` (R217): the 2-bit code and the adapted bank. -/
def highEnc (p : Params) (b : Band) (xhigh : Int) : BitVec 2 × Band :=
  let ihigh := quanth p b xhigh
  (ihigh, highAdapt p.tables b ihigh)

/-- `HIGH_DEC` (R218): `rhigh` from `S` and `Det` before `HIGH_ADAPT`, and the adapted bank. -/
def highDec (t : Tables) (b : Band) (ihigh : BitVec 2) : Int × Band :=
  (limitRecon (invqah t b ihigh + b.s.toInt), highAdapt t b ihigh)

end Sys2Proof.Machine
end

