-- ==== Sys2Proof/Machine/Qmf.lean ====
section
/-! DEFINITION. The QMF analysis and synthesis filters and their bypasses (spec 44_qmf_filters.md R230 to R237). -/

namespace Sys2Proof.Machine

/-- The coefficient that multiplies `X[2i]` (R231). -/
def hE (p : Params) (i : Fin 12) : Int :=
  match p.qmfPairing with
  | .doc => p.tables.qmf[11 - i.val]
  | .itu => p.tables.qmf[i.val]

/-- The coefficient that multiplies `X[2i+1]` (R231). -/
def hO (p : Params) (i : Fin 12) : Int :=
  match p.qmfPairing with
  | .doc => p.tables.qmf[i.val]
  | .itu => p.tables.qmf[11 - i.val]

/-- `QMF_SHIFT(X, a, b)` (R232): the line moves by two toward index 0, `a` enters at `X[22]`, `b` at `X[23]`. -/
def qmfShift (x : Vector Reg16 24) (a b : Reg16) : Vector Reg16 24 :=
  #v[x[2], x[3], x[4], x[5], x[6], x[7], x[8], x[9], x[10], x[11], x[12], x[13], x[14], x[15], x[16], x[17],
     x[18], x[19], x[20], x[21], x[22], x[23], a, b]

/-- The filter indices 0 to 11. -/
def tapIndices : List (Fin 12) := [0, 1, 2, 3, 4, 5, 6, 7, 8, 9, 10, 11]

/-- `sumE` of `QMF_SUMS` (R233): the even-indexed half, exact. -/
def sumE (p : Params) (x : Vector Reg16 24) : Int :=
  (tapIndices.map fun i => (x[2 * i.val]'(by omega)).toInt * hE p i).sum

/-- `sumO` of `QMF_SUMS` (R233): the odd-indexed half, exact. -/
def sumO (p : Params) (x : Vector Reg16 24) : Int :=
  (tapIndices.map fun i => (x[2 * i.val + 1]'(by omega)).toInt * hO p i).sum

/-- `QMF_TX` (R234): the new delay line, `xlow` and `xhigh`. -/
def qmfTx (p : Params) (x : Vector Reg16 24) (s0 s1 : Reg16) : Vector Reg16 24 × Int × Int :=
  let x' := qmfShift x s0 s1
  (x', asr (sumE p x' + sumO p x') 14, asr (sumO p x' - sumE p x') 14)

/-- `TX_BYPASS` (R235): `xlow` = `xhigh` = `s >> 1`. -/
def txBypass (v : Int) : Int × Int := (asr v 1, asr v 1)

/-- `QMF_RX` (R236): the new delay line and the two output samples, the odd-indexed sum first. -/
def qmfRx (p : Params) (x : Vector Reg16 24) (rlow rhigh : Int) : Vector Reg16 24 × List Reg16 :=
  let x' := qmfShift x (toReg (rlow + rhigh)) (toReg (rlow - rhigh))
  (x', [toReg (sat16 (asr (sumO p x') 11)), toReg (sat16 (asr (sumE p x') 11))])

/-- `RX_BYPASS` (R237): two samples in ITU test mode, which takes precedence, one in 8 kHz mode. -/
def rxBypass (itu : Bool) (rlow rhigh : Int) : List Reg16 :=
  if itu then [toReg (shl rlow 1), toReg (shl rhigh 1)] else [toReg (shl rlow 1)]

end Sys2Proof.Machine
end

