-- ==== Sys2Proof/Machine/Ops.lean ====
section
/-! DEFINITION. The operations the commands share: contexts, responses, raising a fault (spec 60_exceptions.md R304,
R305), `CONSTRUCT`, `ENC_CODE` and `DEC_CODE` (46_commands.md R270, R277, R279). -/

namespace Sys2Proof.Machine

/-- The context a name selects (R10). -/
def State.ctx (s : State) : Ctx → Context
  | .enc => s.enc
  | .dec => s.dec

/-- Replace one context; the other is untouched (R10). -/
def State.setCtx (s : State) : Ctx → Context → State
  | .enc, c => { s with enc := c }
  | .dec, c => { s with dec := c }

/-- Give a response (R14): appended, so that the stream's order is the order of the list (R78). -/
def respond (r : Response) (s : State) : State := { s with responses := s.responses ++ [r] }

/-- Complete a command: response `(0, out)` (R14, R109). -/
def complete (out : List OutItem) (s : State) : State := respond { fault := FaultCode.none.toByte, out := out } s

/-- Record a fault code in one context's sticky `STATUS.FAULT` (R304 step 2). -/
def recordFault (c : Ctx) (code : FaultCode) (s : State) : State :=
  s.setCtx c { s.ctx c with status := stickyFault (s.ctx c).status code.toByte }

/-- `raise Fault(code)` on context `c` (R304): the sticky code, then the response `(code, [])`; no other state changes.
This is the whole of taking an exception on this hardware: no saved pc, cause, vector or mode (R304, R314). There is no
return from it and none is needed: the next command runs at once (R309). -/
def raiseFault (c : Ctx) (code : FaultCode) (s : State) : State :=
  respond { fault := code.toByte, out := [] } (recordFault c code s)

/-- The context that records an illegal word, by its `op` field alone (R305): 0x10..0x13 `enc`, 0x20..0x22 `dec`, any
other neither. -/
def illegalCtx (op : BitVec 8) : Option Ctx :=
  if 0x10 ≤ op.toNat ∧ op.toNat ≤ 0x13 then some .enc
  else if 0x20 ≤ op.toNat ∧ op.toNat ≤ 0x22 then some .dec
  else none

/-- `ILLEGAL_CMD`, raised by the word decoder before any command rule runs (R110, R305). -/
def raiseIllegal (w : CmdWord) (s : State) : State :=
  match illegalCtx (CmdWord.op w) with
  | some c => raiseFault c .illegalCmd s
  | none => respond { fault := FaultCode.illegalCmd.toByte, out := [] } s

/-- `CONSTRUCT(c, rate, options, itu)` (R270): the rate test comes before any write. -/
def construct (c : Ctx) (rate : BitVec 32) (options : BitVec 8) (itu : Bool) (s : State) : State :=
  match bitsOfRate rate with
  | none => raiseFault c .cfgRate s
  | some bits => complete [] (s.setCtx c (Context.constructed (cfgOf bits options itu)))

/-- `ENC_CODE(xlow, xhigh)` (R277): both sub-band encoders and codeword assembly; in 8 kHz mode `Band[1]` is untouched and
the high field is `EIGHTK_HIGH`. -/
def encCode (p : Params) (c : Context) (xlow xhigh : Int) : BitVec 8 × Context :=
  let (ilow, b0) := lowEnc p c.band0 xlow
  if c.cfg.eightk then
    (assembleCode c.cfg.bits p.eightkHigh ilow, { c with band0 := b0 })
  else
    let (ihigh, b1) := highEnc p c.band1 xhigh
    (assembleCode c.cfg.bits ihigh ilow, { c with band0 := b0, band1 := b1 })

/-- `DEC_CODE(code)` (R279): both sub-band decoders and the output stage; in 8 kHz mode `Band[1]` is untouched and `rhigh`
is 0 (R219). -/
def decCode (p : Params) (c : Context) (code : BitVec 8) : List Reg16 × Context :=
  let bits := c.cfg.bits
  let (rlow, b0) := lowDec p.tables bits c.band0 (codeField bits code) (codeRil bits code)
  let (rhigh, b1) :=
    if c.cfg.eightk then (0, c.band1) else highDec p.tables c.band1 (codeHigh bits code)
  let c' := { c with band0 := b0, band1 := b1 }
  if c.cfg.itu || c.cfg.eightk then (rxBypass c.cfg.itu rlow rhigh, c')
  else
    let (x', out) := qmfRx p c.x rlow rhigh
    (out, { c' with x := x' })

/-- The codewords of one `DEC_BYTE` in order, each processed whole before the next is split (R278, R282). -/
def decCodes (p : Params) : List (BitVec 8) → Context → List Reg16 × Context
  | [], c => ([], c)
  | code :: rest, c =>
    let (out, c') := decCode p c code
    let (outs, c'') := decCodes p rest c'
    (out ++ outs, c'')

end Sys2Proof.Machine
end

