-- ==== Sys2Proof/Machine/CommandPort.lean ====
section
/-! DEFINITION. The command port (spec 00_scope.md R14, 10_state.md R40, 20_memory.md R84): words are taken one at a
time in arrival order. Log entries 1, 3, 7. -/

namespace Sys2Proof.Machine

/-- The host delivers words: they wait behind those already delivered (R40, R84). -/
def deliver (ws : List CmdWord) (s : State) : State := { s with pending := s.pending ++ ws }

/-- The word the next step takes, and the state with the port moved past it; none when no command waits. -/
def takeCommand (s : State) : Option (CmdWord × State) :=
  match s.pending with
  | [] => none
  | w :: rest => some (w, { s with pending := rest })

/-- The word a table row's bits stand for, at the head of the port. Log entries 3, 12. -/
def placeWord (s : State) (nbits w : Nat) : State :=
  { s with pending := BitVec.ofNat 48 (w % 2 ^ nbits) :: s.pending }

end Sys2Proof.Machine
end

