-- ==== Sys2Proof/Machine/Construction.lean ====
section
/-! DEFINITION. The construction commands (spec 46_commands.md R270 to R274). -/

namespace Sys2Proof.Machine

/-- `ENC_INIT rate, options` (R271): `CONSTRUCT(enc, rate, options, 0)`. -/
def execEncInit (rate : BitVec 32) (options : BitVec 8) (s : State) : Host.Outcome State Fault Refusal :=
  .next (construct .enc rate options false s)

/-- `ENC_INIT_T rate, options` (R272): `CONSTRUCT(enc, rate, options, 1)`. -/
def execEncInitT (rate : BitVec 32) (options : BitVec 8) (s : State) : Host.Outcome State Fault Refusal :=
  .next (construct .enc rate options true s)

/-- `DEC_INIT rate, options` (R273): `CONSTRUCT(dec, rate, options, 0)`. -/
def execDecInit (rate : BitVec 32) (options : BitVec 8) (s : State) : Host.Outcome State Fault Refusal :=
  .next (construct .dec rate options false s)

/-- `DEC_INIT_T rate, options` (R274): `CONSTRUCT(dec, rate, options, 1)`. -/
def execDecInitT (rate : BitVec 32) (options : BitVec 8) (s : State) : Host.Outcome State Fault Refusal :=
  .next (construct .dec rate options true s)

end Sys2Proof.Machine
end

