-- ==== Sys2Proof/Machine/DecoderData.lean ====
section
/-! DEFINITION. The decoder data command (spec 46_commands.md R278, R279, R282). -/

namespace Sys2Proof.Machine

/-- The codewords of a stream byte: `UNPACK` or `TAKE_BYTE`, by `CFG.PACKED` (R278). -/
def codesOfByte (c : Context) (b : Byte) : List (BitVec 8) × Context :=
  if c.cfg.packed then unpack c b else (takeByte b, c)

/-- The decoder context and sample list after a stream byte (R278). -/
def decByteResult (p : Params) (c : Context) (b : Byte) : List Reg16 × Context :=
  let (codes, c') := codesOfByte c b
  decCodes p codes c'

/-- `DEC_BYTE b` (R278): legal in every mode. -/
def execDecByte (b : BitVec 8) (s : State) : Host.Outcome State Fault Refusal :=
  if s.dec.status.constructed = false then .next (raiseFault .dec .notConstructed s)
  else
    let (out, c) := decByteResult s.params s.dec b
    .next (complete (out.map .sample) { s with dec := c })

end Sys2Proof.Machine
end

