-- ==== Sys2Proof/Machine/EncoderData.lean ====
section
/-! DEFINITION. The encoder data commands (spec 46_commands.md R275 to R277, R282). -/

namespace Sys2Proof.Machine

/-- The last stages of an encoder data command: `ENC_CODE` on `xlow`, `xhigh`, then `EMIT`, on a context whose filter or
bypass has run. -/
def encodeAndEmit (p : Params) (c : Context) (xlow xhigh : Int) : List Byte × Context :=
  let (code, c') := encCode p c xlow xhigh
  emit c' code

/-- The encoder context and byte list after a full-band pair: `QMF_TX`, `ENC_CODE`, `EMIT` (R275). -/
def encPairResult (p : Params) (c : Context) (s0 s1 : BitVec 16) : List Byte × Context :=
  let (x', xlow, xhigh) := qmfTx p c.x s0 s1
  encodeAndEmit p { c with x := x' } xlow xhigh

/-- The encoder context and byte list after a bypass sample: `TX_BYPASS`, `ENC_CODE`, `EMIT` (R276). -/
def encSampleResult (p : Params) (c : Context) (smp : BitVec 16) : List Byte × Context :=
  let (xlow, xhigh) := txBypass (sext16 smp)
  encodeAndEmit p c xlow xhigh

/-- `ENC_PAIR s0, s1` (R275): legal in full-band mode only. -/
def execEncPair (s0 s1 : BitVec 16) (s : State) : Host.Outcome State Fault Refusal :=
  if s.enc.status.constructed = false then .next (raiseFault .enc .notConstructed s)
  else if s.enc.cfg.eightk = true ∨ s.enc.cfg.itu = true then .next (raiseFault .enc .wrongMode s)
  else
    let (out, c) := encPairResult s.params s.enc s0 s1
    .next (complete (out.map .byte) { s with enc := c })

/-- `ENC_SAMPLE s` (R276): legal in 8 kHz mode and ITU test mode only. -/
def execEncSample (smp : BitVec 16) (s : State) : Host.Outcome State Fault Refusal :=
  if s.enc.status.constructed = false then .next (raiseFault .enc .notConstructed s)
  else if s.enc.cfg.eightk = false ∧ s.enc.cfg.itu = false then .next (raiseFault .enc .wrongMode s)
  else
    let (out, c) := encSampleResult s.params s.enc smp
    .next (complete (out.map .byte) { s with enc := c })

end Sys2Proof.Machine
end

