-- ==== Sys2Proof/Machine/StatusRead.lean ====
section
/-! DEFINITION. The status command (spec 46_commands.md R280). -/

namespace Sys2Proof.Machine

/-- `RD_STATUS ctx` (R280): the status word of R108; changes no state, never faults, legal before construction. -/
def execRdStatus (ctx : Ctx) (s : State) : Host.Outcome State Fault Refusal :=
  .next (complete [.word (statusWord (s.ctx ctx))] s)

end Sys2Proof.Machine
end

