-- ==== Sys2Proof/Machine/Dispatch.lean ====
section
/-! DEFINITION. One arm per command: the meaning each runs (spec 46_commands.md). -/

namespace Sys2Proof.Machine

def exec (i : Instr) (s : State) : Host.Outcome State Fault Refusal :=
  match i with
  | .encInit rate options => Sys2Proof.Machine.execEncInit rate options s
  | .encInitT rate options => Sys2Proof.Machine.execEncInitT rate options s
  | .encPair s0 s1 => Sys2Proof.Machine.execEncPair s0 s1 s
  | .encSample smp => Sys2Proof.Machine.execEncSample smp s
  | .decInit rate options => Sys2Proof.Machine.execDecInit rate options s
  | .decInitT rate options => Sys2Proof.Machine.execDecInitT rate options s
  | .decByte b => Sys2Proof.Machine.execDecByte b s
  | .rdStatus ctx => Sys2Proof.Machine.execRdStatus ctx s

end Sys2Proof.Machine
end

