-- ==== Sys2Proof/Machine/Step.lean ====
section
/-! DEFINITION. One step: the core takes the next delivered command and runs it to completion (spec 00_scope.md R8, R14;
10_state.md R40; 60_exceptions.md R305; 70_reset_and_hazards.md R355). -/

namespace Sys2Proof.Machine

/-- One step. No waiting command: the core is idle and its state is held (R355, log entry 7). A word that does not decode
raises `ILLEGAL_CMD` before any command rule runs (R305). -/
def step (s : State) : Host.Outcome State Fault Refusal :=
  match takeCommand s with
  | none => .next s
  | some (w, s') =>
    match decode w with
    | .ok i => exec i s'
    | .error _ => .next (raiseIllegal w s')

/-- `s` with the instruction's word delivered, so that the next step takes exactly it. Log entry 3. -/
def State.withFetchWord (s : State) (nbits w : Nat) : State := placeWord s nbits w

end Sys2Proof.Machine
end

