-- ==== Sys2Proof/Machine/Asm.lean ====
section
/-! DEFINITION. The textual syntax of commands (spec 30_encoding.md R115). The spec defines it for its test programs;
the machine does not read text. Blanks and commas as in log entry 9. -/

namespace Sys2Proof.Machine

/-- One line of R115 with its operands as integers. -/
inductive AsmLine where
  | encInit (rate options : Int)
  | encInitT (rate options : Int)
  | encPair (s0 s1 : Int)
  | encSample (v : Int)
  | decInit (rate options : Int)
  | decInitT (rate options : Int)
  | decByte (b : Int)
  | rdStatus (ctx : Ctx)
deriving DecidableEq, Repr

/-- "a sample outside −32768..32767" is refused (R115). -/
def asmSample (v : Int) : Option (BitVec 16) :=
  if -32768 ≤ v ∧ v ≤ 32767 then some (BitVec.ofInt 16 v) else none

/-- An unsigned operand that fits `n` bits, else refused (R115). -/
def asmUnsigned (n : Nat) (v : Int) : Option (BitVec n) :=
  if 0 ≤ v ∧ v < 2 ^ n then some (BitVec.ofInt n v) else none

/-- A format I operand pair (R115): rate at most 2^32 − 1, options at most 0xFF. -/
def asmFormatI (build : BitVec 32 → BitVec 8 → Instr) (rate options : Int) : Option Instr :=
  match asmUnsigned 32 rate, asmUnsigned 8 options with
  | some r, some o => some (build r o)
  | _, _ => none

/-- The command of a line; none when an operand does not fit its field (R115). -/
def AsmLine.toInstr : AsmLine → Option Instr
  | .encInit rate options => asmFormatI .encInit rate options
  | .encInitT rate options => asmFormatI .encInitT rate options
  | .encPair s0 s1 =>
    match asmSample s0, asmSample s1 with
    | some a, some b => some (.encPair a b)
    | _, _ => none
  | .encSample v => (asmSample v).map .encSample
  | .decInit rate options => asmFormatI .decInit rate options
  | .decInitT rate options => asmFormatI .decInitT rate options
  | .decByte b => (asmUnsigned 8 b).map .decByte
  | .rdStatus ctx => some (.rdStatus ctx)

/-- The word of a line, `(op << 40) | (m << 32) | arg` (R115). -/
def AsmLine.assemble (l : AsmLine) : Option CmdWord := l.toInstr.map encode

/-- The value of a decimal digit. -/
def decimalDigit (c : Char) : Option Nat :=
  if 48 ≤ c.toNat ∧ c.toNat ≤ 57 then some (c.toNat - 48) else none

/-- The value of a hexadecimal digit. -/
def hexDigit (c : Char) : Option Nat :=
  if 48 ≤ c.toNat ∧ c.toNat ≤ 57 then some (c.toNat - 48)
  else if 97 ≤ c.toNat ∧ c.toNat ≤ 102 then some (c.toNat - 87)
  else if 65 ≤ c.toNat ∧ c.toNat ≤ 70 then some (c.toNat - 55)
  else none

/-- Digits of base `base`, most significant first, onto an accumulator. -/
def parseDigits (base : Nat) (digit : Char → Option Nat) : Nat → List Char → Option Nat
  | acc, [] => some acc
  | acc, c :: rest =>
    match digit c with
    | some v => parseDigits base digit (acc * base + v) rest
    | none => none

/-- "integers decimal or `0x` hexadecimal; samples may be negative decimals" (R115). DESIGN CHOICE, log entry 9: one number form
serves every operand, so a minus sign is read before a rate, an options number or a byte too, where R115 neither grants nor
forbids it. There `-0` is 0, and any other negative number is refused because it does not fit its field. Leading zeros are
accepted; a plus sign, `0X` and a negative hexadecimal number are not. -/
def parseInt : List Char → Option Int
  | [] => none
  | ['-'] => none
  | ['0', 'x'] => none
  | '-' :: rest => (parseDigits 10 decimalDigit 0 rest).map fun n => -(n : Int)
  | '0' :: 'x' :: rest => (parseDigits 16 hexDigit 0 rest).map fun n => (n : Int)
  | cs => (parseDigits 10 decimalDigit 0 cs).map fun n => (n : Int)

/-- `<options>`: a number or a name of R91, R115. -/
def parseOptions (cs : List Char) : Option Int :=
  if cs = "DEFAULT".toList then some 0
  else if cs = "SAMPLE_RATE_8000".toList then some 1
  else if cs = "PACKED".toList then some 2
  else if cs = "SAMPLE_RATE_8000|PACKED".toList then some 3
  else parseInt cs

/-- `enc` or `dec`, the operand of `rd.status` (R115). -/
def parseCtx (cs : List Char) : Option Ctx :=
  if cs = "enc".toList then some .enc
  else if cs = "dec".toList then some .dec
  else none

/-- A blank between words. -/
def isBlank (c : Char) : Bool := c = ' ' || c = '\t' || c = '\r'

/-- The part of a line before a comment (R115: `#` starts a comment). -/
def stripComment (cs : List Char) : List Char := cs.takeWhile fun c => !(c = '#')

/-- Split at a character, every piece kept. -/
def splitAt (sep : Char) : List Char → List (List Char)
  | [] => [[]]
  | c :: rest =>
    match splitAt sep rest with
    | [] => [[c]]
    | p :: ps => if c = sep then [] :: p :: ps else (c :: p) :: ps

/-- A line's mnemonic and its operands with blanks removed. -/
def lineParts (cs : List Char) : List Char × List (List Char) :=
  let body := (stripComment cs).dropWhile isBlank
  let name := body.takeWhile fun c => !isBlank c
  let rest := (body.dropWhile fun c => !isBlank c).filter fun c => !isBlank c
  (name, if rest.isEmpty then [] else splitAt ',' rest)

/-- A line with two operands. -/
def parseTwo (f g : List Char → Option Int) (build : Int → Int → AsmLine) : List (List Char) → Option AsmLine
  | [a, b] =>
    match f a, g b with
    | some x, some y => some (build x y)
    | _, _ => none
  | _ => none

/-- A line with one integer operand. -/
def parseOne (build : Int → AsmLine) : List (List Char) → Option AsmLine
  | [a] => (parseInt a).map build
  | _ => none

/-- The command line of R115 that the text is; none when it is not one. -/
def parseLine (cs : List Char) : Option AsmLine :=
  let (name, ops) := lineParts cs
  if name = "enc.init".toList then parseTwo parseInt parseOptions .encInit ops
  else if name = "enc.init.t".toList then parseTwo parseInt parseOptions .encInitT ops
  else if name = "enc.pair".toList then parseTwo parseInt parseInt .encPair ops
  else if name = "enc.sample".toList then parseOne .encSample ops
  else if name = "dec.init".toList then parseTwo parseInt parseOptions .decInit ops
  else if name = "dec.init.t".toList then parseTwo parseInt parseOptions .decInitT ops
  else if name = "dec.byte".toList then parseOne .decByte ops
  else if name = "rd.status".toList then
    match ops with
    | [a] => (parseCtx a).map .rdStatus
    | _ => none
  else none

/-- A line with no command: blank, or a comment only. -/
def blankLine (cs : List Char) : Bool := (stripComment cs).all isBlank

/-- The words of a program text, one command per line (R115); none when a line is not a command or an operand does not fit. -/
def assembleLines : List (List Char) → Option (List CmdWord)
  | [] => some []
  | l :: ls =>
    if blankLine l then assembleLines ls
    else
      match (parseLine l).bind AsmLine.assemble, assembleLines ls with
      | some w, some ws => some (w :: ws)
      | _, _ => none

/-- A whole program text (R115). -/
def assembleText (text : String) : Option (List CmdWord) := assembleLines (splitAt '\n' text.toList)

end Sys2Proof.Machine
end

