-- ==== Sys2Proof/Machine/Pseudo.lean ====
section
/-! DEFINITION. The pseudo-instructions `encode` and `decode` (spec 30_encoding.md R116 to R119; 60_exceptions.md R310,
R311; 20_memory.md R79): software over the command port. They turn a buffer into command words, or refuse before any
command is issued, so a refused call changes no state. -/

namespace Sys2Proof.Machine

/-- Full-band mode: `EIGHTK` = 0 and `ITU` = 0 (R15, R281). -/
def Cfg.fullBand (c : Cfg) : Bool := !c.eightk && !c.itu

/-- `x[k] = sext_16(byte[2k] + 256 * byte[2k+1])` (R79, R116), as the 16-bit field of a command. -/
def pcmSamples : List Byte → List Reg16
  | lo :: hi :: rest => (hi ++ lo) :: pcmSamples rest
  | _ => []

/-- Samples as bytes, low byte first (R79, R117). -/
def pcmBytes : List Reg16 → List Byte
  | [] => []
  | v :: rest => v.extractLsb' 0 8 :: v.extractLsb' 8 8 :: pcmBytes rest

/-- `enc.pair x[2j], x[2j+1]` for each pair (R116 step 3). -/
def pairCommands : List Reg16 → List Instr
  | s0 :: s1 :: rest => .encPair s0 s1 :: pairCommands rest
  | _ => []

/-- Whether `encode` works in full-band mode: `CFG` of a constructed context; a free value before construction, when `CFG` is
unspecified (R42, R116). Log entry 8. -/
def encodesFullBand (c : Context) : Bool :=
  if c.status.constructed then c.cfg.fullBand else Config.unconstructedFullBand

/-- The commands that carry the samples: pairs in full-band mode, else one sample each (R116 steps 3, 4). -/
def encodeCommands (fullBand : Bool) (samples : List Reg16) : List Instr :=
  if fullBand then pairCommands samples else samples.map .encSample

/-- Codewords for `n` samples (R119). -/
def encodeCodewords (cfg : Cfg) (n : Nat) : Nat := if cfg.fullBand then n / 2 else n

/-- Bytes `encode` of `n` samples returns on context `c` (R119). -/
def encodeByteCount (c : Context) (n : Nat) : Nat :=
  let cw := encodeCodewords c.cfg n
  if c.cfg.packed then (c.accBits.toNat + cw * c.cfg.bits.toNat) / 8 else cw

/-- Codewords in `m` bytes (R119). -/
def decodeCodewords (c : Context) (m : Nat) : Nat :=
  if c.cfg.packed then (c.accBits.toNat + 8 * m) / c.cfg.bits.toNat else m

/-- Samples per codeword (R117, R281). -/
def samplesPerCodeword (cfg : Cfg) : Nat := if cfg.eightk && !cfg.itu then 1 else 2

/-- Samples `decode` of `m` bytes returns on context `c` (R119). -/
def decodeSampleCount (c : Context) (m : Nat) : Nat := samplesPerCodeword c.cfg * decodeCodewords c m

/-- Bytes the result of `encode` of `n` samples has, which the caller's buffer must hold (R311): R119's count on a constructed
context; none before construction, when the core refuses every command with an empty output (R304, R307). Log entry 8. -/
def encodeResultBytes (c : Context) (n : Nat) : Nat :=
  if c.status.constructed then encodeByteCount c n else 0

/-- Bytes the result of `decode` of `m` bytes has (R311), two for each sample: R119's count on a constructed context, none
before construction. Log entry 8. -/
def decodeResultBytes (c : Context) (m : Nat) : Nat :=
  if c.status.constructed then 2 * decodeSampleCount c m else 0

/-- The check of R118: an odd sample count in full-band mode, with `ODD_TAIL` = `refuse`. -/
def oddTailRefused (p : Params) (fullBand : Bool) (n : Nat) : Bool :=
  match p.oddTail with
  | .refuse => fullBand && n % 2 == 1

/-- `encode <pcm bytes>` into a buffer of `capacity` bytes (R116, R118, R310, R311): the command words, or the refusal, which is
one of the two codes of this layer (R301). The byte count is tested first, whatever the context (R116 step 1, R310). Nothing
here asks whether the context is constructed: the commands are issued and the core refuses them (R307). -/
def encodeWords (pcm : List Byte) (capacity : Nat) (s : State) : Except FaultCode (List CmdWord) :=
  let fullBand := encodesFullBand s.enc
  if pcm.length % 2 = 1 then .error .invalidInput
  else if oddTailRefused s.params fullBand (pcm.length / 2) then .error .invalidInput
  else if encodeResultBytes s.enc (pcm.length / 2) > capacity then .error .outCapacity
  else .ok ((encodeCommands fullBand (pcmSamples pcm)).map encode)

/-- `decode <bytes>` into a buffer of `capacity` bytes (R117, R311): one `dec.byte` for each byte, or the refusal of a buffer too
small. No byte sequence is malformed (R310). -/
def decodeWords (bytes : List Byte) (capacity : Nat) (s : State) : Except FaultCode (List CmdWord) :=
  if decodeResultBytes s.dec bytes.length > capacity then .error .outCapacity
  else .ok (bytes.map fun b => encode (.decByte b))

/-- The code bytes in a list of responses, in order (R116 step 5). -/
def codeBytes (rs : List Response) : List Byte :=
  rs.flatMap fun r => r.out.filterMap fun
    | .byte b => some b
    | .sample _ => none
    | .word _ => none

/-- The PCM samples in a list of responses, in order (R117). -/
def pcmOut (rs : List Response) : List Reg16 :=
  rs.flatMap fun r => r.out.filterMap fun
    | .byte _ => none
    | .sample v => some v
    | .word _ => none

/-- Deliver words to an idle port and run a step for each. -/
def runWords (ws : List CmdWord) (s : State) : Host.Outcome State Fault Refusal :=
  Host.Core.run Sys2Proof.core ws.length (deliver ws s)

/-- The result of `encode`: the bytes of the commands' responses, and the state after them (R116). The refusal arm is never
taken: no step refuses. -/
def runEncode (pcm : List Byte) (capacity : Nat) (s : State) : Except FaultCode (List Byte × State) :=
  match encodeWords pcm capacity s with
  | .error e => .error e
  | .ok ws =>
    match runWords ws s with
    | .next t => .ok (codeBytes (t.responses.drop s.responses.length), t)
    | .fault r => nomatch r
    | .refused _ => .error .illegalCmd

/-- The result of `decode`: the PCM bytes, low byte first, and the state after (R117). The refusal arm is never taken: no step
refuses. -/
def runDecode (bytes : List Byte) (capacity : Nat) (s : State) : Except FaultCode (List Byte × State) :=
  match decodeWords bytes capacity s with
  | .error e => .error e
  | .ok ws =>
    match runWords ws s with
    | .next t => .ok (pcmBytes (pcmOut (t.responses.drop s.responses.length)), t)
    | .fault r => nomatch r
    | .refused _ => .error .illegalCmd

end Sys2Proof.Machine
end

