-- ==== Sys2Proof/Safety.lean ====
section
/-! DEFINITION. What counts as a safe run, and the terms claims use: the invariant of reachable states (spec
10_state.md R36, R42 to R46; 20_memory.md R77; 60_exceptions.md R301), and relations between states. -/

namespace Sys2Proof.Machine

/-- An entry of an inverse quantizer table fits 16 bits signed (R77). -/
def entryFits16 (v : Int) : Prop := -32768 ≤ v ∧ v ≤ 32767

/-- The shape constraints of R77 that the types of `Tables` do not already hold. -/
structure TablesOk (t : Tables) : Prop where
  ilb : ∀ i : Fin 32, 2048 ≤ t.ilb[i] ∧ t.ilb[i] ≤ 4095
  qm2 : ∀ i : Fin 4, entryFits16 t.qm2[i]
  qm4 : ∀ i : Fin 16, entryFits16 t.qm4[i]
  qm5 : ∀ i : Fin 32, entryFits16 t.qm5[i]
  qm6 : ∀ i : Fin 64, entryFits16 t.qm6[i]

/-- The pole coefficient limits in the form the algorithm keeps (R36 item 3, R160, conflict C1). -/
def PoleLimits (b : Band) : Prop :=
  -12288 ≤ b.a[2].toInt ∧ b.a[2].toInt ≤ 12288 ∧
  -(15360 - b.a[2].toInt) ≤ b.a[1].toInt ∧ b.a[1].toInt ≤ 15360 - b.a[2].toInt

/-- What holds of a Band bank after construction and after every `BLOCK4` (R25 to R36): registers no rule writes stay 0,
each next coefficient equals its current one, the newest history entries are doubled, the limits of R36. -/
structure BandOk (maxNb minDet : Nat) (b : Band) : Prop where
  a0 : b.a[0] = 0
  ap0 : b.ap[0] = 0
  b0 : b.b[0] = 0
  bp0 : b.bp[0] = 0
  ap1 : b.ap[1] = b.a[1]
  ap2 : b.ap[2] = b.a[2]
  bp : ∀ i : Fin 7, b.bp[i] = b.b[i]
  r01 : b.r[0] = b.r[1]
  p01 : b.p[0] = b.p[1]
  d01 : b.d[0] = b.d[1]
  sg : ∀ i : Fin 7, b.sg[i] = 0 ∨ b.sg[i] = -1
  poles : PoleLimits b
  nb : b.nb.toNat ≤ maxNb
  detMin : minDet ≤ b.det.toNat
  detMul : b.det.toNat % 4 = 0

/-- What holds of a constructed context whichever direction it is (R36, R42 to R46, R219, R239). -/
structure ContextOk (c : Context) : Prop where
  low : BandOk 18432 32 c.band0
  high : BandOk 22528 8 c.band1
  packed : c.cfg.packed = true → c.cfg.bits ≠ .eight
  unpacked : c.cfg.packed = false → c.accBuf = 0 ∧ c.accBits = 0
  acc : c.accBuf.toNat < 2 ^ c.accBits.toNat
  eightk : c.cfg.eightk = true → c.band1 = Band.constructed 8
  line : c.cfg.eightk = true ∨ c.cfg.itu = true → c.x = zeroLine

/-- Between commands `OutBits ≤ 7` (R45). -/
def EncOk (c : Context) : Prop := c.status.constructed = true → ContextOk c ∧ c.accBits.toNat ≤ 7

/-- Between commands `InBits < CFG.BITS` (R46). -/
def DecOk (c : Context) : Prop := c.status.constructed = true → ContextOk c ∧ c.accBits.toNat < c.cfg.bits.toNat

/-- A response of the core (R14, R301): a code from 0 to 4, and an empty list on a fault. -/
def ResponseOk (r : Response) : Prop := r.fault.toNat ≤ 4 ∧ (r.fault ≠ 0 → r.out = [])

/-- The invariant of reachable states. -/
structure Inv (s : State) : Prop where
  tables : TablesOk s.params.tables
  enc : EncOk s.enc
  dec : DecOk s.dec
  encFault : s.enc.status.fault.toNat ≤ 4
  decFault : s.dec.status.fault.toNat ≤ 4
  responses : ∀ r ∈ s.responses, ResponseOk r

/-- `Det` is what `SCALEL`, `SCALEH` compute from `Nb` in both banks of a constructed context (R34). -/
def StepSizesMatch (t : Tables) (c : Context) : Prop :=
  c.status.constructed = true →
    c.band0.det = toReg15 (scaleDet t 8 c.band0.nb) ∧ c.band1.det = toReg15 (scaleDet t 10 c.band1.nb)

/-- The step sizes match in both contexts, at the default tables. -/
def ScaleInv (s : State) : Prop :=
  s.params.tables = defaultTables ∧ StepSizesMatch s.params.tables s.enc ∧ StepSizesMatch s.params.tables s.dec

/-- A run of `n` steps that neither faults nor refuses. -/
def SafeRun (n : Nat) (s : State) : Prop := ∃ t, Host.Core.run Sys2Proof.core n s = .next t

/-- The commands that address the encoder context. -/
def encoderCommand : Instr → Bool
  | .encInit _ _ => true
  | .encInitT _ _ => true
  | .encPair _ _ => true
  | .encSample _ => true
  | .decInit _ _ => false
  | .decInitT _ _ => false
  | .decByte _ => false
  | .rdStatus _ => false

/-- The commands that address the decoder context. -/
def decoderCommand : Instr → Bool
  | .encInit _ _ => false
  | .encInitT _ _ => false
  | .encPair _ _ => false
  | .encSample _ => false
  | .decInit _ _ => true
  | .decInitT _ _ => true
  | .decByte _ => true
  | .rdStatus _ => false

/-- The context an INIT command constructs if its rate is one of the three; none for every other command (R270). -/
def constructs : Instr → Option Ctx
  | .encInit rate _ => (bitsOfRate rate).map fun _ => .enc
  | .encInitT rate _ => (bitsOfRate rate).map fun _ => .enc
  | .encPair _ _ => none
  | .encSample _ => none
  | .decInit rate _ => (bitsOfRate rate).map fun _ => .dec
  | .decInitT rate _ => (bitsOfRate rate).map fun _ => .dec
  | .decByte _ => none
  | .rdStatus _ => none

/-- The INIT command of a context: plain or test mode (R271 to R274). -/
def initCommand : Ctx → Bool → BitVec 32 → BitVec 8 → Instr
  | .enc, false => .encInit
  | .enc, true => .encInitT
  | .dec, false => .decInit
  | .dec, true => .decInitT

/-- `op` of the INIT commands (R271 to R274). -/
def initOp : Ctx → Bool → BitVec 8
  | .enc, false => 0x10
  | .enc, true => 0x11
  | .dec, false => 0x20
  | .dec, true => 0x21

/-- The rates of R97 with the codeword widths they give. -/
def legalRates : List (BitVec 32 × CodeBits) := [(64000, .eight), (56000, .seven), (48000, .six)]

/-- A refused command, all of it (R304): on context `c` with code `code`. -/
def refusedState (c : Ctx) (code : BitVec 8) (s : State) : State :=
  { s.setCtx c { s.ctx c with status :=
      { (s.ctx c).status with fault := if (s.ctx c).status.fault = 0 then code else (s.ctx c).status.fault } } with
    responses := s.responses ++ [⟨code, []⟩] }

/-- Commands run one after the other, each on the state the one before leaves. -/
def execList : List Instr → State → Host.Outcome State Fault Refusal
  | [], s => .next s
  | i :: rest, s =>
    match exec i s with
    | .next t => execList rest t
    | .fault r => .fault r
    | .refused r => .refused r

/-- Calls of the software layer on a context that is not constructed: each of `n` commands is refused by the core with
`NOT_CONSTRUCTED` (R307), the first of them marks the sticky code, nothing else changes. -/
def refusedCalls (c : Ctx) (n : Nat) (s : State) : State :=
  { (if n = 0 then s else refusedState c 2 s) with responses := s.responses ++ List.replicate n ⟨2, []⟩ }

/-- The number a list of digits of base `base` stands for, least significant first. -/
def digitsValue (base : Nat) : List (BitVec 8) → Nat
  | [] => 0
  | v :: rest => v.toNat + base * digitsValue base rest

/-- A context with its sticky fault code set aside. -/
def Context.clearFault (c : Context) : Context := { c with status := { c.status with fault := 0 } }

/-- Two contexts no command can tell apart: the same `STATUS`, and the same everything once constructed (R47, U4). -/
def SameToHost (c c' : Context) : Prop :=
  c.status = c'.status ∧ (c.status.constructed = true → c = c')

/-- Two states no host can tell apart (R47, R285). -/
def Indistinguishable (s s' : State) : Prop :=
  SameToHost s.enc s'.enc ∧ SameToHost s.dec s'.dec ∧ s.params = s'.params ∧ s.pending = s'.pending ∧
  s.responses = s'.responses

/-- `PACK` on each codeword in turn (R251): the bytes in order, and the context after. -/
def packAll (c : Context) : List (BitVec 8) → List Byte × Context
  | [] => ([], c)
  | code :: rest =>
    let r := pack c code
    let rs := packAll r.2 rest
    (r.1 ++ rs.1, rs.2)

/-- `UNPACK` on each byte in turn (R256): the codewords in order, and the context after. -/
def unpackAll (c : Context) : List Byte → List (BitVec 8) × Context
  | [] => ([], c)
  | b :: rest =>
    let r := unpack c b
    let rs := unpackAll r.2 rest
    (r.1 ++ rs.1, rs.2)

/-- Two delay lines whose pairs are swapped. -/
def PairsSwapped (x x' : Vector Reg16 24) : Prop :=
  ∀ i : Fin 12, x'[2 * i.val]'(by omega) = x[2 * i.val + 1]'(by omega) ∧
    x'[2 * i.val + 1]'(by omega) = x[2 * i.val]'(by omega)

/-- `BLOCK4(b, 0)` repeated (R161). -/
def silence : Nat → Band → Band
  | 0, b => b
  | n + 1, b => silence n (block4 b 0)

end Sys2Proof.Machine
end

