-- ==== Sys2Proof/Certificates/Slice0/Obligations.lean ====
section
/-! DEFINITION. The statements for the provers. Each docstring says which rule of spec/ it formalises; where a statement
rests on a passage the spec marks as derived or as supplied from general knowledge, or on a choice of the model, the
docstring says so. -/

open Sys2Proof Sys2Proof.Machine

/-! ### Encoding -/

/-- The words of 95_test_vectors.md V-CMD, written out there from the formats: the sixteen legal ones decode to the commands
printed beside them, and the eight illegal ones are rejected, each for its own reason. -/
def Obligations.WrittenWordsDecode : Prop :=
  decode 0x10000000FA00 = .ok (.encInit 64000 0) ∧
  decode 0x10020000FA00 = .ok (.encInit 64000 2) ∧
  decode 0x10030000BB80 = .ok (.encInit 48000 3) ∧
  decode 0x10000000AC44 = .ok (.encInit 44100 0) ∧
  decode 0x11000000DAC0 = .ok (.encInitT 56000 0) ∧
  decode 0x20020000DAC0 = .ok (.decInit 56000 2) ∧
  decode 0x21000000FA00 = .ok (.decInitT 64000 0) ∧
  decode 0x120000000000 = .ok (.encPair 0 0) ∧
  decode 0x12000002FFFF = .ok (.encPair (-1) 2) ∧
  decode 0x1200FC1803E8 = .ok (.encPair 1000 (-1000)) ∧
  decode 0x1300000007D0 = .ok (.encSample 2000) ∧
  decode 0x13000000FFFE = .ok (.encSample (-2)) ∧
  decode 0x220000000000 = .ok (.decByte 0) ∧
  decode 0x2200000000FA = .ok (.decByte 0xFA) ∧
  decode 0x300000000000 = .ok (.rdStatus .enc) ∧
  decode 0x300100000000 = .ok (.rdStatus .dec) ∧
  decode 0x10040000FA00 = .error .reservedOptions ∧
  decode 0x2200000001FF = .error .reservedArgument ∧
  decode 0x1300000107D0 = .error .reservedArgument ∧
  decode 0x120100000000 = .error .reservedModifier ∧
  decode 0x300200000000 = .error .reservedModifier ∧
  decode 0x000000000000 = .error .unassignedOpcode ∧
  decode 0x140000000000 = .error .unassignedOpcode ∧
  decode 0x230000000000 = .error .unassignedOpcode

/-- Decoding the word of a well-formed command gives it back (30_encoding.md sections 1 and 8). -/
def Obligations.DecodeAfterEncodeIsIdentity : Prop :=
  ∀ i : Instr, i.wellFormed = true → decode (encode i) = .ok i

/-- A word that decodes is the word of the command it decodes to, and that command is well formed: no bit of a legal word
is ignored (30_encoding.md section 1). -/
def Obligations.EncodeAfterDecodeIsIdentity : Prop :=
  ∀ (w : CmdWord) (i : Instr), decode w = .ok i → encode i = w ∧ i.wellFormed = true

/-- R95: the map's eight rows; a word is the command of a row when it matches the row under its mask, the rows are disjoint,
and a word that matches no row is illegal. -/
def Obligations.DecoderAgreesWithOpcodeMap : Prop :=
  (opcodeMap.map fun r => (r.mnemonic, r.pattern.toNat, r.mask.toNat)) =
    [("ENC_INIT", 0x100000000000, 0xFFFC00000000), ("ENC_INIT_T", 0x110000000000, 0xFFFC00000000),
     ("ENC_PAIR", 0x120000000000, 0xFFFF00000000), ("ENC_SAMPLE", 0x130000000000, 0xFFFFFFFF0000),
     ("DEC_INIT", 0x200000000000, 0xFFFC00000000), ("DEC_INIT_T", 0x210000000000, 0xFFFC00000000),
     ("DEC_BYTE", 0x220000000000, 0xFFFFFFFFFF00), ("RD_STATUS", 0x300000000000, 0xFFFEFFFFFFFF)] ∧
  (∀ (w : CmdWord) (i : Instr), decode w = .ok i → ∃ r ∈ opcodeMap, r.mnemonic = i.mnemonic ∧ w &&& r.mask = r.pattern) ∧
  (∀ w : CmdWord, ∀ r ∈ opcodeMap, w &&& r.mask = r.pattern → ∃ i, decode w = .ok i ∧ i.mnemonic = r.mnemonic) ∧
  (∀ w : CmdWord, ∀ r ∈ opcodeMap, ∀ r' ∈ opcodeMap, w &&& r.mask = r.pattern → w &&& r'.mask = r'.pattern → r = r') ∧
  (∀ w : CmdWord, (∀ r ∈ opcodeMap, w &&& r.mask ≠ r.pattern) → ∃ e, decode w = .error e)

/-! ### One step -/

/-- A step runs the decoded command: it takes the word at the head of the port and runs its command on the state without
it. That commands wait in a list of the state is the model's own (log entry 1). -/
def Obligations.StepRunsDecodedCommand : Prop :=
  ∀ (s : State) (w : CmdWord) (rest : List CmdWord) (i : Instr),
    s.pending = w :: rest → decode w = .ok i → step s = exec i { s with pending := rest }

/-- R305: an illegal word is answered with ILLEGAL_CMD; the context that records the code is chosen by `op` alone; the
rule's four examples are illegal words. -/
def Obligations.IllegalWordRaisesIllegalCmd : Prop :=
  (∀ (s : State) (w : CmdWord) (rest : List CmdWord) (e : DecodeError), s.pending = w :: rest → decode w = .error e →
    let op := (w.extractLsb' 40 8).toNat
    let sticky := fun c : Context =>
      { c with status := { c.status with fault := if c.status.fault = 0 then 4 else c.status.fault } }
    step s = .next { s with
      pending := rest
      enc := if 0x10 ≤ op ∧ op ≤ 0x13 then sticky s.enc else s.enc
      dec := if 0x20 ≤ op ∧ op ≤ 0x22 then sticky s.dec else s.dec
      responses := s.responses ++ [⟨4, []⟩] }) ∧
  (∀ w ∈ [(0x10040000FA00 : CmdWord), 0x2200000001FF, 0x000000000000, 0x300200000000], ∃ e, decode w = .error e)

/-- With no command waiting the state is held (70_reset_and_hazards.md section 5, "Between commands it is idle with its
state held"; log entry 7 reads it so). -/
def Obligations.IdleStepHoldsState : Prop :=
  ∀ s : State, s.pending = [] → step s = .next s

/-- Every command terminates and the machine never stops: a run of any length from any state ends in a state
(46_commands.md section 6, 60_exceptions.md section 1). -/
def Obligations.EveryRunIsSafe : Prop :=
  ∀ (n : Nat) (s : State), SafeRun n s

/-- R331: the ROM tables and the parameters are constants: no step changes them. -/
def Obligations.ParametersAreConstant : Prop :=
  ∀ s t : State, step s = .next t → t.params = s.params

/-! ### Reset and construction -/

/-- R47: power-on clears both status registers; construction, which is what a successful INIT does to its context, gives
every register of the context the value of the table. Nothing is said of the other registers at power-on, which the rule
leaves unspecified and whose values are the model's (log entry 2). -/
def Obligations.PowerOnAndConstructionValues : Prop :=
  State.reset.enc.status = ⟨false, 0⟩ ∧ State.reset.dec.status = ⟨false, 0⟩ ∧
  ∀ (k : Ctx) (itu : Bool) (rate : BitVec 32) (bits : CodeBits) (options : BitVec 8) (s : State),
    (rate, bits) ∈ legalRates → ∃ t, exec (initCommand k itu rate options) s = .next t ∧
    let c := t.ctx k
    c.band0.det = 32 ∧ c.band1.det = 8 ∧
    (∀ b : Band, b = c.band0 ∨ b = c.band1 →
      b.s = 0 ∧ b.sp = 0 ∧ b.sz = 0 ∧ b.nb = 0 ∧
      (∀ i : Fin 3, b.r[i] = 0 ∧ b.a[i] = 0 ∧ b.ap[i] = 0 ∧ b.p[i] = 0) ∧
      (∀ i : Fin 7, b.d[i] = 0 ∧ b.b[i] = 0 ∧ b.bp[i] = 0 ∧ b.sg[i] = 0)) ∧
    (∀ i : Fin 24, c.x[i] = 0) ∧ c.accBuf = 0 ∧ c.accBits = 0 ∧
    c.cfg = { bits := bits, packed := options.getLsbD 1 && bits != .eight, eightk := options.getLsbD 0, itu := itu } ∧
    c.status = ⟨true, 0⟩

/-- R270 to R274, R97, R306: with one of the three rates ENC_INIT, ENC_INIT_T, DEC_INIT and DEC_INIT_T complete, construct
their own context and answer an empty list; with any other rate they answer CFG_RATE and change nothing but the sticky
code; with a reserved option bit the word does not decode. The other context, the port and the parameters stay. -/
def Obligations.InitCommandsConstruct : Prop :=
  (∀ (c : Ctx) (itu : Bool) (rate : BitVec 32) (bits : CodeBits) (options : BitVec 8) (s : State),
    (rate, bits) ∈ legalRates →
    exec (initCommand c itu rate options) s = .next { s.setCtx c (Context.constructed
      { bits := bits, packed := options.getLsbD 1 && bits != .eight, eightk := options.getLsbD 0, itu := itu }) with
      responses := s.responses ++ [⟨0, []⟩] }) ∧
  (∀ (c : Ctx) (itu : Bool) (rate : BitVec 32) (options : BitVec 8) (s : State),
    rate ≠ 64000 → rate ≠ 56000 → rate ≠ 48000 →
    exec (initCommand c itu rate options) s = .next (refusedState c 1 s)) ∧
  (∀ (c : Ctx) (itu : Bool) (rate : BitVec 32) (options : BitVec 8), options.extractLsb' 2 6 ≠ 0 →
    decode (CmdWord.ofFields (initOp c itu) options rate) = .error .reservedOptions)

/-! ### Data commands -/

/-- R275: ENC_PAIR on a constructed full-band encoder completes: QMF_TX, both sub-band encoders, assembly, EMIT; the
decoder, the port and the parameters stay. On an unconstructed context it answers NOT_CONSTRUCTED, in another mode
WRONG_MODE. R252: EMIT is the whole codeword as one byte when not packed, with the accumulator untouched and the byte's
bits from BITS up 0, and PACK when packed. -/
def Obligations.EncPairEncodesPair : Prop :=
  (∀ (c : Context) (code : BitVec 8), (c.cfg.packed = false → emit c code = ([code], c)) ∧
    (c.cfg.packed = true → emit c code = pack c code)) ∧
  (∀ (bits : CodeBits) (ihigh : BitVec 2) (ilow : BitVec 6), (assembleCode bits ihigh ilow).toNat < 2 ^ bits.toNat) ∧
  ∀ (s0 s1 : BitVec 16) (s : State),
    (s.enc.status.constructed = true → s.enc.cfg.eightk = false → s.enc.cfg.itu = false →
      let x := qmfShift s.enc.x s0 s1
      let low := lowEnc s.params s.enc.band0 (asr (sumE s.params x + sumO s.params x) 14)
      let high := highEnc s.params s.enc.band1 (asr (sumO s.params x - sumE s.params x) 14)
      let r := emit { s.enc with x := x, band0 := low.2, band1 := high.2 }
        (assembleCode s.enc.cfg.bits high.1 low.1)
      exec (.encPair s0 s1) s =
        .next { s with enc := r.2, responses := s.responses ++ [⟨0, r.1.map OutItem.byte⟩] }) ∧
    (s.enc.status.constructed = false → exec (.encPair s0 s1) s = .next (refusedState .enc 2 s)) ∧
    (s.enc.status.constructed = true → (s.enc.cfg.eightk = true ∨ s.enc.cfg.itu = true) →
      exec (.encPair s0 s1) s = .next (refusedState .enc 3 s))

/-- R276: ENC_SAMPLE on a constructed encoder in 8 kHz mode or ITU test mode completes: TX_BYPASS, the low-band encoder,
the high-band encoder unless EIGHTK = 1, assembly, EMIT; the delay line, the decoder, the port and the parameters stay.
Otherwise it answers NOT_CONSTRUCTED or WRONG_MODE. -/
def Obligations.EncSampleEncodesSample : Prop :=
  ∀ (smp : BitVec 16) (s : State),
    (s.enc.status.constructed = true → s.enc.cfg.eightk = true →
      let low := lowEnc s.params s.enc.band0 (asr smp.toInt 1)
      let r := emit { s.enc with band0 := low.2 } (assembleCode s.enc.cfg.bits s.params.eightkHigh low.1)
      exec (.encSample smp) s =
        .next { s with enc := r.2, responses := s.responses ++ [⟨0, r.1.map OutItem.byte⟩] }) ∧
    (s.enc.status.constructed = true → s.enc.cfg.eightk = false → s.enc.cfg.itu = true →
      let low := lowEnc s.params s.enc.band0 (asr smp.toInt 1)
      let high := highEnc s.params s.enc.band1 (asr smp.toInt 1)
      let r := emit { s.enc with band0 := low.2, band1 := high.2 } (assembleCode s.enc.cfg.bits high.1 low.1)
      exec (.encSample smp) s =
        .next { s with enc := r.2, responses := s.responses ++ [⟨0, r.1.map OutItem.byte⟩] }) ∧
    (s.enc.status.constructed = false → exec (.encSample smp) s = .next (refusedState .enc 2 s)) ∧
    (s.enc.status.constructed = true → s.enc.cfg.eightk = false → s.enc.cfg.itu = false →
      exec (.encSample smp) s = .next (refusedState .enc 3 s))

/-- R278: DEC_BYTE on a constructed decoder completes in every mode: UNPACK or TAKE_BYTE, then DEC_CODE on each codeword in
order; the encoder, the port and the parameters stay. On an unconstructed context it answers NOT_CONSTRUCTED. -/
def Obligations.DecByteDecodesByte : Prop :=
  ∀ (b : BitVec 8) (s : State),
    (s.dec.status.constructed = true →
      let u := if s.dec.cfg.packed = true then unpack s.dec b else ([b], s.dec)
      let r := u.1.foldl (fun acc code =>
        let o := decCode s.params acc.2 code
        (acc.1 ++ o.1, o.2)) (([] : List Reg16), u.2)
      exec (.decByte b) s =
        .next { s with dec := r.2, responses := s.responses ++ [⟨0, r.1.map OutItem.sample⟩] }) ∧
    (s.dec.status.constructed = false → exec (.decByte b) s = .next (refusedState .dec 2 s))

/-- R279: one codeword through both sub-band decoders and the output stage, in each of the four modes of R281. -/
def Obligations.DecCodeDecodesCodeword : Prop :=
  ∀ (p : Params) (c : Context) (code : BitVec 8),
    let bits := c.cfg.bits
    let low := lowDec p.tables bits c.band0 (codeField bits code) (codeRil bits code)
    let high := highDec p.tables c.band1 (codeHigh bits code)
    let x := qmfShift c.x (toReg (low.1 + high.1)) (toReg (low.1 - high.1))
    (c.cfg.eightk = false → c.cfg.itu = false → decCode p c code =
      ([toReg (sat16 (asr (sumO p x) 11)), toReg (sat16 (asr (sumE p x) 11))],
        { c with band0 := low.2, band1 := high.2, x := x })) ∧
    (c.cfg.eightk = false → c.cfg.itu = true → decCode p c code =
      ([toReg (low.1 * 2), toReg (high.1 * 2)], { c with band0 := low.2, band1 := high.2 })) ∧
    (c.cfg.eightk = true → c.cfg.itu = false → decCode p c code = ([toReg (low.1 * 2)], { c with band0 := low.2 })) ∧
    (c.cfg.eightk = true → c.cfg.itu = true → decCode p c code = ([toReg (low.1 * 2), 0], { c with band0 := low.2 }))

/-- R280, R108: RD_STATUS completes in every state, changes nothing but the response list, and answers the status word,
field by field. -/
def Obligations.RdStatusAnswersStatusWord : Prop :=
  (∀ (ctx : Ctx) (s : State), exec (.rdStatus ctx) s =
    .next { s with responses := s.responses ++ [⟨0, [.word (statusWord (s.ctx ctx))]⟩] }) ∧
  (∀ c : Context, (statusWord c).toNat =
    if c.status.constructed = true then
      1 + 2 * c.cfg.eightk.toNat + 4 * c.cfg.packed.toNat + 8 * c.cfg.itu.toNat + 16 * c.cfg.bits.toNat
        + 256 * c.status.fault.toNat + 65536 * c.accBits.toNat
    else 256 * c.status.fault.toNat)

/-! ### Faults, status, configuration -/

/-- R304: whatever command answers a nonzero code, its output list is empty and nothing changed but the sticky code of the
context it addresses, which keeps its value when it was not 0. -/
def Obligations.FaultsArePrecise : Prop :=
  ∀ (i : Instr) (s t : State) (code : BitVec 8) (out : List OutItem),
    exec i s = .next t → t.responses = s.responses ++ [⟨code, out⟩] → code ≠ 0 →
    ∃ c : Ctx, (encoderCommand i = true → c = .enc) ∧ (decoderCommand i = true → c = .dec) ∧ t = refusedState c code s

/-- R309: a nonzero FAULT has no effect on execution (two states that differ only in their sticky codes and in the responses
given so far stay so under every command but the read of the status, and each gives the same response); the commands after
a refused one give exactly the responses they would have given without it; the code stays until the next successful INIT on
its context, and that clears it. -/
def Obligations.FaultCodeIsInformational : Prop :=
  (∀ (i : Instr) (s s' t t' : State), (∀ c, i ≠ .rdStatus c) →
    s.enc.clearFault = s'.enc.clearFault → s.dec.clearFault = s'.dec.clearFault →
    s.params = s'.params → s.pending = s'.pending →
    exec i s = .next t → exec i s' = .next t' →
    t.enc.clearFault = t'.enc.clearFault ∧ t.dec.clearFault = t'.dec.clearFault ∧
    t.params = t'.params ∧ t.pending = t'.pending ∧
    ∃ r, t.responses = s.responses ++ [r] ∧ t'.responses = s'.responses ++ [r]) ∧
  (∀ (commands : List Instr) (c : Ctx) (code : BitVec 8) (s t t' : State),
    (∀ i ∈ commands, ∀ ctx, i ≠ .rdStatus ctx) →
    execList commands s = .next t → execList commands (refusedState c code s) = .next t' →
    ∃ rs, t.responses = s.responses ++ rs ∧ t'.responses = s.responses ++ ⟨code, []⟩ :: rs) ∧
  (∀ (i : Instr) (s t : State) (c : Ctx), exec i s = .next t → constructs i ≠ some c →
    (s.ctx c).status.fault ≠ 0 → (t.ctx c).status.fault = (s.ctx c).status.fault) ∧
  (∀ (i : Instr) (s t : State) (c : Ctx), exec i s = .next t → constructs i = some c → (t.ctx c).status.fault = 0)

/-- Both fields of STATUS are 0 at power-on; CONSTRUCTED is set by a successful INIT on its context and no step clears it;
FAULT takes the code of a command's response when it was 0, keeps its value when it was not, and a successful INIT clears
it; a command leaves STATUS of a context it does not address; a step that changes STATUS took either an INIT word that
succeeds on the context, or a command or illegal word that addresses the context, found FAULT 0 there and answered the
code FAULT now holds (10_state.md section 6). -/
def Obligations.StatusRegisterWriters : Prop :=
  (∀ c : Ctx, (State.reset.ctx c).status = ⟨false, 0⟩) ∧
  (∀ (i : Instr) (s t : State) (c : Ctx), exec i s = .next t →
    (constructs i = some c → (t.ctx c).status = ⟨true, 0⟩) ∧
    (constructs i ≠ some c → (t.ctx c).status.constructed = (s.ctx c).status.constructed)) ∧
  (∀ (i : Instr) (s t : State) (c : Ctx) (r : Response), exec i s = .next t → t.responses = s.responses ++ [r] →
    (c = .enc ∧ encoderCommand i = true) ∨ (c = .dec ∧ decoderCommand i = true) → constructs i ≠ some c →
    (t.ctx c).status.fault = if (s.ctx c).status.fault = 0 then r.fault else (s.ctx c).status.fault) ∧
  (∀ (s t : State) (c : Ctx), step s = .next t →
    ((s.ctx c).status.constructed = true → (t.ctx c).status.constructed = true) ∧
    ((t.ctx c).status.fault ≠ 0 → (t.ctx c).status.fault ≠ (s.ctx c).status.fault → (s.ctx c).status.fault = 0)) ∧
  (∀ (i : Instr) (s t : State) (c : Ctx), exec i s = .next t →
    (c = .enc ∧ encoderCommand i = false) ∨ (c = .dec ∧ decoderCommand i = false) →
    (t.ctx c).status = (s.ctx c).status) ∧
  (∀ (s t : State) (c : Ctx), step s = .next t → (t.ctx c).status ≠ (s.ctx c).status →
    ∃ w rest, s.pending = w :: rest ∧
      ((∃ i, decode w = .ok i ∧ constructs i = some c ∧ (t.ctx c).status = ⟨true, 0⟩) ∨
       ((s.ctx c).status.fault = 0 ∧ (t.ctx c).status.constructed = (s.ctx c).status.constructed ∧
        (∃ r, t.responses = s.responses ++ [r] ∧ r.fault ≠ 0 ∧ (t.ctx c).status.fault = r.fault) ∧
        ((∃ i, decode w = .ok i ∧
            ((c = .enc ∧ encoderCommand i = true) ∨ (c = .dec ∧ decoderCommand i = true))) ∨
         (∃ e, decode w = .error e ∧
            let op := (w.extractLsb' 40 8).toNat
            ((c = .enc ∧ 0x10 ≤ op ∧ op ≤ 0x13) ∨ (c = .dec ∧ 0x20 ≤ op ∧ op ≤ 0x22)))))))

/-- CFG is written only by a successful INIT on its context (10_state.md section 6). -/
def Obligations.ConfigurationIsImmutable : Prop :=
  ∀ (s t : State) (c : Ctx), step s = .next t → (t.ctx c).cfg ≠ (s.ctx c).cfg →
    ∃ w rest i, s.pending = w :: rest ∧ decode w = .ok i ∧ constructs i = some c

/-- What every command leaves alone: an encoder command the decoder context, a decoder command the encoder context,
RD_STATUS both; every command the parameters and the waiting words, and it gives exactly one response (00_scope.md
sections 5 and 6, 10_state.md section 1). -/
def Obligations.CommandFrame : Prop :=
  ∀ (i : Instr) (s t : State), exec i s = .next t →
    t.params = s.params ∧ t.pending = s.pending ∧ (∃ r, t.responses = s.responses ++ [r]) ∧
    (encoderCommand i = true → t.dec = s.dec) ∧ (decoderCommand i = true → t.enc = s.enc) ∧
    (∀ c, i = .rdStatus c → t.enc = s.enc ∧ t.dec = s.dec)

/-- Commands to enc and commands to dec commute: either order gives each context the same state and the same response
(20_memory.md section 8, a passage the spec marks as derived). -/
def Obligations.ContextsCommute : Prop :=
  ∀ (e d : Instr) (s t1 u1 t2 u2 : State), encoderCommand e = true → decoderCommand d = true →
    exec e s = .next t1 → exec d t1 = .next u1 → exec d s = .next t2 → exec e t2 = .next u2 →
    u1.enc = u2.enc ∧ u1.dec = u2.dec ∧ u1.params = u2.params ∧ u1.pending = u2.pending ∧
    ∃ re rd, u1.responses = s.responses ++ [re, rd] ∧ u2.responses = s.responses ++ [rd, re]

/-- No command observes a register of a context that is not constructed: two states that agree on every constructed
context and on both status registers stay so, with equal responses, whatever the other registers hold (10_state.md
section 8, 46_commands.md section 6). So no response depends on the power-on values of log entry 2. -/
def Obligations.PowerOnValuesAreUnobservable : Prop :=
  ∀ s s' t t' : State, Indistinguishable s s' → step s = .next t → step s' = .next t' → Indistinguishable t t'

/-! ### Arithmetic -/

/-- R130: saturation to the signed 16-bit range, equal to truncate-and-compare, idempotent, monotone, with the rule's corner
cases. -/
def Obligations.Sat16Saturates : Prop :=
  (∀ v : Int, (v > 32767 → sat16 v = 32767) ∧ (v < -32768 → sat16 v = -32768) ∧
    (-32768 ≤ v ∧ v ≤ 32767 → sat16 v = v) ∧ sat16 (sat16 v) = sat16 v ∧
    sat16 v = (let w := (BitVec.ofInt 16 v).toInt; if w = v then v else if v < 0 then -32768 else 32767)) ∧
  (∀ v w : Int, v ≤ w → sat16 v ≤ sat16 w) ∧
  sat16 32768 = 32767 ∧ sat16 (-32769) = -32768 ∧ sat16 (-32768) = -32768 ∧ sat16 32767 = 32767 ∧ sat16 40000 = 32767

/-- R132: the right shift is the floor of the quotient by the power of two, with the rule's examples. -/
def Obligations.ShiftRightIsFloor : Prop :=
  (∀ (v : Int) (n : Nat), asr v n = ⌊(v : ℚ) / 2 ^ n⌋) ∧
  asr (-1) 7 = -1 ∧ asr (-32767) 7 = -256 ∧ asr (-32768) 7 = -256 ∧ asr 32767 7 = 255 ∧ asr (-3) 1 = -2 ∧
  asr 5 14 = 0 ∧ asr (-5) 14 = -1

/-! ### The predictor -/

/-- R156, R157, R158: the filter outputs and the prediction, and that each of the three steps writes that one register. -/
def Obligations.FilterStepsPredict : Prop :=
  ∀ b : Band,
    (filtep b = { b with sp := (filtep b).sp } ∧ (filtep b).sp.toInt =
      sat16 (asr (b.a[1].toInt * sat16 (2 * b.r[1].toInt)) 15 + asr (b.a[2].toInt * sat16 (2 * b.r[2].toInt)) 15)) ∧
    (filtez b = { b with sz := (filtez b).sz } ∧ (filtez b).sz.toInt =
      sat16 (∑ i : Fin 6, asr (b.b[i.val + 1].toInt * sat16 (2 * b.d[i.val + 1].toInt)) 15)) ∧
    (predic b = { b with s := (predic b).s } ∧ (predic b).s.toInt = sat16 (b.sp.toInt + b.sz.toInt))

/-- The whole state after BLOCK4 in terms of the state before, for every bank and every 16-bit difference: the closed form
printed in 41_block4_predictor.md section 3 (which the spec marks as derived from its steps; the polarity of the sign
tests and the write of D[0] are supplied there from general knowledge). The sign is 0 for a value not negative and -1 for a
negative one, and the clamp returns the bound a value is beyond, else the value (40_saturation_arithmetic.md section 2;
that zero counts as non-negative is supplied there from general knowledge). -/
def Obligations.Block4ClosedForm : Prop :=
  (∀ v : Int, (v ≥ 0 → sgn v = 0) ∧ (v < 0 → sgn v = -1)) ∧
  (∀ v lo hi : Int, lo ≤ hi →
    (v < lo → clamp v lo hi = lo) ∧ (v > hi → clamp v lo hi = hi) ∧ (lo ≤ v → v ≤ hi → clamp v lo hi = v)) ∧
  ∀ (b : Band) (d : Int), -32768 ≤ d → d ≤ 32767 →
    let b' := block4 b d
    let r0 := sat16 (b.s.toInt + d)
    let p0 := sat16 (b.sz.toInt + d)
    let w1 := sat16 (b.a[1].toInt * 4)
    let w2 := clamp (if sgn p0 = sgn b.p[1].toInt then -w1 else w1) (-32767) 32767
    let a2 := clamp (asr w2 7 + (if sgn p0 = sgn b.p[2].toInt then 128 else -128) + asr (b.a[2].toInt * 32512) 15)
      (-12288) 12288
    let a1 := clamp (sat16 ((if sgn p0 = sgn b.p[1].toInt then 192 else -192) + asr (b.a[1].toInt * 32640) 15))
      (-(15360 - a2)) (15360 - a2)
    let step : Int := if d = 0 then 0 else 128
    (b'.r[0].toInt = r0 ∧ b'.r[1].toInt = r0 ∧ b'.r[2] = b.r[1]) ∧
    (b'.p[0].toInt = p0 ∧ b'.p[1].toInt = p0 ∧ b'.p[2] = b.p[1]) ∧
    (b'.d[0].toInt = d ∧ b'.d[1].toInt = d ∧ ∀ i : Fin 5, b'.d[i.val + 2] = b.d[i.val + 1]) ∧
    (b'.a[0] = b.a[0] ∧ b'.a[1].toInt = a1 ∧ b'.a[2].toInt = a2) ∧
    (b'.ap[0] = b.ap[0] ∧ b'.ap[1] = b'.a[1] ∧ b'.ap[2] = b'.a[2]) ∧
    (b'.b[0] = b.b[0] ∧ b'.bp[0] = b.bp[0] ∧ ∀ i : Fin 6, b'.bp[i.val + 1] = b'.b[i.val + 1] ∧
      b'.b[i.val + 1].toInt = sat16 ((if sgn b.d[i.val + 1].toInt = sgn d then step else -step)
        + asr (b.b[i.val + 1].toInt * 32640) 15)) ∧
    (b'.sg[0].toInt = sgn d ∧ ∀ i : Fin 6, b'.sg[i.val + 1].toInt = sgn b.d[i.val + 1].toInt) ∧
    b'.sp.toInt = sat16 (asr (a1 * sat16 (2 * r0)) 15 + asr (a2 * sat16 (2 * b.r[1].toInt)) 15) ∧
    b'.sz.toInt = sat16 (∑ i : Fin 6, asr (b'.b[i.val + 1].toInt * sat16 (2 * b'.d[i.val + 1].toInt)) 15) ∧
    b'.s.toInt = sat16 (b'.sp.toInt + b'.sz.toInt) ∧
    b'.nb = b.nb ∧ b'.det = b.det

/-- The pole coefficients stay inside their limits after BLOCK4 on any bank, reachable or not, in the form the algorithm
keeps: |A[2]| ≤ 12288 and |A[1]| ≤ 15360 − A[2] (41_block4_predictor.md section 3, marked derived there; conflict C1
withdraws the form with |A[2]|). -/
def Obligations.Block4KeepsPoleLimits : Prop :=
  ∀ (b : Band) (d : Int), PoleLimits (block4 b d)

/-- Under silence the signals of a freshly constructed bank stay zero for ever, while its pole coefficients move: after one
BLOCK4 they are (192, 128), after two (383, 249) (41_block4_predictor.md section 3, marked derived there). -/
def Obligations.SilenceKeepsSignalsZero : Prop :=
  (∀ (n : Nat) (det : Reg15),
    let b := silence n (Band.constructed det)
    b.s = 0 ∧ b.sp = 0 ∧ b.sz = 0 ∧ (∀ i : Fin 3, b.r[i] = 0 ∧ b.p[i] = 0) ∧ (∀ i : Fin 7, b.d[i] = 0 ∧ b.b[i] = 0) ∧
    b.nb = 0 ∧ b.det = det) ∧
  (silence 1 (Band.constructed 32)).a = #v[0, 192, 128] ∧ (silence 2 (Band.constructed 32)).a = #v[0, 383, 249]

/-! ### Low band -/

/-- QUANTL picks the code of the one interval that contains the magnitude: thresholds before the chosen index do not exceed
it, the threshold at the index does, and index 30 is the unbounded top interval; the magnitude is the error itself
when not negative, its negative or one's complement when negative, by NEG_MAG (42_lowband_adpcm.md section 1; index 30 and
the one's complement are supplied there from general knowledge). -/
def Obligations.QuantlPicksInterval : Prop :=
  (∀ (m : NegMag) (e : Int), e ≥ 0 → mag m e = e) ∧
  (∀ e : Int, e < 0 → mag .abs e = -e ∧ mag .ones e = -(e + 1)) ∧
  ∀ (p : Params) (b : Band) (xlow : Int),
    let el := sat16 (xlow - b.s.toInt)
    let wd := mag p.negMag el
    ∃ i : Fin 32, 1 ≤ i.val ∧ i.val ≤ 30 ∧
      (∀ j : Fin 32, 1 ≤ j.val → j.val < i.val → asr (p.tables.q6[j] * b.det.toNat) 12 ≤ wd) ∧
      (i.val ≤ 29 → wd < asr (p.tables.q6[i] * b.det.toNat) 12) ∧
      quantl p b xlow = if el ≥ 0 then p.tables.ilp[i] else p.tables.iln[i]

/-- With the listed tables the low-band encoder never produces a code below 4 (42_lowband_adpcm.md section 1; 20_memory.md
section 2 marks it as derived from tables supplied from general knowledge). -/
def Obligations.QuantlNeverBelowFour : Prop :=
  ∀ (p : Params) (b : Band) (xlow : Int), p.tables = defaultTables → 4 ≤ (quantl p b xlow).toNat

/-- R185, R186, R187: LOW_ADAPT takes the difference with the old Det, then writes Nb, then Det, then runs BLOCK4; with the
rules' values and ranges for the listed tables. -/
def Obligations.LowAdaptSequence : Prop :=
  (∀ (t : Tables) (b : Band) (ril : BitVec 4), TablesOk t →
    ∃ nb det : Reg15,
      (nb.toNat : Int) = clamp ((b.nb.toNat * 127 : Int) / 128 + t.wl[t.rl42[ril.toNat]'ril.isLt]) 0 18432 ∧
      (det.toNat : Int) = (let e := t.ilb[nb.toNat / 64 % 32]'(Nat.mod_lt _ (by decide))
        if nb.toNat / 2048 ≤ 8 then e / 2 ^ (8 - nb.toNat / 2048) else e * 2 ^ (nb.toNat / 2048 - 8)) * 4 ∧
      lowAdapt t b ril = block4 { b with nb := nb, det := det }
        ((b.det.toNat * t.qm4[ril.toNat]'ril.isLt : Int) / 32768)) ∧
  [0, 63, 64, 2047, 2048, 3042, 18431, 18432].map (fun n => scaleDet defaultTables 8 (BitVec.ofNat 15 n)) =
    [32, 32, 32, 60, 64, 88, 16032, 16384] ∧
  (∀ nb : Reg15, nb.toNat ≤ 18432 →
    32 ≤ scaleDet defaultTables 8 nb ∧ scaleDet defaultTables 8 nb ≤ 16384 ∧ scaleDet defaultTables 8 nb % 4 = 0 ∧
    (8 < nb.toNat / 2048 ↔ nb.toNat = 18432)) ∧
  (logscl defaultTables { Band.constructed 32 with nb := 18432 } 8).nb = 18432 ∧
  (∀ ril : BitVec 4, tableWl[tableRl42[ril.toNat]'ril.isLt] < 0 →
    (logscl defaultTables (Band.constructed 32) ril).nb = 0)

/-- The reconstructed low-band sample is S plus the dequantized difference at full resolution, limited, from S and Det
before adaptation, and the bank adapts as LOW_ADAPT does (R189, R191): qm6, qm5 or qm4 by BITS, the last as in the
adaptation (R190). -/
def Obligations.LowDecReconstructs : Prop :=
  (∀ (t : Tables) (b : Band) (field : BitVec 6) (ril : BitVec 4) (bits : CodeBits),
    let q : Int := match bits with
      | .eight => t.qm6[field.toNat]'(by have := field.isLt; omega)
      | .seven => t.qm5[field.toNat % 32]'(Nat.mod_lt _ (by decide))
      | .six => t.qm4[field.toNat % 16]'(Nat.mod_lt _ (by decide))
    lowDec t bits b field ril =
      (clamp (sat16 (b.s.toInt + (b.det.toNat * q) / 32768)) (-16384) 16383, lowAdapt t b ril)) ∧
  (∀ (t : Tables) (b : Band) (field : BitVec 4), invqbl t .six b (field.setWidth 6) = invqal t b field)

/-- R188, R217: the sub-band encoders return the quantizer's code and adapt the bank by it, the low band by its top four bits;
with the rules' worked examples from construction, under both readings of the magnitude. -/
def Obligations.SubBandEncodersAdapt : Prop :=
  let ones := { defaultParams with negMag := NegMag.ones }
  let low := fun (p : Params) (v : Int) => lowEnc p (Band.constructed 32) v
  let high := fun (p : Params) (v : Int) => highEnc p (Band.constructed 8) v
  (∀ (p : Params) (b : Band) (xlow : Int), (lowEnc p b xlow).1 = quantl p b xlow ∧
    (lowEnc p b xlow).2 = lowAdapt p.tables b ((quantl p b xlow).extractLsb' 2 4)) ∧
  (∀ (p : Params) (b : Band) (xhigh : Int), (highEnc p b xhigh).1 = quanth p b xhigh ∧
    (highEnc p b xhigh).2 = highAdapt p.tables b (quanth p b xhigh)) ∧
  ([0, 1000, -1000].map fun v => ((low defaultParams v).1, (low defaultParams v).2.nb, (low defaultParams v).2.det)) =
    [(58, 0, 32), (32, 3042, 88), (4, 3042, 88)] ∧
  ([14, 8, 1].map fun ril => invqal defaultTables (Band.constructed 32) ril) = [1, 19, -20] ∧
  (low defaultParams 0).2.d[1] = 1 ∧ (low defaultParams (-1)).1 = 27 ∧ (low ones (-1)).1 = 30 ∧
  ([0, 100, -100].map fun v => ((high defaultParams v).1, (high defaultParams v).2.nb, (high defaultParams v).2.det)) =
    [(3, 0, 8), (2, 798, 8), (0, 798, 8)] ∧
  ([0, 100, -100].map fun v => (high defaultParams v).2.d[1]) = [0, 1, -2] ∧
  (high defaultParams (-1)).1 = 0 ∧ (high ones (-1)).1 = 1

/-! ### High band -/

/-- R210, R211, R212: the high-band code is by sign and by one threshold, the threshold itself counting as the outer level,
from the two code tables, and with the listed tables is 3 or 2, 1 or 0; the threshold is 1 at Det = 8 and 2256 at
Det = 16384. -/
def Obligations.QuanthPicksLevel : Prop :=
  (∀ (p : Params) (b : Band) (xhigh : Int),
    let eh := sat16 (xhigh - b.s.toInt)
    let mih : Fin 3 := if mag p.negMag eh ≥ (564 * b.det.toNat : Int) / 4096 then 2 else 1
    quanth p b xhigh = if eh ≥ 0 then p.tables.ihp[mih] else p.tables.ihn[mih]) ∧
  (∀ (p : Params) (b : Band) (xhigh : Int), p.tables = defaultTables →
    let eh := sat16 (xhigh - b.s.toInt)
    let outer := mag p.negMag eh ≥ (564 * b.det.toNat : Int) / 4096
    quanth p b xhigh = if eh ≥ 0 then (if outer then 2 else 3) else (if outer then 0 else 1)) ∧
  (564 * 8 : Int) / 4096 = 1 ∧ (564 * 16384 : Int) / 4096 = 2256

/-- R213, R214, R215, R216: HIGH_ADAPT takes the difference with the old Det, then writes Nb, then Det, then runs BLOCK4;
with the rules' values for the listed tables. -/
def Obligations.HighAdaptSequence : Prop :=
  (∀ (t : Tables) (b : Band) (ihigh : BitVec 2), TablesOk t →
    ∃ nb det : Reg15,
      (nb.toNat : Int) = clamp ((b.nb.toNat * 127 : Int) / 128 + t.wh[t.rh2[ihigh.toNat]'ihigh.isLt]) 0 22528 ∧
      (det.toNat : Int) = (let e := t.ilb[nb.toNat / 64 % 32]'(Nat.mod_lt _ (by decide))
        if nb.toNat / 2048 ≤ 10 then e / 2 ^ (10 - nb.toNat / 2048) else e * 2 ^ (nb.toNat / 2048 - 10)) * 4 ∧
      highAdapt t b ihigh = block4 { b with nb := nb, det := det }
        ((b.det.toNat * t.qm2[ihigh.toNat]'ihigh.isLt : Int) / 32768)) ∧
  [0, 798, 2048, 20480, 22527, 22528].map (fun n => scaleDet defaultTables 10 (BitVec.ofNat 15 n)) =
    [8, 8, 16, 8192, 16032, 16384] ∧
  (∀ nb : Reg15, nb.toNat ≤ 22528 →
    8 ≤ scaleDet defaultTables 10 nb ∧ scaleDet defaultTables 10 nb ≤ 16384 ∧ scaleDet defaultTables 10 nb % 4 = 0 ∧
    (10 < nb.toNat / 2048 ↔ nb.toNat = 22528)) ∧
  [0, 1, 2, 3].map (fun h : BitVec 2 => invqah defaultTables (Band.constructed 8) h) = [-2, -1, 1, 0] ∧
  [0, 1, 2, 3].map (fun h : Fin 4 => tableWh[tableRh2[h]]) = [798, -214, 798, -214]

/-- HIGH_DEC reconstructs S plus the dequantized difference, limited, from S and Det before adaptation, and adapts the bank
as the encoder does (43_highband_adpcm.md section 3; the formula and the limit are supplied there from general knowledge);
from construction with code 0 the sample is -2, Nb 798 and Det 8. -/
def Obligations.HighDecReconstructs : Prop :=
  (∀ (t : Tables) (b : Band) (ihigh : BitVec 2), highDec t b ihigh =
    (clamp (sat16 (b.s.toInt + (b.det.toNat * t.qm2[ihigh.toNat]'ihigh.isLt) / 32768)) (-16384) 16383,
      highAdapt t b ihigh)) ∧
  (highDec defaultTables (Band.constructed 8) 0).1 = -2 ∧ (highDec defaultTables (Band.constructed 8) 0).2.nb = 798 ∧
  (highDec defaultTables (Band.constructed 8) 0).2.det = 8

/-- In 8 kHz mode Band[1] is never read or written: ENC_SAMPLE and DEC_BYTE leave it, the two commands give the same
result whatever it holds, the encoder's high field is EIGHTK_HIGH, and the decoder ignores the received high field. In
8 kHz mode and in ITU test mode the delay line stays (43_highband_adpcm.md section 3, 44_qmf_filters.md section 4). -/
def Obligations.BypassModesLeaveHighBandAndLine : Prop :=
  (∀ (smp : BitVec 16) (p : Params) (c : Context),
    (encSampleResult p c smp).2.x = c.x ∧
    (c.cfg.eightk = true → (encSampleResult p c smp).2.band1 = c.band1 ∧
      ∀ b1 : Band, (encSampleResult p { c with band1 := b1 } smp).1 = (encSampleResult p c smp).1 ∧
        (encSampleResult p { c with band1 := b1 } smp).2 = { (encSampleResult p c smp).2 with band1 := b1 })) ∧
  (∀ (b : BitVec 8) (p : Params) (c : Context),
    (c.cfg.eightk = true ∨ c.cfg.itu = true → (decByteResult p c b).2.x = c.x) ∧
    (c.cfg.eightk = true → (decByteResult p c b).2.band1 = c.band1 ∧
      ∀ b1 : Band, (decByteResult p { c with band1 := b1 } b).1 = (decByteResult p c b).1 ∧
        (decByteResult p { c with band1 := b1 } b).2 = { (decByteResult p c b).2 with band1 := b1 })) ∧
  (∀ (p : Params) (c : Context) (xlow xhigh : Int), c.cfg.eightk = true →
    codeHigh c.cfg.bits (encCode p c xlow xhigh).1 = p.eightkHigh) ∧
  (∀ (p : Params) (c : Context) (code code' : BitVec 8), c.cfg.eightk = true →
    codeField c.cfg.bits code = codeField c.cfg.bits code' → decCode p c code = decCode p c code')

/-! ### Filters -/

/-- The two tap vectors over X[0..23] as printed for both pairings, symmetric, of sum 8192 (44_qmf_filters.md section 1;
the itu pairing is supplied there from general knowledge). -/
def Obligations.TapVectorsAsPrinted : Prop :=
  let taps := fun q : QmfPairing =>
    tapIndices.flatMap fun i => [hE { defaultParams with qmfPairing := q } i, hO { defaultParams with qmfPairing := q } i]
  taps .doc = [-11, 3, 53, -11, -156, 12, 362, 32, -805, -210, 3876, 951,
    951, 3876, -210, -805, 32, 362, 12, -156, -11, 53, 3, -11] ∧
  taps .itu = [3, -11, -11, 53, 12, -156, 32, 362, -210, -805, 951, 3876,
    3876, 951, -805, -210, 362, 32, -156, 12, 53, -11, -11, 3] ∧
  ∀ q, (taps q).reverse = taps q ∧ (taps q).sum = 8192

/-- QMF_SHIFT moves the delay line by two toward index 0 and puts the earlier new entry at 22, the later at 23; QMF_SUMS are the
two sums of twelve exact products over the even and the odd entries, with the coefficients in the order the pairing gives,
below 2^28 in magnitude for the listed coefficients (44_qmf_filters.md section 1; the direction of the shift, the places of
the new entries and the itu pairing are supplied there from general knowledge). -/
def Obligations.DelayLineShiftsAndSums : Prop :=
  (∀ (x : Vector Reg16 24) (a b : Reg16),
    (∀ i : Fin 22, (qmfShift x a b)[i.val]'(by omega) = x[i.val + 2]'(by omega)) ∧
    (qmfShift x a b)[22] = a ∧ (qmfShift x a b)[23] = b) ∧
  (∀ (p : Params) (x : Vector Reg16 24),
    let q := fun i : Fin 12 => p.tables.qmf[i.val]'(by omega)
    let rising := fun i : Fin 12 => q i
    let falling := fun i : Fin 12 => q ⟨11 - i.val, by omega⟩
    sumE p x = (∑ i : Fin 12, (x[2 * i.val]'(by omega)).toInt *
      (match p.qmfPairing with | .doc => falling i | .itu => rising i)) ∧
    sumO p x = (∑ i : Fin 12, (x[2 * i.val + 1]'(by omega)).toInt *
      (match p.qmfPairing with | .doc => rising i | .itu => falling i))) ∧
  (∀ (p : Params) (x : Vector Reg16 24), p.tables = defaultTables → |sumE p x| < 2 ^ 28 ∧ |sumO p x| < 2 ^ 28)

/-- With the listed coefficients, under either pairing, the analysis filter's outputs lie within ±25928, so that no
saturation is needed (44_qmf_filters.md section 2). -/
def Obligations.AnalysisOutputsBounded : Prop :=
  ∀ (p : Params) (x : Vector Reg16 24) (s0 s1 : Reg16), p.tables = defaultTables →
    let r := qmfTx p x s0 s1
    r.2.1 ≥ -25928 ∧ r.2.1 ≤ 25928 ∧ -25928 ≤ r.2.2 ∧ r.2.2 ≤ 25928

/-- The pairings are each other's mirror: on a line and on samples with every pair swapped, the itu filter gives the doc
filter's low output and the negative of its high output up to the floor of the shift, and the lines stay swapped. (44_qmf_filters.md section 2
says the high output is negated, in a passage marked derived; the floor makes the negation exact only when the sum is a
multiple of 2^14, as its own vectors in 95_test_vectors.md V-QMF show.) -/
def Obligations.PairingsMirrorEachOther : Prop :=
  ∀ (p : Params) (x x' : Vector Reg16 24) (s0 s1 : Reg16), PairsSwapped x x' →
    let r := qmfTx { p with qmfPairing := .doc } x s0 s1
    let r' := qmfTx { p with qmfPairing := .itu } x' s1 s0
    PairsSwapped r.1 r'.1 ∧ r'.2.1 = r.2.1 ∧ -1 ≤ r.2.2 + r'.2.2 ∧ r.2.2 + r'.2.2 ≤ 0

/-- R237: the bypass emits the low sample doubled and, in ITU test mode, the high sample doubled after it; nothing is lost for
reconstructed samples, and the least significant bit of every emitted sample is 0; ITU test mode takes precedence and the
high sample is then 0 in 8 kHz mode; where the bypass runs, the delay line is neither read nor written. -/
def Obligations.RxBypassDoubles : Prop :=
  (∀ rlow rhigh : Int, -16384 ≤ rlow → rlow ≤ 16383 → -16384 ≤ rhigh → rhigh ≤ 16383 →
    (∃ u v : Reg16, rxBypass true rlow rhigh = [u, v] ∧ u.toInt = 2 * rlow ∧ v.toInt = 2 * rhigh ∧
      u.getLsbD 0 = false ∧ v.getLsbD 0 = false) ∧
    (∃ u : Reg16, rxBypass false rlow rhigh = [u] ∧ u.toInt = 2 * rlow ∧ u.getLsbD 0 = false)) ∧
  (∀ (p : Params) (c : Context) (code : BitVec 8), c.cfg.itu = true → c.cfg.eightk = true →
    (decCode p c code).1 = rxBypass true
      (lowDec p.tables c.cfg.bits c.band0 (codeField c.cfg.bits code) (codeRil c.cfg.bits code)).1 0) ∧
  (∀ (p : Params) (c : Context) (code : BitVec 8) (x : Vector Reg16 24), c.cfg.itu = true ∨ c.cfg.eightk = true →
    (decCode p c code).2.x = c.x ∧ (decCode p { c with x := x } code).1 = (decCode p c code).1 ∧
    (decCode p { c with x := x } code).2 = { (decCode p c code).2 with x := x })

/-- What QMF_RX pushes is the exact sum and difference of the reconstructed samples: both decoders keep their sample inside
[−16384, 16383], so the 16-bit entries lose nothing (40_saturation_arithmetic.md section 2, a passage marked derived). -/
def Obligations.SynthesisPushIsExact : Prop :=
  ∀ (t : Tables) (bits : CodeBits) (b0 b1 : Band) (field : BitVec 6) (ril : BitVec 4) (ihigh : BitVec 2),
    let rlow := (lowDec t bits b0 field ril).1
    let rhigh := (highDec t b1 ihigh).1
    rlow ≥ -16384 ∧ rlow ≤ 16383 ∧ rhigh ≥ -16384 ∧ rhigh ≤ 16383 ∧
    (toReg (rlow + rhigh)).toInt = rlow + rhigh ∧ (toReg (rlow - rhigh)).toInt = rlow - rhigh

/-! ### Codewords and the packer -/

/-- The assembled codeword is 64 times the high field plus the low code with its lowest 8 - BITS bits dropped, and splitting it
gives back the high field, the kept bits of the low code and its four top bits, at every
width, and the codeword is below 2^BITS; splitting any byte gives the low BITS - 2 bits, the two above them, and the four top
bits of the low field, so that nonzero bits from BITS up change nothing, neither the fields nor what the decoder does
(30_encoding.md sections 3 and 4; the layout and that those bits are ignored are supplied there from general knowledge). -/
def Obligations.SplitInvertsAssembly : Prop :=
  (∀ (bits : CodeBits) (code : BitVec 8),
    (codeField bits code).toNat = code.toNat % 2 ^ (bits.toNat - 2) ∧
    (codeHigh bits code).toNat = code.toNat / 2 ^ (bits.toNat - 2) % 4 ∧
    (codeRil bits code).toNat = code.toNat % 2 ^ (bits.toNat - 2) / 2 ^ (bits.toNat - 6)) ∧
  (∀ (p : Params) (c : Context) (code code' : BitVec 8),
    code.toNat % 2 ^ c.cfg.bits.toNat = code'.toNat % 2 ^ c.cfg.bits.toNat → decCode p c code = decCode p c code') ∧
  ∀ (bits : CodeBits) (ihigh : BitVec 2) (ilow : BitVec 6),
    let code := assembleCode bits ihigh ilow
    code.toNat = (64 * ihigh.toNat + ilow.toNat) / 2 ^ (8 - bits.toNat) ∧
    codeHigh bits code = ihigh ∧ (codeField bits code).toNat = ilow.toNat / 2 ^ (8 - bits.toNat) ∧
    codeRil bits code = rilOfIlow ilow ∧ code.toNat < 2 ^ bits.toNat

/-- The packed stream is the codewords end to end, least significant bit first: bytes and held bits, read as one number, are
the codewords read as one number (30_encoding.md section 4, marked derived; the entry side of the accumulator is supplied
from general knowledge), with the counts of 45_bitpacker.md section 4. -/
def Obligations.PackedStreamLayout : Prop :=
  ∀ (c : Context) (codes : List (BitVec 8)), c.cfg.bits ≠ .eight → c.accBuf = 0 → c.accBits = 0 →
    (∀ code ∈ codes, code.toNat < 2 ^ c.cfg.bits.toNat) →
    let r := packAll c codes
    digitsValue 256 r.1 + 256 ^ r.1.length * r.2.accBuf.toNat = digitsValue (2 ^ c.cfg.bits.toNat) codes ∧
    r.1.length = codes.length * c.cfg.bits.toNat / 8 ∧
    r.2.accBits.toNat = codes.length * c.cfg.bits.toNat % 8 ∧
    r.2.accBuf.toNat < 2 ^ r.2.accBits.toNat

/-- Unpacking a packed stream recovers the codewords: all of them when they fill whole bytes, all but the last otherwise
(45_bitpacker.md section 4, marked derived). -/
def Obligations.UnpackInvertsPack : Prop :=
  ∀ (c c' : Context) (codes : List (BitVec 8)), c.cfg.bits ≠ .eight → c'.cfg.bits = c.cfg.bits →
    c.accBuf = 0 → c.accBits = 0 → c'.accBuf = 0 → c'.accBits = 0 →
    (∀ code ∈ codes, code.toNat < 2 ^ c.cfg.bits.toNat) →
    (unpackAll c' (packAll c codes).1).1 =
      codes.take (if codes.length * c.cfg.bits.toNat % 8 = 0 then codes.length else codes.length - 1)

/-- UNPACK reads the held bits and the new byte as one number, oldest bits first; it extracts every whole codeword, one or two, and
holds fewer bits than one codeword after (45_bitpacker.md section 3, where the number of turns is marked derived). -/
def Obligations.UnpackDrains : Prop :=
  ∀ (c : Context) (b : Byte), c.accBits.toNat < c.cfg.bits.toNat → c.accBuf.toNat < 2 ^ c.accBits.toNat →
    c.cfg.bits ≠ .eight →
    let r := unpack c b
    digitsValue (2 ^ c.cfg.bits.toNat) r.1 + 2 ^ (c.cfg.bits.toNat * r.1.length) * r.2.accBuf.toNat =
      c.accBuf.toNat + 2 ^ c.accBits.toNat * b.toNat ∧
    c.cfg.bits.toNat * r.1.length + r.2.accBits.toNat = c.accBits.toNat + 8 ∧
    (r.1.length = 1 ∨ r.1.length = 2) ∧
    (r.1.length = 2 ↔ 2 * c.cfg.bits.toNat - 8 ≤ c.accBits.toNat) ∧
    (∀ code ∈ r.1, code.toNat < 2 ^ c.cfg.bits.toNat) ∧
    r.2.accBits.toNat < c.cfg.bits.toNat ∧ r.2.accBuf.toNat < 2 ^ r.2.accBits.toNat

/-- How many items a data command answers: an encoder command one byte when not packed, at most one when packed; DEC_BYTE the
samples of its mode for each whole codeword, at most four in all (20_memory.md section 6, 46_commands.md section 3). -/
def Obligations.ResponseLengths : Prop :=
  (∀ (s0 s1 : BitVec 16) (p : Params) (c : Context),
    (encPairResult p c s0 s1).1.length ≤ 1 ∧ (encSampleResult p c s0).1.length ≤ 1 ∧
    (c.cfg.packed = false → (encPairResult p c s0 s1).1.length = 1 ∧ (encSampleResult p c s0).1.length = 1)) ∧
  (∀ (b : BitVec 8) (p : Params) (c : Context), c.accBits.toNat < c.cfg.bits.toNat → c.cfg.bits ≠ .eight ∨ c.cfg.packed = false →
    (decByteResult p c b).1.length = decodeSampleCount c 1 ∧ (decByteResult p c b).1.length ≤ 4)

/-! ### Encoder and decoder together -/

/-- Tracking: when both contexts are constructed alike and their banks are equal, an unpacked codeword that the encoder
emits brings the decoder's banks to the encoder's, register for register, at every BITS and in every mode
(42_lowband_adpcm.md section 4, 43_highband_adpcm.md section 4, both marked derived). -/
def Obligations.DecoderTracksEncoder : Prop :=
  ∀ (s t : State) (i : Instr), (∃ s0 s1, i = .encPair s0 s1) ∨ (∃ smp, i = .encSample smp) →
    s.enc.status.constructed = true → s.dec.status.constructed = true →
    s.enc.cfg = s.dec.cfg → s.enc.cfg.packed = false → s.enc.band0 = s.dec.band0 → s.enc.band1 = s.dec.band1 →
    exec i s = .next t → ∀ b : BitVec 8, t.responses = s.responses ++ [⟨0, [.byte b]⟩] →
    ∃ u, exec (.decByte b) t = .next u ∧ u.dec.band0 = u.enc.band0 ∧ u.dec.band1 = u.enc.band1

/-! ### Pseudo-instructions -/

/-- R118, R310: `encode` refuses with INVALID_INPUT an odd byte count in every state and, on a constructed encoder, exactly the odd
byte counts and the odd sample counts of full-band mode; then it issues no command; `decode` never does. (On an
unconstructed encoder the mode is a free value, log entry 8.) -/
def Obligations.EncodeRefusesMalformedInput : Prop :=
  (∀ (pcm : List Byte) (capacity : Nat) (s : State), pcm.length % 2 = 1 →
    encodeWords pcm capacity s = .error .invalidInput) ∧
  (∀ (pcm : List Byte) (capacity : Nat) (s : State), s.enc.status.constructed = true →
    (encodeWords pcm capacity s = .error .invalidInput ↔
      pcm.length % 2 = 1 ∨ (s.enc.cfg.eightk = false ∧ s.enc.cfg.itu = false ∧ pcm.length / 2 % 2 = 1))) ∧
  (∀ (pcm : List Byte) (capacity : Nat) (s : State), encodeWords pcm capacity s = .error .invalidInput →
    runEncode pcm capacity s = .error .invalidInput) ∧
  (∀ (bytes : List Byte) (capacity : Nat) (s : State), decodeWords bytes capacity s ≠ .error .invalidInput)

/-- `encode` and `decode` answer OUT_CAPACITY exactly when the count of 30_encoding.md section 8 (marked derived there) exceeds the
capacity, before any command is issued, `encode` after its tests for malformed input; they answer no code but INVALID_INPUT
and OUT_CAPACITY; an accepted `decode` issues one `dec.byte` for each byte; an accepted `encode` on a constructed encoder issues
one `enc.pair` for each two samples in full-band mode and one `enc.sample` for each sample otherwise, in order, a sample being
its two bytes, low byte first (60_exceptions.md sections 1 and 2, 30_encoding.md section 8, 20_memory.md section 4). On an
unconstructed context they never answer OUT_CAPACITY, because the result is empty (log entry 8). -/
def Obligations.CallsCheckCapacity : Prop :=
  (∀ (pcm : List Byte) (capacity : Nat) (s : State), s.enc.status.constructed = true →
    let n := pcm.length / 2
    let codewords := if s.enc.cfg.eightk = false ∧ s.enc.cfg.itu = false then n / 2 else n
    let bytes := if s.enc.cfg.packed = true then (s.enc.accBits.toNat + codewords * s.enc.cfg.bits.toNat) / 8
      else codewords
    encodeWords pcm capacity s = .error .outCapacity ↔
      capacity < bytes ∧ encodeWords pcm capacity s ≠ .error .invalidInput) ∧
  (∀ (bytes : List Byte) (capacity : Nat) (s : State), s.dec.status.constructed = true →
    let codewords := if s.dec.cfg.packed = true then (s.dec.accBits.toNat + 8 * bytes.length) / s.dec.cfg.bits.toNat
      else bytes.length
    let samples := if s.dec.cfg.eightk = true ∧ s.dec.cfg.itu = false then codewords else 2 * codewords
    decodeWords bytes capacity s = .error .outCapacity ↔ capacity < 2 * samples) ∧
  (∀ (pcm : List Byte) (capacity : Nat) (s : State), s.enc.status.constructed = false →
    encodeWords pcm capacity s ≠ .error .outCapacity) ∧
  (∀ (bytes : List Byte) (capacity : Nat) (s : State), s.dec.status.constructed = false →
    decodeWords bytes capacity s ≠ .error .outCapacity) ∧
  (∀ (input : List Byte) (capacity : Nat) (s : State),
    (∀ e, encodeWords input capacity s = .error e →
      (e = .invalidInput ∨ e = .outCapacity) ∧ runEncode input capacity s = .error e) ∧
    (∀ e, decodeWords input capacity s = .error e → e = .outCapacity ∧ runDecode input capacity s = .error e) ∧
    (∀ ws, decodeWords input capacity s = .ok ws → ws = input.map fun b => 0x220000000000 + b.setWidth 48)) ∧
  (∀ (pcm : List Byte) (capacity : Nat) (s : State) (ws : List CmdWord), s.enc.status.constructed = true →
    encodeWords pcm capacity s = .ok ws →
    let x := fun k : Nat => BitVec.ofNat 16 ((pcm.getD (2 * k) 0).toNat + 256 * (pcm.getD (2 * k + 1) 0).toNat)
    ws = if s.enc.cfg.eightk = false ∧ s.enc.cfg.itu = false then
        (List.range (pcm.length / 4)).map fun j => encode (.encPair (x (2 * j)) (x (2 * j + 1)))
      else (List.range (pcm.length / 2)).map fun k => encode (.encSample (x k)))

/-- What an accepted `encode` returns and leaves: the code bytes of its commands' responses in order, one response for each
command, and their number and the bits held after are the counts the capacity check uses (30_encoding.md section 8, where the
counts are marked derived). On an unconstructed encoder, which that section leaves out, the model issues the commands all the
same, its own choice (log entry 8); the core refuses each of them (60_exceptions.md section 2), so the result is empty. -/
def Obligations.EncodeOutputLength : Prop :=
  ∀ (pcm : List Byte) (capacity : Nat) (s : State) (ws : List CmdWord), s.pending = [] → EncOk s.enc →
    encodeWords pcm capacity s = .ok ws →
    ∃ t out, runWords ws s = .next t ∧ runEncode pcm capacity s = .ok (out, t) ∧
      (∃ rs : List Response, t.responses = s.responses ++ rs ∧ rs.length = ws.length ∧
        out = rs.flatMap fun r => r.out.flatMap fun item =>
          match item with
          | .byte b => [b]
          | .sample _ => []
          | .word _ => []) ∧
      out.length = encodeResultBytes s.enc (pcm.length / 2) ∧
      (s.enc.status.constructed = true → s.enc.cfg.packed = true → t.enc.accBits.toNat =
        (s.enc.accBits.toNat + encodeCodewords s.enc.cfg (pcm.length / 2) * s.enc.cfg.bits.toNat) % 8) ∧
      (s.enc.status.constructed = false → t = refusedCalls .enc ws.length s)

/-- What an accepted `decode` returns and leaves: the samples of its commands' responses in order, each low byte first, one
response for each byte, and their number and the bits held after are the counts the capacity check uses (30_encoding.md
section 8, where the counts are marked derived; 20_memory.md section 4 for the byte order). On an unconstructed decoder the
core refuses each command (60_exceptions.md section 2), so the result is empty; that its predicted count is then 0 is the
model's own choice (log entry 8). -/
def Obligations.DecodeOutputLength : Prop :=
  ∀ (bytes : List Byte) (capacity : Nat) (s : State) (ws : List CmdWord), s.pending = [] → DecOk s.dec →
    decodeWords bytes capacity s = .ok ws →
    ∃ t out, runWords ws s = .next t ∧ runDecode bytes capacity s = .ok (out, t) ∧
      (∃ rs : List Response, t.responses = s.responses ++ rs ∧ rs.length = bytes.length ∧
        out = rs.flatMap fun r => r.out.flatMap fun item =>
          match item with
          | .byte _ => []
          | .sample v => [BitVec.ofNat 8 (v.toNat % 256), BitVec.ofNat 8 (v.toNat / 256)]
          | .word _ => []) ∧
      out.length = decodeResultBytes s.dec bytes.length ∧
      (s.dec.status.constructed = true → s.dec.cfg.packed = true → t.dec.accBits.toNat =
        (s.dec.accBits.toNat + 8 * bytes.length) % s.dec.cfg.bits.toNat) ∧
      (s.dec.status.constructed = false → t = refusedCalls .dec bytes.length s)

/-- The assembler's word for each of the eight line forms: the formula (op << 40) | (m << 32) | arg when the operands fit their
fields, refused otherwise (30_encoding.md section 8). -/
def Obligations.AssemblerRefusesMisfits : Prop :=
  let word := fun op m arg : Nat => (some (BitVec.ofNat 48 (op * 2 ^ 40 + m * 2 ^ 32 + arg)) : Option CmdWord)
  (∀ s0 s1 : Int, (AsmLine.encPair s0 s1).assemble =
    if (-32768 ≤ s0 ∧ s0 ≤ 32767) ∧ (-32768 ≤ s1 ∧ s1 ≤ 32767) then
      word 0x12 0 ((s1 % 65536).toNat * 65536 + (s0 % 65536).toNat) else none) ∧
  (∀ v : Int, (AsmLine.encSample v).assemble =
    if -32768 ≤ v ∧ v ≤ 32767 then word 0x13 0 (v % 65536).toNat else none) ∧
  (∀ b : Int, (AsmLine.decByte b).assemble = if 0 ≤ b ∧ b ≤ 255 then word 0x22 0 b.toNat else none) ∧
  (AsmLine.rdStatus .enc).assemble = word 0x30 0 0 ∧ (AsmLine.rdStatus .dec).assemble = word 0x30 1 0 ∧
  (∀ rate options : Int,
    let fits := (0 ≤ rate ∧ rate ≤ 2 ^ 32 - 1) ∧ (0 ≤ options ∧ options ≤ 0xFF)
    (AsmLine.encInit rate options).assemble = (if fits then word 0x10 options.toNat rate.toNat else none) ∧
    (AsmLine.encInitT rate options).assemble = (if fits then word 0x11 options.toNat rate.toNat else none) ∧
    (AsmLine.decInit rate options).assemble = (if fits then word 0x20 options.toNat rate.toNat else none) ∧
    (AsmLine.decInitT rate options).assemble = (if fits then word 0x21 options.toNat rate.toNat else none))

/-- Streaming equivalence: encoding a buffer in two calls, each accepted, gives the bytes and the state of one call over the
whole (45_bitpacker.md section 4, marked derived). -/
def Obligations.StreamingEquivalence : Prop :=
  ∀ (pcm pcm' : List Byte) (cap cap' capacity : Nat) (s t u : State) (out out' : List Byte), s.pending = [] →
    runEncode pcm cap s = .ok (out, t) → runEncode pcm' cap' t = .ok (out', u) →
    encodeResultBytes s.enc ((pcm ++ pcm').length / 2) ≤ capacity →
    runEncode (pcm ++ pcm') capacity s = .ok (out ++ out', u)

/-! ### Invariants -/

/-- The invariant of reachable states is kept by every step, from any state that meets it: bounds and shape of the Band
registers (10_state.md sections 2 and 6), the accumulators, the delay line, the codes of status registers and
responses. -/
def Obligations.StepKeepsInvariant : Prop :=
  ∀ s t : State, Inv s → step s = .next t → Inv t

/-- The invariant holds at power-on. (Of an unconstructed context it says nothing but its FAULT, so nothing here rests on
the power-on values of log entry 2; the table shapes are those of the listed tables.) -/
def Obligations.InvariantHoldsAtReset : Prop := Inv State.reset

/-- With the listed tables, the step size Det of every constructed bank is what SCALEL or SCALEH computes from its Nb, and
every step keeps that (10_state.md section 2, marked derived; tables supplied from general knowledge). -/
def Obligations.StepKeepsStepSizes : Prop :=
  ∀ s t : State, ScaleInv s → step s = .next t → ScaleInv t

/-- The premise of StepKeepsStepSizes holds at power-on: the tables are the listed ones, the model's default (log entry 4). No
context is constructed there, so it says nothing of a step size, and nothing of the power-on values of log entry 2. -/
def Obligations.StepSizesMatchAtReset : Prop := ScaleInv State.reset
end

