-- ==== Sys2Proof/Laws/Arith.lean ====
section
/-! SUPPORT. What the arithmetic primitives do, said once. -/

namespace Sys2Proof.Machine

theorem sat16_bounds (v : Int) : -32768 ≤ sat16 v ∧ sat16 v ≤ 32767 := by
  unfold sat16; split_ifs <;> omega

theorem sat16_of_fits {v : Int} (h : -32768 ≤ v ∧ v ≤ 32767) : sat16 v = v := by
  unfold sat16; split_ifs <;> omega

theorem clamp_bounds (v : Int) {lo hi : Int} (h : lo ≤ hi) : lo ≤ clamp v lo hi ∧ clamp v lo hi ≤ hi := by
  unfold clamp; split_ifs <;> omega

theorem clamp_of_fits {v lo hi : Int} (h : lo ≤ v ∧ v ≤ hi) : clamp v lo hi = v := by
  unfold clamp; split_ifs <;> omega

/-- The shifted value, multiplied back, is the last multiple of `2^n` not above `v`. -/
theorem asr_bounds (v : Int) (n : Nat) : asr v n * 2 ^ n ≤ v ∧ v < (asr v n + 1) * 2 ^ n := by
  have hp : (0 : Int) < 2 ^ n := by positivity
  unfold asr
  refine ⟨Int.ediv_mul_le _ (by omega), ?_⟩
  have := Int.lt_ediv_add_one_mul_self v hp
  linarith

theorem sgn_eq_zero_iff (v : Int) : sgn v = 0 ↔ 0 ≤ v := by
  unfold sgn; split_ifs <;> simp_all

theorem sgn_cases (v : Int) : sgn v = 0 ∨ sgn v = -1 := by
  unfold sgn; split_ifs <;> simp

theorem toReg_toInt {v : Int} (h : -32768 ≤ v ∧ v ≤ 32767) : (toReg v).toInt = v := by
  unfold toReg
  rw [BitVec.toInt_ofInt, Int.bmod_eq_of_le] <;> omega

@[simp] theorem toReg_sat16_toInt (v : Int) : (toReg (sat16 v)).toInt = sat16 v := toReg_toInt (sat16_bounds v)

theorem reg16_bounds (r : Reg16) : -32768 ≤ r.toInt ∧ r.toInt ≤ 32767 := by
  have h1 := BitVec.toInt_lt (x := r)
  have h2 := BitVec.le_toInt (x := r)
  norm_num at h1 h2
  omega

theorem toReg15_toNat {v : Int} (h : 0 ≤ v ∧ v < 32768) : ((toReg15 v).toNat : Int) = v := by
  unfold toReg15
  rw [BitVec.toNat_ofInt]
  norm_num
  omega

theorem toReg15_toNat_le {v : Int} {hi : Nat} (h : 0 ≤ v ∧ v ≤ hi) (hhi : hi < 32768) : (toReg15 v).toNat ≤ hi := by
  have := toReg15_toNat (v := v) ⟨h.1, by omega⟩
  omega

end Sys2Proof.Machine
end

