-- ==== Sys2Proof/Laws/Block4.lean ====
section
/-! SUPPORT. What each step of `BLOCK4` and each adaptation operation writes, said once. -/

namespace Sys2Proof.Machine

/-! ### The registers each step leaves alone -/

@[simp] theorem recons_s (x : Band) (e : Int) : (recons x e).s = x.s := rfl
@[simp] theorem recons_sp (x : Band) (e : Int) : (recons x e).sp = x.sp := rfl
@[simp] theorem recons_sz (x : Band) (e : Int) : (recons x e).sz = x.sz := rfl
@[simp] theorem recons_a (x : Band) (e : Int) : (recons x e).a = x.a := rfl
@[simp] theorem recons_ap (x : Band) (e : Int) : (recons x e).ap = x.ap := rfl
@[simp] theorem recons_b (x : Band) (e : Int) : (recons x e).b = x.b := rfl
@[simp] theorem recons_bp (x : Band) (e : Int) : (recons x e).bp = x.bp := rfl
@[simp] theorem recons_sg (x : Band) (e : Int) : (recons x e).sg = x.sg := rfl
@[simp] theorem recons_nb (x : Band) (e : Int) : (recons x e).nb = x.nb := rfl
@[simp] theorem recons_det (x : Band) (e : Int) : (recons x e).det = x.det := rfl

@[simp] theorem uppol2_s (x : Band) : (uppol2 x).s = x.s := rfl
@[simp] theorem uppol2_sp (x : Band) : (uppol2 x).sp = x.sp := rfl
@[simp] theorem uppol2_sz (x : Band) : (uppol2 x).sz = x.sz := rfl
@[simp] theorem uppol2_r (x : Band) : (uppol2 x).r = x.r := rfl
@[simp] theorem uppol2_a (x : Band) : (uppol2 x).a = x.a := rfl
@[simp] theorem uppol2_p (x : Band) : (uppol2 x).p = x.p := rfl
@[simp] theorem uppol2_d (x : Band) : (uppol2 x).d = x.d := rfl
@[simp] theorem uppol2_b (x : Band) : (uppol2 x).b = x.b := rfl
@[simp] theorem uppol2_bp (x : Band) : (uppol2 x).bp = x.bp := rfl
@[simp] theorem uppol2_nb (x : Band) : (uppol2 x).nb = x.nb := rfl
@[simp] theorem uppol2_det (x : Band) : (uppol2 x).det = x.det := rfl

@[simp] theorem uppol1_s (x : Band) : (uppol1 x).s = x.s := rfl
@[simp] theorem uppol1_sp (x : Band) : (uppol1 x).sp = x.sp := rfl
@[simp] theorem uppol1_sz (x : Band) : (uppol1 x).sz = x.sz := rfl
@[simp] theorem uppol1_r (x : Band) : (uppol1 x).r = x.r := rfl
@[simp] theorem uppol1_a (x : Band) : (uppol1 x).a = x.a := rfl
@[simp] theorem uppol1_p (x : Band) : (uppol1 x).p = x.p := rfl
@[simp] theorem uppol1_d (x : Band) : (uppol1 x).d = x.d := rfl
@[simp] theorem uppol1_b (x : Band) : (uppol1 x).b = x.b := rfl
@[simp] theorem uppol1_bp (x : Band) : (uppol1 x).bp = x.bp := rfl
@[simp] theorem uppol1_nb (x : Band) : (uppol1 x).nb = x.nb := rfl
@[simp] theorem uppol1_det (x : Band) : (uppol1 x).det = x.det := rfl

@[simp] theorem upzero_s (x : Band) (e : Int) : (upzero x e).s = x.s := rfl
@[simp] theorem upzero_sp (x : Band) (e : Int) : (upzero x e).sp = x.sp := rfl
@[simp] theorem upzero_sz (x : Band) (e : Int) : (upzero x e).sz = x.sz := rfl
@[simp] theorem upzero_r (x : Band) (e : Int) : (upzero x e).r = x.r := rfl
@[simp] theorem upzero_a (x : Band) (e : Int) : (upzero x e).a = x.a := rfl
@[simp] theorem upzero_ap (x : Band) (e : Int) : (upzero x e).ap = x.ap := rfl
@[simp] theorem upzero_p (x : Band) (e : Int) : (upzero x e).p = x.p := rfl
@[simp] theorem upzero_d (x : Band) (e : Int) : (upzero x e).d = x.d := rfl
@[simp] theorem upzero_b (x : Band) (e : Int) : (upzero x e).b = x.b := rfl
@[simp] theorem upzero_nb (x : Band) (e : Int) : (upzero x e).nb = x.nb := rfl
@[simp] theorem upzero_det (x : Band) (e : Int) : (upzero x e).det = x.det := rfl

@[simp] theorem delaya_s (x : Band) : (delaya x).s = x.s := rfl
@[simp] theorem delaya_sp (x : Band) : (delaya x).sp = x.sp := rfl
@[simp] theorem delaya_sz (x : Band) : (delaya x).sz = x.sz := rfl
@[simp] theorem delaya_ap (x : Band) : (delaya x).ap = x.ap := rfl
@[simp] theorem delaya_bp (x : Band) : (delaya x).bp = x.bp := rfl
@[simp] theorem delaya_sg (x : Band) : (delaya x).sg = x.sg := rfl
@[simp] theorem delaya_nb (x : Band) : (delaya x).nb = x.nb := rfl
@[simp] theorem delaya_det (x : Band) : (delaya x).det = x.det := rfl

@[simp] theorem filtep_s (x : Band) : (filtep x).s = x.s := rfl
@[simp] theorem filtep_sz (x : Band) : (filtep x).sz = x.sz := rfl
@[simp] theorem filtep_r (x : Band) : (filtep x).r = x.r := rfl
@[simp] theorem filtep_a (x : Band) : (filtep x).a = x.a := rfl
@[simp] theorem filtep_ap (x : Band) : (filtep x).ap = x.ap := rfl
@[simp] theorem filtep_p (x : Band) : (filtep x).p = x.p := rfl
@[simp] theorem filtep_d (x : Band) : (filtep x).d = x.d := rfl
@[simp] theorem filtep_b (x : Band) : (filtep x).b = x.b := rfl
@[simp] theorem filtep_bp (x : Band) : (filtep x).bp = x.bp := rfl
@[simp] theorem filtep_sg (x : Band) : (filtep x).sg = x.sg := rfl
@[simp] theorem filtep_nb (x : Band) : (filtep x).nb = x.nb := rfl
@[simp] theorem filtep_det (x : Band) : (filtep x).det = x.det := rfl

@[simp] theorem filtez_s (x : Band) : (filtez x).s = x.s := rfl
@[simp] theorem filtez_sp (x : Band) : (filtez x).sp = x.sp := rfl
@[simp] theorem filtez_r (x : Band) : (filtez x).r = x.r := rfl
@[simp] theorem filtez_a (x : Band) : (filtez x).a = x.a := rfl
@[simp] theorem filtez_ap (x : Band) : (filtez x).ap = x.ap := rfl
@[simp] theorem filtez_p (x : Band) : (filtez x).p = x.p := rfl
@[simp] theorem filtez_d (x : Band) : (filtez x).d = x.d := rfl
@[simp] theorem filtez_b (x : Band) : (filtez x).b = x.b := rfl
@[simp] theorem filtez_bp (x : Band) : (filtez x).bp = x.bp := rfl
@[simp] theorem filtez_sg (x : Band) : (filtez x).sg = x.sg := rfl
@[simp] theorem filtez_nb (x : Band) : (filtez x).nb = x.nb := rfl
@[simp] theorem filtez_det (x : Band) : (filtez x).det = x.det := rfl

@[simp] theorem predic_sp (x : Band) : (predic x).sp = x.sp := rfl
@[simp] theorem predic_sz (x : Band) : (predic x).sz = x.sz := rfl
@[simp] theorem predic_r (x : Band) : (predic x).r = x.r := rfl
@[simp] theorem predic_a (x : Band) : (predic x).a = x.a := rfl
@[simp] theorem predic_ap (x : Band) : (predic x).ap = x.ap := rfl
@[simp] theorem predic_p (x : Band) : (predic x).p = x.p := rfl
@[simp] theorem predic_d (x : Band) : (predic x).d = x.d := rfl
@[simp] theorem predic_b (x : Band) : (predic x).b = x.b := rfl
@[simp] theorem predic_bp (x : Band) : (predic x).bp = x.bp := rfl
@[simp] theorem predic_sg (x : Band) : (predic x).sg = x.sg := rfl
@[simp] theorem predic_nb (x : Band) : (predic x).nb = x.nb := rfl
@[simp] theorem predic_det (x : Band) : (predic x).det = x.det := rfl

/-! ### What the steps write -/

@[simp] theorem delaya_d (x : Band) : (delaya x).d = #v[x.d[0], x.d[0], x.d[1], x.d[2], x.d[3], x.d[4], x.d[5]] := rfl
@[simp] theorem delaya_b (x : Band) :
    (delaya x).b = #v[x.b[0], x.bp[1], x.bp[2], x.bp[3], x.bp[4], x.bp[5], x.bp[6]] := rfl
@[simp] theorem delaya_r (x : Band) : (delaya x).r = #v[x.r[0], x.r[0], x.r[1]] := rfl
@[simp] theorem delaya_p (x : Band) : (delaya x).p = #v[x.p[0], x.p[0], x.p[1]] := rfl
@[simp] theorem delaya_a (x : Band) : (delaya x).a = #v[x.a[0], x.ap[1], x.ap[2]] := rfl
@[simp] theorem recons_d (x : Band) (e : Int) : (recons x e).d = x.d.set 0 (toReg e) := rfl
@[simp] theorem recons_r (x : Band) (e : Int) : (recons x e).r = x.r.set 0 (toReg (sat16 (x.s.toInt + e))) := rfl
@[simp] theorem recons_p (x : Band) (e : Int) : (recons x e).p = x.p.set 0 (toReg (sat16 (x.sz.toInt + e))) := rfl

@[simp] theorem block4_nb (x : Band) (e : Int) : (block4 x e).nb = x.nb := by simp [block4]
@[simp] theorem block4_det (x : Band) (e : Int) : (block4 x e).det = x.det := by simp [block4]

/-- UPPOL2 writes `Ap[2]` and `Sg` only. -/
theorem uppol2_frame (b : Band) : ∃ sg v, uppol2 b = { b with sg := sg, ap := b.ap.set 2 v } :=
  ⟨_, _, rfl⟩

/-- UPPOL1 writes `Ap[1]` and `Sg` only. -/
theorem uppol1_frame (b : Band) : ∃ sg v, uppol1 b = { b with sg := sg, ap := b.ap.set 1 v } :=
  ⟨_, _, rfl⟩

/-- UPZERO writes `Sg` and `Bp` only. -/
theorem upzero_frame (b : Band) (d : Int) : ∃ sg bp, upzero b d = { b with sg := sg, bp := bp } ∧ bp[0] = b.bp[0] :=
  ⟨_, _, rfl, rfl⟩

theorem upzeroTap_toInt (d : Int) (di bi : Reg16) :
    (upzeroTap d di bi).toInt =
      sat16 ((if sgn di.toInt = sgn d then (if d = 0 then 0 else 128) else -(if d = 0 then 0 else 128))
        + asr (bi.toInt * 32640) 15) := by
  unfold upzeroTap; exact toReg_toInt (sat16_bounds _)

@[simp] theorem logscl_det (t : Tables) (b : Band) (ril : BitVec 4) : (logscl t b ril).det = b.det := rfl
@[simp] theorem scalel_nb (t : Tables) (b : Band) : (scalel t b).nb = b.nb := rfl
@[simp] theorem scalel_det (t : Tables) (b : Band) : (scalel t b).det = toReg15 (scaleDet t 8 b.nb) := rfl
@[simp] theorem logsch_det (t : Tables) (b : Band) (ihigh : BitVec 2) : (logsch t b ihigh).det = b.det := rfl
@[simp] theorem scaleh_nb (t : Tables) (b : Band) : (scaleh t b).nb = b.nb := rfl
@[simp] theorem scaleh_det (t : Tables) (b : Band) : (scaleh t b).det = toReg15 (scaleDet t 10 b.nb) := rfl

theorem logscl_nb_le (t : Tables) (b : Band) (ril : BitVec 4) : (logscl t b ril).nb.toNat ≤ 18432 :=
  toReg15_toNat_le (clamp_bounds _ (by norm_num)) (by norm_num)

theorem logsch_nb_le (t : Tables) (b : Band) (ihigh : BitVec 2) : (logsch t b ihigh).nb.toNat ≤ 22528 :=
  toReg15_toNat_le (clamp_bounds _ (by norm_num)) (by norm_num)

theorem limitRecon_bounds (v : Int) : -16384 ≤ limitRecon v ∧ limitRecon v ≤ 16383 :=
  clamp_bounds _ (by norm_num)

end Sys2Proof.Machine
end

