-- ==== Sys2Proof/Laws/State.lean ====
section
/-! SUPPORT. One lemma for each field under each update of the state, true by rfl. -/

namespace Sys2Proof.Machine

@[simp] theorem ctx_enc (s : State) : s.ctx .enc = s.enc := rfl
@[simp] theorem ctx_dec (s : State) : s.ctx .dec = s.dec := rfl

@[simp] theorem setCtx_enc_enc (s : State) (c : Context) : (s.setCtx .enc c).enc = c := rfl
@[simp] theorem setCtx_enc_dec (s : State) (c : Context) : (s.setCtx .enc c).dec = s.dec := rfl
@[simp] theorem setCtx_dec_enc (s : State) (c : Context) : (s.setCtx .dec c).enc = s.enc := rfl
@[simp] theorem setCtx_dec_dec (s : State) (c : Context) : (s.setCtx .dec c).dec = c := rfl

@[simp] theorem setCtx_params (s : State) (k : Ctx) (c : Context) : (s.setCtx k c).params = s.params := by
  cases k <;> rfl

@[simp] theorem setCtx_pending (s : State) (k : Ctx) (c : Context) : (s.setCtx k c).pending = s.pending := by
  cases k <;> rfl

@[simp] theorem setCtx_responses (s : State) (k : Ctx) (c : Context) : (s.setCtx k c).responses = s.responses := by
  cases k <;> rfl

@[simp] theorem ctx_setCtx_same (s : State) (k : Ctx) (c : Context) : (s.setCtx k c).ctx k = c := by
  cases k <;> rfl

@[simp] theorem respond_enc (r : Response) (s : State) : (respond r s).enc = s.enc := rfl
@[simp] theorem respond_dec (r : Response) (s : State) : (respond r s).dec = s.dec := rfl
@[simp] theorem respond_params (r : Response) (s : State) : (respond r s).params = s.params := rfl
@[simp] theorem respond_pending (r : Response) (s : State) : (respond r s).pending = s.pending := rfl
@[simp] theorem respond_responses (r : Response) (s : State) : (respond r s).responses = s.responses ++ [r] := rfl
@[simp] theorem respond_ctx (r : Response) (s : State) (k : Ctx) : (respond r s).ctx k = s.ctx k := by cases k <;> rfl

@[simp] theorem complete_enc (out : List OutItem) (s : State) : (complete out s).enc = s.enc := rfl
@[simp] theorem complete_dec (out : List OutItem) (s : State) : (complete out s).dec = s.dec := rfl
@[simp] theorem complete_params (out : List OutItem) (s : State) : (complete out s).params = s.params := rfl
@[simp] theorem complete_pending (out : List OutItem) (s : State) : (complete out s).pending = s.pending := rfl
@[simp] theorem complete_responses (out : List OutItem) (s : State) :
    (complete out s).responses = s.responses ++ [⟨0, out⟩] := rfl

@[simp] theorem deliver_enc (ws : List CmdWord) (s : State) : (deliver ws s).enc = s.enc := rfl
@[simp] theorem deliver_dec (ws : List CmdWord) (s : State) : (deliver ws s).dec = s.dec := rfl
@[simp] theorem deliver_params (ws : List CmdWord) (s : State) : (deliver ws s).params = s.params := rfl
@[simp] theorem deliver_pending (ws : List CmdWord) (s : State) : (deliver ws s).pending = s.pending ++ ws := rfl
@[simp] theorem deliver_responses (ws : List CmdWord) (s : State) : (deliver ws s).responses = s.responses := rfl

@[simp] theorem placeWord_enc (s : State) (n w : Nat) : (placeWord s n w).enc = s.enc := rfl
@[simp] theorem placeWord_dec (s : State) (n w : Nat) : (placeWord s n w).dec = s.dec := rfl
@[simp] theorem placeWord_params (s : State) (n w : Nat) : (placeWord s n w).params = s.params := rfl
@[simp] theorem placeWord_responses (s : State) (n w : Nat) : (placeWord s n w).responses = s.responses := rfl
@[simp] theorem placeWord_pending (s : State) (n w : Nat) :
    (placeWord s n w).pending = BitVec.ofNat 48 (w % 2 ^ n) :: s.pending := rfl

end Sys2Proof.Machine
end

