-- ==== Sys2Proof/Laws/Ops.lean ====
section
/-! SUPPORT. One lemma for each shared operation that says once what it can do; the provers cite these and do not unfold. -/

namespace Sys2Proof.Machine

/-! ### Faults -/

theorem stickyFault_constructed (st : Status) (code : BitVec 8) :
    (stickyFault st code).constructed = st.constructed := by
  unfold stickyFault; split <;> rfl

theorem stickyFault_fault (st : Status) (code : BitVec 8) :
    (stickyFault st code).fault = if st.fault = 0 then code else st.fault := by
  unfold stickyFault; split <;> rfl

/-- Raising a fault on `enc`: everything it does. -/
theorem raiseFault_enc (code : FaultCode) (s : State) :
    raiseFault .enc code s =
      { s with enc := { s.enc with status := stickyFault s.enc.status code.toByte },
               responses := s.responses ++ [⟨code.toByte, []⟩] } := rfl

/-- Raising a fault on `dec`: everything it does. -/
theorem raiseFault_dec (code : FaultCode) (s : State) :
    raiseFault .dec code s =
      { s with dec := { s.dec with status := stickyFault s.dec.status code.toByte },
               responses := s.responses ++ [⟨code.toByte, []⟩] } := rfl

/-- An illegal word: recorded in one context or in neither, answered with `ILLEGAL_CMD`. -/
theorem raiseIllegal_cases (w : CmdWord) (s : State) :
    (illegalCtx (CmdWord.op w) = some .enc ∧ raiseIllegal w s = raiseFault .enc .illegalCmd s) ∨
    (illegalCtx (CmdWord.op w) = some .dec ∧ raiseIllegal w s = raiseFault .dec .illegalCmd s) ∨
    (illegalCtx (CmdWord.op w) = none ∧ raiseIllegal w s = respond ⟨4, []⟩ s) := by
  unfold raiseIllegal
  rcases h : illegalCtx (CmdWord.op w) with _ | (_ | _) <;> simp [FaultCode.toByte]

/-! ### Construction -/

theorem bitsOfRate_cases (rate : BitVec 32) :
    (rate = 64000 ∧ bitsOfRate rate = some .eight) ∨ (rate = 56000 ∧ bitsOfRate rate = some .seven) ∨
    (rate = 48000 ∧ bitsOfRate rate = some .six) ∨
    (rate ≠ 64000 ∧ rate ≠ 56000 ∧ rate ≠ 48000 ∧ bitsOfRate rate = none) := by
  unfold bitsOfRate; split_ifs <;> simp_all

theorem construct_some {c : Ctx} {rate : BitVec 32} {bits : CodeBits} (options : BitVec 8) (itu : Bool) (s : State)
    (h : bitsOfRate rate = some bits) :
    construct c rate options itu s = complete [] (s.setCtx c (Context.constructed (cfgOf bits options itu))) := by
  simp [construct, h]

theorem construct_none {c : Ctx} {rate : BitVec 32} (options : BitVec 8) (itu : Bool) (s : State)
    (h : bitsOfRate rate = none) : construct c rate options itu s = raiseFault c .cfgRate s := by
  simp [construct, h]

/-! ### Codewords and the packer -/

theorem codeBits_cases (k : CodeBits) : k.toNat = 6 ∨ k.toNat = 7 ∨ k.toNat = 8 := by cases k <;> simp [CodeBits.toNat]

/-- `PACK` changes the accumulator only. -/
theorem pack_frame (c : Context) (code : BitVec 8) :
    ∃ buf n, (pack c code).2 = { c with accBuf := buf, accBits := n } := by
  unfold pack; dsimp only; split <;> exact ⟨_, _, rfl⟩

/-- `EMIT` changes the accumulator only. -/
theorem emit_frame (c : Context) (code : BitVec 8) :
    ∃ buf n, (emit c code).2 = { c with accBuf := buf, accBits := n } := by
  unfold emit; split
  · exact pack_frame c code
  · exact ⟨c.accBuf, c.accBits, rfl⟩

/-- `UNPACK` changes the accumulator only. -/
theorem unpack_frame (c : Context) (b : Byte) :
    ∃ buf n, (unpack c b).2 = { c with accBuf := buf, accBits := n } := ⟨_, _, rfl⟩

/-- One turn of the `UNPACK` loop. -/
theorem unpackLoop_take {bits fuel buf n : Nat} (h : bits ≤ n) :
    unpackLoop bits (fuel + 1) buf n =
      (BitVec.ofNat 8 (buf &&& ((1 <<< bits) - 1)) :: (unpackLoop bits fuel (buf >>> bits) (n - bits)).1,
        (unpackLoop bits fuel (buf >>> bits) (n - bits)).2) := by
  simp [unpackLoop, h]

/-- The end of the `UNPACK` loop. -/
theorem unpackLoop_stop {bits fuel buf n : Nat} (h : n < bits) : unpackLoop bits fuel buf n = ([], buf, n) := by
  cases fuel with
  | zero => rfl
  | succ k => simp [unpackLoop, Nat.not_le.mpr h]

/-- The fuel `unpack` gives is enough: the loop ends with fewer bits than a codeword, for every count a 4-bit register and
one byte can make (log entry 11). -/
theorem unpackLoop_drains (k : CodeBits) {n : Nat} (buf : Nat) (h : n ≤ 23) :
    (unpackLoop k.toNat 4 buf n).2.2 < k.toNat := by
  have hk := codeBits_cases k
  generalize k.toNat = bits at hk ⊢
  by_cases h1 : bits ≤ n
  · rw [unpackLoop_take h1]
    by_cases h2 : bits ≤ n - bits
    · rw [unpackLoop_take h2]
      by_cases h3 : bits ≤ n - bits - bits
      · rw [unpackLoop_take h3, unpackLoop_stop (by omega)]; dsimp only; omega
      · rw [unpackLoop_stop (by omega)]; dsimp only; omega
    · rw [unpackLoop_stop (by omega)]; dsimp only; omega
  · rw [unpackLoop_stop (by omega)]; dsimp only; omega

/-! ### The encoder and decoder stages -/

/-- `ENC_CODE` in 8 kHz mode. -/
theorem encCode_eightk {p : Params} {c : Context} (xlow xhigh : Int) (h : c.cfg.eightk = true) :
    encCode p c xlow xhigh =
      (assembleCode c.cfg.bits p.eightkHigh (lowEnc p c.band0 xlow).1, { c with band0 := (lowEnc p c.band0 xlow).2 }) := by
  simp [encCode, h]

/-- `ENC_CODE` with the high band running. -/
theorem encCode_both {p : Params} {c : Context} (xlow xhigh : Int) (h : c.cfg.eightk = false) :
    encCode p c xlow xhigh =
      (assembleCode c.cfg.bits (highEnc p c.band1 xhigh).1 (lowEnc p c.band0 xlow).1,
        { c with band0 := (lowEnc p c.band0 xlow).2, band1 := (highEnc p c.band1 xhigh).2 }) := by
  simp [encCode, h]

/-- `ENC_CODE` changes the two banks only. -/
theorem encCode_frame (p : Params) (c : Context) (xlow xhigh : Int) :
    ∃ b0 b1, (encCode p c xlow xhigh).2 = { c with band0 := b0, band1 := b1 } := by
  cases h : c.cfg.eightk
  · rw [encCode_both _ _ h]; exact ⟨_, _, rfl⟩
  · rw [encCode_eightk _ _ h]; exact ⟨_, c.band1, rfl⟩

/-- `DEC_CODE` changes the two banks and the delay line only. -/
theorem decCode_frame (p : Params) (c : Context) (code : BitVec 8) :
    ∃ b0 b1 x, (decCode p c code).2 = { c with band0 := b0, band1 := b1, x := x } := by
  unfold decCode; dsimp only; split_ifs
  all_goals first | exact ⟨_, _, c.x, rfl⟩ | exact ⟨_, _, _, rfl⟩

theorem decCodes_nil (p : Params) (c : Context) : decCodes p [] c = ([], c) := rfl

theorem decCodes_cons (p : Params) (code : BitVec 8) (rest : List (BitVec 8)) (c : Context) :
    decCodes p (code :: rest) c =
      ((decCode p c code).1 ++ (decCodes p rest (decCode p c code).2).1, (decCodes p rest (decCode p c code).2).2) := rfl

/-- A run of codewords changes the two banks and the delay line only. -/
theorem decCodes_frame (p : Params) (codes : List (BitVec 8)) (c : Context) :
    ∃ b0 b1 x, (decCodes p codes c).2 = { c with band0 := b0, band1 := b1, x := x } := by
  induction codes generalizing c with
  | nil => exact ⟨c.band0, c.band1, c.x, rfl⟩
  | cons code rest ih =>
    obtain ⟨b0, b1, x, h⟩ := decCode_frame p c code
    obtain ⟨b0', b1', x', h'⟩ := ih (decCode p c code).2
    exact ⟨b0', b1', x', by rw [decCodes_cons]; dsimp only; rw [h', h]⟩

/-- An encoder stage changes the banks and the accumulator only. -/
theorem encodeAndEmit_frame (p : Params) (c : Context) (xlow xhigh : Int) :
    ∃ b0 b1 buf n, (encodeAndEmit p c xlow xhigh).2 = { c with band0 := b0, band1 := b1, accBuf := buf, accBits := n } := by
  unfold encodeAndEmit; dsimp only
  obtain ⟨b0, b1, h⟩ := encCode_frame p c xlow xhigh
  obtain ⟨buf, n, h'⟩ := emit_frame (encCode p c xlow xhigh).2 (encCode p c xlow xhigh).1
  exact ⟨b0, b1, buf, n, by rw [h', h]⟩

/-- A full-band pair changes the banks, the delay line and the accumulator only. -/
theorem encPairResult_frame (p : Params) (c : Context) (s0 s1 : BitVec 16) :
    ∃ b0 b1 x buf n, (encPairResult p c s0 s1).2 =
      { c with band0 := b0, band1 := b1, x := x, accBuf := buf, accBits := n } := by
  unfold encPairResult; dsimp only
  obtain ⟨b0, b1, buf, n, h⟩ := encodeAndEmit_frame p { c with x := (qmfTx p c.x s0 s1).1 }
    (qmfTx p c.x s0 s1).2.1 (qmfTx p c.x s0 s1).2.2
  exact ⟨b0, b1, _, buf, n, h⟩

/-- A bypass sample changes the banks and the accumulator only. -/
theorem encSampleResult_frame (p : Params) (c : Context) (smp : BitVec 16) :
    ∃ b0 b1 buf n, (encSampleResult p c smp).2 =
      { c with band0 := b0, band1 := b1, accBuf := buf, accBits := n } :=
  encodeAndEmit_frame p c _ _

/-- A stream byte changes the banks, the delay line and the accumulator only. -/
theorem decByteResult_frame (p : Params) (c : Context) (b : Byte) :
    ∃ b0 b1 x buf n, (decByteResult p c b).2 =
      { c with band0 := b0, band1 := b1, x := x, accBuf := buf, accBits := n } := by
  unfold decByteResult; dsimp only
  obtain ⟨b0, b1, x, h⟩ := decCodes_frame p (codesOfByte c b).1 (codesOfByte c b).2
  have hc : ∃ buf n, (codesOfByte c b).2 = { c with accBuf := buf, accBits := n } := by
    unfold codesOfByte; split
    · exact unpack_frame c b
    · exact ⟨c.accBuf, c.accBits, rfl⟩
  obtain ⟨buf, n, h'⟩ := hc
  exact ⟨b0, b1, x, buf, n, by rw [h, h']⟩

/-! ### One step -/

/-- Everything a step can do: hold an idle state, run a decoded command, or refuse an illegal word. -/
theorem step_cases (s : State) :
    (s.pending = [] ∧ step s = .next s) ∨
    (∃ w rest i, s.pending = w :: rest ∧ decode w = .ok i ∧ step s = exec i { s with pending := rest }) ∨
    (∃ w rest e, s.pending = w :: rest ∧ decode w = .error e ∧
      step s = .next (raiseIllegal w { s with pending := rest })) := by
  rcases hp : s.pending with _ | ⟨w, rest⟩
  · exact .inl ⟨rfl, by simp [step, takeCommand, hp]⟩
  · rcases hd : decode w with e | i
    · exact .inr (.inr ⟨w, rest, e, rfl, hd, by simp [step, takeCommand, hp, hd]⟩)
    · exact .inr (.inl ⟨w, rest, i, rfl, hd, by simp [step, takeCommand, hp, hd]⟩)

/-! ### The meanings: one inversion lemma each -/

theorem execEncInit_eq (rate : BitVec 32) (options : BitVec 8) (s : State) :
    exec (.encInit rate options) s = .next (construct .enc rate options false s) := rfl

theorem execEncInitT_eq (rate : BitVec 32) (options : BitVec 8) (s : State) :
    exec (.encInitT rate options) s = .next (construct .enc rate options true s) := rfl

theorem execDecInit_eq (rate : BitVec 32) (options : BitVec 8) (s : State) :
    exec (.decInit rate options) s = .next (construct .dec rate options false s) := rfl

theorem execDecInitT_eq (rate : BitVec 32) (options : BitVec 8) (s : State) :
    exec (.decInitT rate options) s = .next (construct .dec rate options true s) := rfl

theorem execEncPair_cases (s0 s1 : BitVec 16) (s : State) :
    (s.enc.status.constructed = false ∧ exec (.encPair s0 s1) s = .next (raiseFault .enc .notConstructed s)) ∨
    (s.enc.status.constructed = true ∧ (s.enc.cfg.eightk = true ∨ s.enc.cfg.itu = true) ∧
      exec (.encPair s0 s1) s = .next (raiseFault .enc .wrongMode s)) ∨
    (s.enc.status.constructed = true ∧ s.enc.cfg.eightk = false ∧ s.enc.cfg.itu = false ∧
      exec (.encPair s0 s1) s = .next (complete ((encPairResult s.params s.enc s0 s1).1.map .byte)
        { s with enc := (encPairResult s.params s.enc s0 s1).2 })) := by
  simp only [exec, execEncPair]
  cases s.enc.status.constructed <;> cases s.enc.cfg.eightk <;> cases s.enc.cfg.itu <;> simp

theorem execEncSample_cases (smp : BitVec 16) (s : State) :
    (s.enc.status.constructed = false ∧ exec (.encSample smp) s = .next (raiseFault .enc .notConstructed s)) ∨
    (s.enc.status.constructed = true ∧ s.enc.cfg.eightk = false ∧ s.enc.cfg.itu = false ∧
      exec (.encSample smp) s = .next (raiseFault .enc .wrongMode s)) ∨
    (s.enc.status.constructed = true ∧ (s.enc.cfg.eightk = true ∨ s.enc.cfg.itu = true) ∧
      exec (.encSample smp) s = .next (complete ((encSampleResult s.params s.enc smp).1.map .byte)
        { s with enc := (encSampleResult s.params s.enc smp).2 })) := by
  simp only [exec, execEncSample]
  cases s.enc.status.constructed <;> cases s.enc.cfg.eightk <;> cases s.enc.cfg.itu <;> simp

theorem execDecByte_cases (b : BitVec 8) (s : State) :
    (s.dec.status.constructed = false ∧ exec (.decByte b) s = .next (raiseFault .dec .notConstructed s)) ∨
    (s.dec.status.constructed = true ∧
      exec (.decByte b) s = .next (complete ((decByteResult s.params s.dec b).1.map .sample)
        { s with dec := (decByteResult s.params s.dec b).2 })) := by
  simp only [exec, execDecByte]
  cases s.dec.status.constructed <;> simp

theorem execRdStatus_eq (ctx : Ctx) (s : State) :
    exec (.rdStatus ctx) s = .next (complete [.word (statusWord (s.ctx ctx))] s) := rfl

end Sys2Proof.Machine
end

