-- ==== Sys2Proof/Laws/PerInstr.lean ====
section
/-! SUPPORT. The per-command family `OpcodeRow`: the word of a well-formed command lies in the row of the opcode map that
has its mnemonic (spec 30_encoding.md R95). One lemma per constructor. -/

namespace Sys2Proof.Laws.OpcodeRow

/-- Some row of R95's map has the command's mnemonic and accepts its word. -/
def Statement (i : Instr) : Prop :=
  i.wellFormed = true → ∃ r ∈ opcodeMap, r.mnemonic = i.mnemonic ∧ r.accepts (encode i) = true

/-- A word is in a row when its bits under the row's mask are the row's pattern. -/
theorem accepts_of_bits {r : OpcodeRow} {w : CmdWord}
    (h : ∀ k, k < 48 → (w.getLsbD k && r.mask.getLsbD k) = r.pattern.getLsbD k) : r.accepts w = true := by
  unfold OpcodeRow.accepts
  rw [beq_iff_eq]
  apply BitVec.eq_of_getLsbD_eq
  intro k hk
  rw [BitVec.getLsbD_and]
  exact h k hk

theorem options_bits {options : BitVec 8} (h : optionsOk options = true) (k : Nat) (hk : 2 ≤ k) (hk8 : k < 8) :
    options.getLsbD k = false := by
  unfold optionsOk at h
  rw [beq_iff_eq] at h
  have := congrArg (fun v : BitVec 6 => v.getLsbD (k - 2)) h
  simpa [BitVec.getLsbD_extractLsb', show k - 2 < 6 by omega, show 2 + (k - 2) = k by omega] using this

theorem formatI (op : BitVec 8) (rate : BitVec 32) (options : BitVec 8) (h : optionsOk options = true) (name : String) :
    (⟨name, CmdWord.ofFields op 0 0, 0xFFFC00000000⟩ : OpcodeRow).accepts (CmdWord.ofFields op options rate) = true := by
  have ho : ∀ k, 2 ≤ k → (hk : k < 8) → options[k] = false := fun k h2 hk => by
    rw [← BitVec.getLsbD_eq_getElem]; exact options_bits h k h2 hk
  apply accepts_of_bits
  intro k hk
  simp only [CmdWord.ofFields, BitVec.getLsbD_append]
  interval_cases k <;> simp [ho]

theorem encInit (rate : BitVec 32) (options : BitVec 8) : Statement (.encInit rate options) := fun h =>
  ⟨⟨"ENC_INIT", 0x100000000000, 0xFFFC00000000⟩, by simp [opcodeMap], rfl, formatI opEncInit rate options h _⟩

theorem encInitT (rate : BitVec 32) (options : BitVec 8) : Statement (.encInitT rate options) := fun h =>
  ⟨⟨"ENC_INIT_T", 0x110000000000, 0xFFFC00000000⟩, by simp [opcodeMap], rfl, formatI opEncInitT rate options h _⟩

theorem decInit (rate : BitVec 32) (options : BitVec 8) : Statement (.decInit rate options) := fun h =>
  ⟨⟨"DEC_INIT", 0x200000000000, 0xFFFC00000000⟩, by simp [opcodeMap], rfl, formatI opDecInit rate options h _⟩

theorem decInitT (rate : BitVec 32) (options : BitVec 8) : Statement (.decInitT rate options) := fun h =>
  ⟨⟨"DEC_INIT_T", 0x210000000000, 0xFFFC00000000⟩, by simp [opcodeMap], rfl, formatI opDecInitT rate options h _⟩

theorem encPair (s0 s1 : BitVec 16) : Statement (.encPair s0 s1) := fun _ => by
  refine ⟨⟨"ENC_PAIR", 0x120000000000, 0xFFFF00000000⟩, by simp [opcodeMap], rfl, accepts_of_bits fun k hk => ?_⟩
  simp only [encode, CmdWord.ofFields, opEncPair, BitVec.getLsbD_append]
  interval_cases k <;> simp

theorem encSample (smp : BitVec 16) : Statement (.encSample smp) := fun _ => by
  refine ⟨⟨"ENC_SAMPLE", 0x130000000000, 0xFFFFFFFF0000⟩, by simp [opcodeMap], rfl, accepts_of_bits fun k hk => ?_⟩
  simp only [encode, CmdWord.ofFields, opEncSample, BitVec.getLsbD_append]
  interval_cases k <;> simp

theorem decByte (b : BitVec 8) : Statement (.decByte b) := fun _ => by
  refine ⟨⟨"DEC_BYTE", 0x220000000000, 0xFFFFFFFFFF00⟩, by simp [opcodeMap], rfl, accepts_of_bits fun k hk => ?_⟩
  simp only [encode, CmdWord.ofFields, opDecByte, BitVec.getLsbD_append]
  interval_cases k <;> simp

theorem rdStatus (ctx : Ctx) : Statement (.rdStatus ctx) := fun _ =>
  ⟨⟨"RD_STATUS", 0x300000000000, 0xFFFEFFFFFFFF⟩, by simp [opcodeMap], rfl, by cases ctx <;> decide⟩

end Sys2Proof.Laws.OpcodeRow
end

