-- ==== Sys2Proof/Laws/Pseudo.lean ====
section
/-! SUPPORT. What the software layer over the command port can do (spec 30_encoding.md R116 to R119, 60_exceptions.md
R310, R311): one lemma that lists every outcome of each call, and the small lemmas of its definitions. -/

namespace Sys2Proof.Machine

@[simp] theorem oddTailRefused_eq (p : Params) (fullBand : Bool) (n : Nat) :
    oddTailRefused p fullBand n = (fullBand && n % 2 == 1) := rfl

theorem encodesFullBand_constructed {c : Context} (h : c.status.constructed = true) :
    encodesFullBand c = c.cfg.fullBand := by simp [encodesFullBand, h]

theorem encodeResultBytes_constructed {c : Context} (h : c.status.constructed = true) (n : Nat) :
    encodeResultBytes c n = encodeByteCount c n := by simp [encodeResultBytes, h]

theorem encodeResultBytes_unconstructed {c : Context} (h : c.status.constructed = false) (n : Nat) :
    encodeResultBytes c n = 0 := by simp [encodeResultBytes, h]

theorem decodeResultBytes_constructed {c : Context} (h : c.status.constructed = true) (m : Nat) :
    decodeResultBytes c m = 2 * decodeSampleCount c m := by simp [decodeResultBytes, h]

theorem decodeResultBytes_unconstructed {c : Context} (h : c.status.constructed = false) (m : Nat) :
    decodeResultBytes c m = 0 := by simp [decodeResultBytes, h]

/-- Every outcome of `encode`, in the order of its tests. -/
theorem encodeWords_cases (pcm : List Byte) (capacity : Nat) (s : State) :
    (pcm.length % 2 = 1 ∧ encodeWords pcm capacity s = .error .invalidInput) ∨
    (pcm.length % 2 = 0 ∧ encodesFullBand s.enc = true ∧ pcm.length / 2 % 2 = 1 ∧
      encodeWords pcm capacity s = .error .invalidInput) ∨
    (pcm.length % 2 = 0 ∧ (encodesFullBand s.enc = true → pcm.length / 2 % 2 = 0) ∧
      capacity < encodeResultBytes s.enc (pcm.length / 2) ∧ encodeWords pcm capacity s = .error .outCapacity) ∨
    (pcm.length % 2 = 0 ∧ (encodesFullBand s.enc = true → pcm.length / 2 % 2 = 0) ∧
      encodeResultBytes s.enc (pcm.length / 2) ≤ capacity ∧
      encodeWords pcm capacity s = .ok ((encodeCommands (encodesFullBand s.enc) (pcmSamples pcm)).map encode)) := by
  simp only [encodeWords, oddTailRefused_eq, Bool.and_eq_true, beq_iff_eq]
  by_cases h1 : pcm.length % 2 = 1
  · simp [h1]
  by_cases h2 : encodesFullBand s.enc = true ∧ pcm.length / 2 % 2 = 1
  · exact .inr (.inl ⟨by omega, h2.1, h2.2, by simp [h1, h2]⟩)
  have even : encodesFullBand s.enc = true → pcm.length / 2 % 2 = 0 := fun h => by
    have := mt (And.intro h) h2
    omega
  by_cases h3 : encodeResultBytes s.enc (pcm.length / 2) > capacity
  · exact .inr (.inr (.inl ⟨by omega, even, h3, by rw [if_neg h1, if_neg h2, if_pos h3]⟩))
  · exact .inr (.inr (.inr ⟨by omega, even, by omega, by rw [if_neg h1, if_neg h2, if_neg h3]⟩))

/-- Every outcome of `decode`. -/
theorem decodeWords_cases (bytes : List Byte) (capacity : Nat) (s : State) :
    (capacity < decodeResultBytes s.dec bytes.length ∧ decodeWords bytes capacity s = .error .outCapacity) ∨
    (decodeResultBytes s.dec bytes.length ≤ capacity ∧
      decodeWords bytes capacity s = .ok (bytes.map fun b => encode (.decByte b))) := by
  simp only [decodeWords]
  split_ifs with h
  · exact .inl ⟨h, rfl⟩
  · exact .inr ⟨by omega, rfl⟩

@[simp] theorem pcmSamples_pair (lo hi : Byte) (rest : List Byte) :
    pcmSamples (lo :: hi :: rest) = (hi ++ lo) :: pcmSamples rest := rfl

@[simp] theorem pairCommands_pair (s0 s1 : Reg16) (rest : List Reg16) :
    pairCommands (s0 :: s1 :: rest) = .encPair s0 s1 :: pairCommands rest := rfl

@[simp] theorem pcmBytes_cons (v : Reg16) (rest : List Reg16) :
    pcmBytes (v :: rest) = v.extractLsb' 0 8 :: v.extractLsb' 8 8 :: pcmBytes rest := rfl

theorem pcmBytes_append (vs ws : List Reg16) : pcmBytes (vs ++ ws) = pcmBytes vs ++ pcmBytes ws := by
  induction vs with
  | nil => rfl
  | cons v rest ih => simp [ih]

theorem codeBytes_append (rs qs : List Response) : codeBytes (rs ++ qs) = codeBytes rs ++ codeBytes qs := by
  simp [codeBytes]

theorem pcmOut_append (rs qs : List Response) : pcmOut (rs ++ qs) = pcmOut rs ++ pcmOut qs := by
  simp [pcmOut]

@[simp] theorem execList_nil (s : State) : execList [] s = .next s := rfl

/-- Commands that all complete: the first, then the rest on the state it leaves. -/
theorem execList_cons_next {i : Instr} {rest : List Instr} {s u : State} (h : execList (i :: rest) s = .next u) :
    ∃ t, exec i s = .next t ∧ execList rest t = .next u := by
  simp only [execList] at h
  split at h
  · exact ⟨_, ‹_›, h⟩
  · cases h
  · cases h

end Sys2Proof.Machine
end

