-- ==== Sys2Proof/Tests/Slice0.lean ====
section
/-! SUPPORT. Tests. Expected results are the spec's: the file and vector is named at each. Then one witness for each
statement with hypotheses (a concrete state and operands that meet them all). -/

namespace Sys2Proof.Tests

open Sys2Proof.Machine

/-! ### WellFormed: each check refuses an ill-formed term (30_encoding.md R91, R111) -/

theorem test_reservedOption_encInit : (Instr.encInit 64000 0x04).wellFormed = false := by decide
theorem test_reservedOption_encInitT : (Instr.encInitT 64000 0x80).wellFormed = false := by decide
theorem test_reservedOption_decInit : (Instr.decInit 64000 0x10).wellFormed = false := by decide
theorem test_reservedOption_decInitT : (Instr.decInitT 64000 0xFF).wellFormed = false := by decide

/-! ### Decoding: words written out in 95_test_vectors.md V-CMD and 46_commands.md -/

theorem test_decode_encInit : decode 0x10020000FA00 = .ok (.encInit 64000 0x02) := by rfl
theorem test_decode_encInitT : decode 0x11000000DAC0 = .ok (.encInitT 56000 0) := by rfl
theorem test_decode_encPair : decode 0x12000002FFFF = .ok (.encPair (-1) 2) := by rfl
theorem test_decode_encSample : decode 0x1300000007D0 = .ok (.encSample 2000) := by rfl
theorem test_decode_decInit : decode 0x20020000DAC0 = .ok (.decInit 56000 0x02) := by rfl
theorem test_decode_decInitT : decode 0x21000000FA00 = .ok (.decInitT 64000 0) := by rfl
theorem test_decode_decByte : decode 0x2200000000FA = .ok (.decByte 0xFA) := by rfl
theorem test_decode_rdStatus : decode 0x300100000000 = .ok (.rdStatus .dec) := by rfl
theorem test_decode_illegal_modifier : decode 0x300200000000 = .error .reservedModifier := by rfl
theorem test_decode_illegal_opcode : decode 0x230000000000 = .error .unassignedOpcode := by rfl

/-- `(0x10 << 40) | (0x03 << 32) | 48000` is 0x10030000BB80 (46_commands.md R271). -/
theorem test_encode_encInit : encode (.encInit 48000 0x03) = 0x10030000BB80 := by decide
theorem test_encode_encPair : encode (.encPair 1000 (-1000)) = 0x1200FC1803E8 := by decide

theorem test_tableWord : decodeTableWord 48 0x300000000000 = some (.rdStatus .enc) := by decide

/-- The text of V-CMD row `enc.pair -1, 2`. -/
theorem test_asm_encPair : (parseLine "enc.pair -1, 2".toList).bind AsmLine.assemble = some 0x12000002FFFF := by decide

/-! ### Arithmetic, tables, micro-operations -/

/-- 40_saturation_arithmetic.md R132 examples and 95_test_vectors.md V-SHIFT. -/
theorem test_shift_floors : asr (-1 * 32512) 15 = -1 ∧ asr (-11) 11 = -1 ∧ asr (-128 * 255) 8 = -128 := by decide

/-- 20_memory.md: the sums printed with the tables. -/
theorem test_table_sums :
    tableQmf.toList.sum = 4096 ∧ tableQ6.toList.sum = 26907 ∧ tableQm4.toList.sum = 0 ∧ tableQm5.toList.sum = -560 ∧
    tableQm6.toList.sum = -544 ∧ tableWl.toList.sum = 5252 ∧ tableIlb.toList.sum = 93528 ∧ tableWh.toList.sum = 584 := by
  decide

/-- 41_block4_predictor.md R162: BLOCK4(b, 1) then BLOCK4(b, −3) from construction. -/
theorem test_block4_worked :
    let b := block4 (block4 (Band.constructed 32) 1) (-3)
    b.a = #v[0, -1, 5] ∧ b.d = #v[-3, -3, 1, 0, 0, 0, 0] ∧ b.sz = -1 ∧ b.s = -1 := by decide

/-- 42_lowband_adpcm.md R188: xlow = −1 from construction, both readings of the magnitude. -/
theorem test_quantl_negMag :
    quantl defaultParams (Band.constructed 32) (-1) = 27 ∧
    quantl { defaultParams with negMag := .ones } (Band.constructed 32) (-1) = 30 := by decide

/-- 95_test_vectors.md V-LDEC: BITS = 7, field 2. -/
theorem test_lowDec_seven : (lowDec defaultTables .seven (Band.constructed 32) 2 1).1 = -23 := by decide

/-- 95_test_vectors.md V-QH, `ihigh` = 0. -/
theorem test_highDec : (highDec defaultTables (Band.constructed 8) 0).1 = -2 ∧
    (highDec defaultTables (Band.constructed 8) 0).2.nb = 798 := by decide

/-- 95_test_vectors.md V-CW: code FA at 8 and 3E at 6. -/
theorem test_split : codeHigh .eight 0xFA = 3 ∧ codeField .eight 0xFA = 58 ∧ codeRil .eight 0xFA = 14 ∧
    codeHigh .six 0x3E = 3 ∧ codeField .six 0x3E = 14 := by decide

/-- 45_bitpacker.md R251 and R256 examples at BITS = 6. -/
theorem test_pack : (packAll (Context.constructed ⟨.six, true, false, false⟩) [1, 2, 3, 4]).1 = [0x81, 0x30, 0x10] := by
  decide
theorem test_unpack :
    (unpackAll (Context.constructed ⟨.six, true, false, false⟩) [0x81, 0x30, 0x10]).1 = [1, 2, 3, 4] := by decide

/-! ### One step of each command -/

/-- Both contexts constructed alike. -/
def built (bits : CodeBits) (packed eightk itu : Bool) : State :=
  { State.reset with
    enc := Context.constructed ⟨bits, packed, eightk, itu⟩
    dec := Context.constructed ⟨bits, packed, eightk, itu⟩ }

/-- The responses after one step on a word. -/
def answers (s : State) (w : Nat) : List Response :=
  match step (s.withFetchWord 48 w) with
  | .next t => t.responses
  | .fault _ => []
  | .refused _ => []

/-- The state after one step on a word; `s` if it stops. -/
def after (s : State) (w : Nat) : State :=
  match step (s.withFetchWord 48 w) with
  | .next t => t
  | .fault _ => s
  | .refused _ => s

/-- 46_commands.md R271: PACKED is ignored at 8 bits. -/
theorem test_encInit_packed_ignored :
    (after State.reset 0x10020000FA00).enc.cfg = ⟨.eight, false, false, false⟩ := by decide
/-- 95_test_vectors.md P5 row 3: CFG_RATE. -/
theorem test_encInit_badRate : answers State.reset 0x10000000AC44 = [⟨1, []⟩] := by decide
/-- 46_commands.md R272. -/
theorem test_encInitT : (after State.reset 0x11000000DAC0).enc.cfg = ⟨.seven, false, false, true⟩ := by decide
/-- 46_commands.md R273. -/
theorem test_decInit : (after State.reset 0x20020000DAC0).dec.cfg = ⟨.seven, true, false, false⟩ := by decide
/-- 46_commands.md R274. -/
theorem test_decInitT : (after State.reset 0x21000000FA00).dec.cfg = ⟨.eight, false, false, true⟩ := by decide
/-- 46_commands.md R275. -/
theorem test_encPair_zero : answers (built .eight false false false) 0x120000000000 = [⟨0, [.byte 0xFA]⟩] := by decide
/-- 95_test_vectors.md P5 row 2. -/
theorem test_encPair_notConstructed : answers State.reset 0x120000000000 = [⟨2, []⟩] := by decide
/-- 46_commands.md R276. -/
theorem test_encSample : answers (built .eight false true false) 0x1300000007D0 = [⟨0, [.byte 0xE0]⟩] := by decide
/-- 95_test_vectors.md P5 row 5. -/
theorem test_encSample_wrongMode : answers (built .eight false false false) 0x130000000005 = [⟨3, []⟩] := by decide
/-- 46_commands.md R278. -/
theorem test_decByte_zero :
    answers (built .eight false false false) 0x220000000000 = [⟨0, [.sample (-1), .sample (-1)]⟩] := by decide
/-- 95_test_vectors.md P6, last line: 8 kHz with ITU test mode. -/
theorem test_decByte_itu8k : answers (built .eight false true true) 0x2200000000E0 = [⟨0, [.sample 48, .sample 0]⟩] := by
  decide
/-- 95_test_vectors.md V-STATUS: `enc.init 48000, PACKED` then one `enc.pair`. -/
theorem test_rdStatus : answers { after (built .six true false false) 0x120000000000 with responses := [] } 0x300000000000 =
    [⟨0, [.word 0x00060065]⟩] := by decide
/-- 95_test_vectors.md P5 rows 12, 13: recorded in `dec`. -/
theorem test_illegal : answers State.reset 0x2200000001FF = [⟨4, []⟩] ∧
    (after State.reset 0x2200000001FF).dec.status.fault = 4 ∧ (after State.reset 0x2200000001FF).enc.status.fault = 0 := by
  decide

/-! ### Witnesses -/

theorem witness_DecodeAfterEncodeIsIdentity : (Instr.encInit 0xFFFFFFFF 3).wellFormed = true := by decide

theorem witness_EncodeAfterDecodeIsIdentity : decode 0x1200FFFF8000 = .ok (.encPair (-32768) (-1)) := by rfl

theorem witness_DecoderAgreesWithOpcodeMap :
    decode 0x3001_0000_0000 = .ok (.rdStatus .dec) ∧
    (∃ r ∈ opcodeMap, (0x13000000FFFF : CmdWord) &&& r.mask = r.pattern) ∧
    (∀ r ∈ opcodeMap, (0x3002_0000_0000 : CmdWord) &&& r.mask ≠ r.pattern) := by
  refine ⟨rfl, by decide, by decide⟩

theorem witness_StepRunsDecodedCommand :
    (State.reset.withFetchWord 48 0x120000000000).pending = 0x120000000000 :: [] ∧
    decode 0x120000000000 = .ok (.encPair 0 0) := ⟨rfl, rfl⟩

/-- The ends of both recording ranges and their neighbours. -/
theorem witness_IllegalWordRaisesIllegalCmd :
    (State.reset.withFetchWord 48 0x100400000000).pending = 0x100400000000 :: [] ∧
    decode 0x0F0000000000 = .error .unassignedOpcode ∧ decode 0x100400000000 = .error .reservedOptions ∧
    decode 0x130000010000 = .error .reservedArgument ∧ decode 0x140000000000 = .error .unassignedOpcode ∧
    decode 0x1F0000000000 = .error .unassignedOpcode ∧ decode 0x200400000000 = .error .reservedOptions ∧
    decode 0x220000000100 = .error .reservedArgument ∧ decode 0x230000000000 = .error .unassignedOpcode :=
  ⟨rfl, rfl, rfl, rfl, rfl, rfl, rfl, rfl, rfl⟩

theorem witness_IdleStepHoldsState : State.reset.pending = [] := rfl

theorem witness_ParametersAreConstant :
    step (State.reset.withFetchWord 48 0x10000000BB80) = .next (construct .enc 48000 0 false State.reset) := rfl

theorem witness_PowerOnAndConstructionValues : ((48000 : BitVec 32), CodeBits.six) ∈ legalRates ∧
    ((64000 : BitVec 32), CodeBits.eight) ∈ legalRates := by decide

theorem witness_InitCommandsConstruct :
    ((48000 : BitVec 32), CodeBits.six) ∈ legalRates ∧ ((56000 : BitVec 32), CodeBits.seven) ∈ legalRates ∧
    ((64000 : BitVec 32), CodeBits.eight) ∈ legalRates ∧
    ((64001 : BitVec 32) ≠ 64000 ∧ (64001 : BitVec 32) ≠ 56000 ∧ (64001 : BitVec 32) ≠ 48000) ∧
    (0x04 : BitVec 8).extractLsb' 2 6 ≠ 0 ∧ (0x80 : BitVec 8).extractLsb' 2 6 ≠ 0 := by decide

theorem witness_EncPairEncodesPair :
    (built .seven false false false).enc.cfg.packed = false ∧ (built .seven true false false).enc.cfg.packed = true ∧
    ((built .six true false false).enc.status.constructed = true ∧ (built .six true false false).enc.cfg.eightk = false ∧
      (built .six true false false).enc.cfg.itu = false) ∧
    State.reset.enc.status.constructed = false ∧
    ((built .six true false true).enc.status.constructed = true ∧ (built .six true false true).enc.cfg.itu = true) := by
  decide

theorem witness_EncSampleEncodesSample :
    ((built .six true true true).enc.status.constructed = true ∧ (built .six true true true).enc.cfg.eightk = true) ∧
    ((built .six true false true).enc.cfg.eightk = false ∧ (built .six true false true).enc.cfg.itu = true) ∧
    State.reset.enc.status.constructed = false ∧
    ((built .six true false false).enc.status.constructed = true ∧ (built .six true false false).enc.cfg.eightk = false ∧
      (built .six true false false).enc.cfg.itu = false) := by decide

theorem witness_DecByteDecodesByte :
    (built .seven true false false).dec.status.constructed = true ∧ (built .seven true false false).dec.cfg.packed = true ∧
    (built .seven false false false).dec.cfg.packed = false ∧ State.reset.dec.status.constructed = false := by decide

theorem witness_DecCodeDecodesCodeword :
    ((built .six true false false).dec.cfg.eightk = false ∧ (built .six true false false).dec.cfg.itu = false) ∧
    ((built .six true false true).dec.cfg.eightk = false ∧ (built .six true false true).dec.cfg.itu = true) ∧
    ((built .six true true false).dec.cfg.eightk = true ∧ (built .six true true false).dec.cfg.itu = false) ∧
    ((built .six true true true).dec.cfg.eightk = true ∧ (built .six true true true).dec.cfg.itu = true) := by decide

/-- A fault on a clean and on a marked context. -/
theorem witness_FaultsArePrecise :
    exec (.encPair 0 0) State.reset = .next (refusedState .enc 2 State.reset) ∧
    (refusedState .enc 2 State.reset).responses = State.reset.responses ++ [⟨2, []⟩] ∧ (2 : BitVec 8) ≠ 0 :=
  ⟨rfl, rfl, by decide⟩

theorem witness_FaultCodeIsInformational :
    (∀ c, Instr.encSample 5 ≠ .rdStatus c) ∧
    (refusedState .enc 3 (built .six true false false)).enc.clearFault = (built .six true false false).enc.clearFault ∧
    exec (.encSample 5) (built .six true false false) =
      .next (refusedState .enc 3 (built .six true false false)) ∧
    (constructs (.encSample 5) ≠ some .enc ∧ (refusedState .enc 3 (built .six true false false)).enc.status.fault ≠ 0) ∧
    constructs (.encInit 48000 0) = some .enc ∧
    exec (.encInit 48000 0) State.reset = .next (construct .enc 48000 0 false State.reset) ∧
    execList [.encInit 48000 0, .decByte 1] State.reset =
      .next (refusedState .dec 2 (construct .enc 48000 0 false State.reset)) ∧
    execList [.encInit 48000 0, .decByte 1] (refusedState .dec 2 State.reset) =
      .next (refusedState .dec 2 (construct .enc 48000 0 false (refusedState .dec 2 State.reset))) :=
  ⟨by simp, rfl, rfl, by decide, rfl, rfl, rfl, rfl⟩

theorem witness_StatusRegisterWriters :
    exec (.decInitT 56000 3) State.reset = .next (construct .dec 56000 3 true State.reset) ∧
    constructs (.decInitT 56000 3) = some .dec ∧ constructs (.decInitT 56000 3) ≠ some .enc ∧
    step ((built .six true false false).withFetchWord 48 0x100000000001) =
      .next (refusedState .enc 1 (built .six true false false)) ∧
    (refusedState .enc 1 (built .six true false false)).enc.status.fault ≠ (built .six true false false).enc.status.fault ∧
    exec (.encSample 5) (built .six true false false) = .next (refusedState .enc 3 (built .six true false false)) ∧
    (refusedState .enc 3 (built .six true false false)).responses = (built .six true false false).responses ++ [⟨3, []⟩] ∧
    encoderCommand (.encSample 5) = true ∧ constructs (.encSample 5) ≠ some .enc ∧
    decoderCommand (.encSample 5) = false ∧ decoderCommand (.rdStatus .dec) = false :=
  ⟨rfl, rfl, by decide, rfl, by decide, rfl, rfl, rfl, by decide, rfl, rfl⟩

theorem witness_ConfigurationIsImmutable :
    step (State.reset.withFetchWord 48 0x10000000BB80) = .next (construct .enc 48000 0 false State.reset) ∧
    (construct .enc 48000 0 false State.reset).enc.cfg ≠ State.reset.enc.cfg := ⟨rfl, by decide⟩

theorem witness_CommandFrame :
    exec (.rdStatus .dec) State.reset = .next (complete [.word (statusWord State.reset.dec)] State.reset) ∧
    encoderCommand (.encSample 1) = true ∧ decoderCommand (.decByte 1) = true := ⟨rfl, rfl, rfl⟩

theorem witness_ContextsCommute :
    encoderCommand (.encPair 1 2) = true ∧ decoderCommand (.decByte 3) = true ∧
    exec (.encPair 1 2) State.reset = .next (refusedState .enc 2 State.reset) ∧
    exec (.decByte 3) (refusedState .enc 2 State.reset) = .next (refusedState .dec 2 (refusedState .enc 2 State.reset)) ∧
    exec (.decByte 3) State.reset = .next (refusedState .dec 2 State.reset) ∧
    exec (.encPair 1 2) (refusedState .dec 2 State.reset) = .next (refusedState .enc 2 (refusedState .dec 2 State.reset)) :=
  ⟨rfl, rfl, rfl, rfl, rfl, rfl⟩

/-- A decoder context that is not constructed and holds other values. -/
theorem witness_PowerOnValuesAreUnobservable :
    Indistinguishable (State.reset.withFetchWord 48 0x220000000000)
      ({ State.reset with dec := { State.reset.dec with accBits := 5, band1 := Band.constructed 3 } }.withFetchWord 48
        0x220000000000) ∧
    step (State.reset.withFetchWord 48 0x220000000000) = .next (refusedState .dec 2 State.reset) :=
  ⟨⟨⟨rfl, fun _ => rfl⟩, ⟨rfl, fun h => by revert h; decide⟩, rfl, rfl, rfl⟩, rfl⟩

theorem witness_Sat16Saturates : (32768 : Int) > 32767 ∧ (-32769 : Int) < -32768 ∧ ((-32768 : Int) ≤ -32768 ∧
    (-32768 : Int) ≤ 32767) ∧ (32767 : Int) ≤ 32768 := by decide

/-- The ends of the range of the difference, and bounds of the clamp with a value below, inside and above. -/
theorem witness_Block4ClosedForm : ((-12288 : Int) ≤ 12288 ∧ (-12289 : Int) < -12288 ∧ (12289 : Int) > 12288) ∧ ((-32768 : Int) ≤ -32768 ∧ (-32768 : Int) ≤ 32767) ∧
    ((-32768 : Int) ≤ 32767 ∧ (32767 : Int) ≤ 32767) := by decide

theorem witness_QuantlNeverBelowFour : defaultParams.tables = defaultTables := rfl

theorem witness_QuanthPicksLevel : { defaultParams with negMag := NegMag.ones }.tables = defaultTables := rfl

theorem witness_AnalysisOutputsBounded : { defaultParams with qmfPairing := QmfPairing.itu }.tables = defaultTables := rfl

/-- The listed tables keep the shape of 20_memory.md R77. -/
theorem defaultTables_ok : TablesOk defaultTables where
  ilb := by decide
  qm2 := by unfold entryFits16; decide
  qm4 := by unfold entryFits16; decide
  qm5 := by unfold entryFits16; decide
  qm6 := by unfold entryFits16; decide

/-- The ends of the range of `Nb`, and an entry of `wl` below 0. -/
theorem witness_LowAdaptSequence : TablesOk defaultParams.tables ∧ (0 : Reg15).toNat ≤ 18432 ∧
    (18432 : Reg15).toNat ≤ 18432 ∧ tableWl[tableRl42[(14 : BitVec 4).toNat]'(14 : BitVec 4).isLt] < 0 :=
  ⟨defaultTables_ok, by decide, by decide, by decide⟩

theorem witness_HighAdaptSequence : TablesOk (built .seven true false false).params.tables ∧
    (0 : Reg15).toNat ≤ 22528 ∧ (22528 : Reg15).toNat ≤ 22528 := ⟨defaultTables_ok, by decide, by decide⟩

theorem witness_BypassModesLeaveHighBandAndLine :
    (built .six true true false).enc.cfg.eightk = true ∧ (built .six true false true).dec.cfg.itu = true ∧
    codeField .six 0x3F = codeField .six 0x0F ∧ (0x3F : BitVec 8) ≠ 0x0F := by decide

theorem witness_DelayLineShiftsAndSums : { defaultParams with qmfPairing := QmfPairing.itu }.tables = defaultTables := rfl

theorem witness_PairingsMirrorEachOther :
    PairsSwapped (qmfShift zeroLine 5 (-7)) (qmfShift zeroLine (-7) 5) := by unfold PairsSwapped; decide

theorem witness_RxBypassDoubles : ((-16384 : Int) ≤ -16384 ∧ (-16384 : Int) ≤ 16383) ∧ ((-16384 : Int) ≤ 16383 ∧
    (16383 : Int) ≤ 16383) ∧ (built .six true true true).dec.cfg.itu = true ∧
    (built .six true true true).dec.cfg.eightk = true := by decide

theorem witness_PackedStreamLayout :
    let c := (built .seven true false false).enc
    c.cfg.bits ≠ .eight ∧ c.accBuf = 0 ∧ c.accBits = 0 ∧
    ∀ code ∈ [(0x7F : BitVec 8), 0, 0x7D], code.toNat < 2 ^ c.cfg.bits.toNat := by decide

theorem witness_UnpackInvertsPack :
    let c := (built .six true false false).enc
    let c' := (built .six true false false).dec
    c.cfg.bits ≠ .eight ∧ c'.cfg.bits = c.cfg.bits ∧ c.accBuf = 0 ∧ c.accBits = 0 ∧ c'.accBuf = 0 ∧ c'.accBits = 0 ∧
    ∀ code ∈ [(0x3F : BitVec 8), 0, 0x2A], code.toNat < 2 ^ c.cfg.bits.toNat := by decide

/-- The least and the greatest count a decoder holds. -/
theorem witness_UnpackDrains :
    let c := (built .six true false false).dec
    let c' := { (built .seven true false false).dec with accBuf := 0x3F, accBits := 6 }
    (c.accBits.toNat < c.cfg.bits.toNat ∧ c.accBuf.toNat < 2 ^ c.accBits.toNat ∧ c.cfg.bits ≠ .eight) ∧
    (c'.accBits.toNat < c'.cfg.bits.toNat ∧ c'.accBuf.toNat < 2 ^ c'.accBits.toNat ∧ c'.cfg.bits ≠ .eight) := by decide

theorem witness_ResponseLengths :
    let c := (built .eight false false false).dec
    c.cfg.packed = false ∧ c.accBits.toNat < c.cfg.bits.toNat ∧ (c.cfg.bits ≠ .eight ∨ c.cfg.packed = false) := by decide

/-- 95_test_vectors.md V-CMD and R275: the pair of zeros answers FA. -/
theorem witness_DecoderTracksEncoder :
    let s := built .eight false false false
    let t := after s 0x120000000000
    s.enc.status.constructed = true ∧ s.dec.status.constructed = true ∧ s.enc.cfg = s.dec.cfg ∧
    s.enc.cfg.packed = false ∧ s.enc.band0 = s.dec.band0 ∧ s.enc.band1 = s.dec.band1 ∧
    exec (.encPair 0 0) s = .next t ∧ t.responses = s.responses ++ [⟨0, [.byte 0xFA]⟩] :=
  ⟨rfl, rfl, rfl, rfl, rfl, rfl, rfl, rfl⟩

theorem witness_EncodeRefusesMalformedInput :
    (built .eight false false false).enc.status.constructed = true ∧
    encodeWords [1, 2, 3] 9 (built .eight false false false) = .error .invalidInput ∧
    encodeWords [1, 2, 3, 4, 5, 6] 9 (built .eight false false false) = .error .invalidInput := ⟨rfl, rfl, rfl⟩

/-- 95_test_vectors.md P5: 160 bytes into 39 at 64000; and the least buffer that holds the result. -/
theorem test_encode_capacity :
    encodeWords (List.replicate 160 0) 39 (built .eight false false false) = .error .outCapacity ∧
    encodeWords [1, 2, 3, 4] 0 (built .eight false false false) = .error .outCapacity ∧
    encodeWords [1, 2, 3, 4] 1 (built .eight false false false) = .ok [0x120004030201] :=
  ⟨by decide +kernel, rfl, rfl⟩

/-- 30_encoding.md R117, 20_memory.md R79: the samples 48 and 0 of 95_test_vectors.md P6, and two samples with unlike
bytes, low byte first. -/
theorem test_decode_bytes :
    (runDecode [0xE0] 4 (built .eight false true true)).toOption.map (·.1) = some [0x30, 0x00, 0x00, 0x00] ∧
    pcmBytes [-4, 0x0102] = [0xFC, 0xFF, 0x02, 0x01] := ⟨by decide +kernel, rfl⟩

/-- Upper bits of an unpacked byte: code 3E at 6 bits with bits 7 and 6 set. -/
theorem witness_SplitInvertsAssembly :
    (0xFE : BitVec 8).toNat % 2 ^ (built .six false false false).dec.cfg.bits.toNat =
      (0x3E : BitVec 8).toNat % 2 ^ (built .six false false false).dec.cfg.bits.toNat ∧
    codeHigh .six 0xFE = 3 ∧ codeField .six 0xFE = 14 := by decide

/-- 30_encoding.md R117 and 60_exceptions.md R307: on an unconstructed decoder each byte is issued and refused by the core. -/
theorem test_decode_unconstructed :
    decodeWords [7, 8] 0 State.reset = .ok [0x220000000007, 0x220000000008] ∧
    runDecode [7, 8] 0 State.reset = .ok ([], refusedCalls .dec 2 State.reset) := ⟨rfl, rfl⟩

/-- 60_exceptions.md R310: an odd byte count is malformed input whatever the context. -/
theorem test_encode_odd_unconstructed : encodeWords [1, 2, 3] 9 State.reset = .error .invalidInput := rfl

/-- On an unconstructed encoder `encode` issues commands for whole pairs, whichever mode the free value takes. -/
theorem encode_unconstructed_issues : ∃ ws, encodeWords [1, 2, 3, 4] 0 State.reset = .ok ws := by
  cases h : Config.unconstructedFullBand
  · exact ⟨[0x130000000201, 0x130000000403], by
      simp only [encodeWords, show encodesFullBand State.reset.enc = Config.unconstructedFullBand from rfl, h]; rfl⟩
  · exact ⟨[0x120004030201], by
      simp only [encodeWords, show encodesFullBand State.reset.enc = Config.unconstructedFullBand from rfl, h]; rfl⟩

theorem witness_CallsCheckCapacity :
    (built .six true false false).enc.status.constructed = true ∧ (built .six true true true).dec.status.constructed = true ∧
    State.reset.enc.status.constructed = false ∧ State.reset.dec.status.constructed = false ∧
    encodeWords [1, 2, 3] 9 State.reset = .error .invalidInput ∧
    encodeWords [1, 2, 3, 4] 2 (built .eight false true false) = .ok [0x130000000201, 0x130000000403] ∧
    encodeWords [1, 2, 3, 4] 1 (built .eight false false false) = .ok [0x120004030201] ∧
    decodeWords [7] 3 (built .eight false true true) = .error .outCapacity ∧
    decodeWords [7] 2 (built .eight false true false) = .ok [0x220000000007] :=
  ⟨rfl, rfl, rfl, rfl, rfl, rfl, rfl, rfl, rfl⟩

/-- A bank in its construction state meets the bank invariant of the low and the high band. -/
theorem band_constructed_ok (det : Reg15) (maxNb minDet : Nat) (h : minDet ≤ det.toNat) (h4 : det.toNat % 4 = 0) :
    BandOk maxNb minDet (Band.constructed det) where
  a0 := rfl
  ap0 := rfl
  b0 := rfl
  bp0 := rfl
  ap1 := rfl
  ap2 := rfl
  bp := fun _ => rfl
  r01 := rfl
  p01 := rfl
  d01 := rfl
  sg := fun i => .inl (by fin_cases i <;> rfl)
  poles := by
    show -12288 ≤ (0 : Reg16).toInt ∧ (0 : Reg16).toInt ≤ 12288 ∧
      -(15360 - (0 : Reg16).toInt) ≤ (0 : Reg16).toInt ∧ (0 : Reg16).toInt ≤ 15360 - (0 : Reg16).toInt
    decide
  nb := Nat.zero_le _
  detMin := h
  detMul := h4

/-- A packed full-band context in its construction state meets the context invariant. -/
theorem context_packed_ok : ContextOk (built .six true false false).enc where
  low := band_constructed_ok 32 _ _ (by decide) (by decide)
  high := band_constructed_ok 8 _ _ (by decide) (by decide)
  packed := by decide
  unpacked := by decide
  acc := by decide
  eightk := by decide
  line := by decide

theorem witness_EncodeOutputLength :
    (built .six true false false).pending = [] ∧ EncOk (built .six true false false).enc ∧
    encodeWords [1, 2, 3, 4] 1 (built .six true false false) = .ok [0x120004030201] ∧
    State.reset.pending = [] ∧ EncOk State.reset.enc ∧ (∃ ws, encodeWords [1, 2, 3, 4] 0 State.reset = .ok ws) :=
  ⟨rfl, fun _ => ⟨context_packed_ok, by decide⟩, rfl, rfl, (fun h => nomatch h), encode_unconstructed_issues⟩

theorem witness_DecodeOutputLength :
    (built .six true false false).pending = [] ∧ DecOk (built .six true false false).dec ∧
    decodeWords [7] 4 (built .six true false false) = .ok [0x220000000007] ∧
    State.reset.pending = [] ∧ DecOk State.reset.dec ∧ decodeWords [7] 0 State.reset = .ok [0x220000000007] :=
  ⟨rfl, fun _ => ⟨context_packed_ok, by decide⟩, rfl, rfl, (fun h => nomatch h), rfl⟩

/-- 8 kHz mode: one sample (R276's example), then one more. -/
theorem witness_StreamingEquivalence :
    let s := built .eight false true false
    let t := after s 0x1300000007D0
    s.pending = [] ∧ runEncode [0xD0, 0x07] 1 s = .ok ([0xE0], t) ∧
    runEncode [0x18, 0xFC] 1 t = .ok ([0xC4], after t 0x13000000FC18) ∧
    encodeResultBytes s.enc (([0xD0, 0x07] ++ [0x18, 0xFC] : List Byte).length / 2) ≤ 2 := by
  refine ⟨rfl, rfl, by decide +kernel, by decide⟩

theorem witness_StepKeepsInvariant :
    Inv ((built .six true false false).withFetchWord 48 0x100400000000) ∧
    step ((built .six true false false).withFetchWord 48 0x100400000000) =
      .next (refusedState .enc 4 (built .six true false false)) :=
  ⟨⟨defaultTables_ok, fun _ => ⟨context_packed_ok, by decide⟩, fun _ => ⟨context_packed_ok, by decide⟩, by decide,
    by decide, fun _ h => by cases h⟩, rfl⟩

theorem witness_StepKeepsStepSizes :
    ScaleInv ((built .seven true false false).withFetchWord 48 0x10000000BB80) ∧
    step ((built .seven true false false).withFetchWord 48 0x10000000BB80) =
      .next (construct .enc 48000 0 false (built .seven true false false)) :=
  ⟨⟨rfl, fun _ => by decide, fun _ => by decide⟩, rfl⟩

end Sys2Proof.Tests
end

/-! PROOFS. Family 10_state.md: what construction gives a context (R47, R270). -/

namespace Sys2Proof.Machine

/-! ### The INIT commands -/

@[simp] theorem complete_ctx (out : List OutItem) (s : State) (k : Ctx) : (complete out s).ctx k = s.ctx k :=
  respond_ctx _ s k

theorem bitsOfRate_of_mem_legalRates {rate : BitVec 32} {bits : CodeBits} (h : (rate, bits) ∈ legalRates) :
    bitsOfRate rate = some bits := by
  simp only [legalRates, List.mem_cons, List.not_mem_nil, or_false, Prod.mk.injEq] at h
  obtain ⟨rfl, rfl⟩ | ⟨rfl, rfl⟩ | ⟨rfl, rfl⟩ := h <;> rfl

/-- R271 to R274: each of the four INIT commands is `CONSTRUCT` on its own context. -/
theorem exec_initCommand (k : Ctx) (itu : Bool) (rate : BitVec 32) (options : BitVec 8) (s : State) :
    exec (initCommand k itu rate options) s = .next (construct k rate options itu s) := by
  cases k <;> cases itu
  · exact execEncInit_eq rate options s
  · exact execEncInitT_eq rate options s
  · exact execDecInit_eq rate options s
  · exact execDecInitT_eq rate options s

/-- R270 with one of the rates of R97: the INIT command completes with an empty list and constructs its context. -/
theorem exec_initCommand_of_legal {rate : BitVec 32} {bits : CodeBits} (h : (rate, bits) ∈ legalRates) (k : Ctx)
    (itu : Bool) (options : BitVec 8) (s : State) :
    exec (initCommand k itu rate options) s =
      .next (complete [] (s.setCtx k (Context.constructed (cfgOf bits options itu)))) := by
  rw [exec_initCommand, construct_some options itu s (bitsOfRate_of_mem_legalRates h)]

/-! ### The registers after construction -/

section ConstructedBand

variable (det : Reg15)

/-- R47: the three-register histories and coefficients of a constructed bank. -/
theorem Band.constructed_poleVectors : (Band.constructed det).r = .replicate 3 0 ∧
    (Band.constructed det).a = .replicate 3 0 ∧ (Band.constructed det).ap = .replicate 3 0 ∧
    (Band.constructed det).p = .replicate 3 0 := ⟨rfl, rfl, rfl, rfl⟩

/-- R47: the seven-register histories and coefficients of a constructed bank. -/
theorem Band.constructed_zeroVectors : (Band.constructed det).d = .replicate 7 0 ∧
    (Band.constructed det).b = .replicate 7 0 ∧ (Band.constructed det).bp = .replicate 7 0 ∧
    (Band.constructed det).sg = .replicate 7 0 := ⟨rfl, rfl, rfl, rfl⟩

theorem Band.constructed_poleVectors_getElem (i : Fin 3) : (Band.constructed det).r[i] = 0 ∧
    (Band.constructed det).a[i] = 0 ∧ (Band.constructed det).ap[i] = 0 ∧ (Band.constructed det).p[i] = 0 := by
  obtain ⟨hr, ha, hap, hp⟩ := Band.constructed_poleVectors det
  simp [hr, ha, hap, hp]

theorem Band.constructed_zeroVectors_getElem (i : Fin 7) : (Band.constructed det).d[i] = 0 ∧
    (Band.constructed det).b[i] = 0 ∧ (Band.constructed det).bp[i] = 0 ∧ (Band.constructed det).sg[i] = 0 := by
  obtain ⟨hd, hb, hbp, hsg⟩ := Band.constructed_zeroVectors det
  simp [hd, hb, hbp, hsg]

/-- R47: every register of a constructed bank but `Det` is 0. -/
theorem Band.constructed_registers_eq_zero :
    (Band.constructed det).s = 0 ∧ (Band.constructed det).sp = 0 ∧ (Band.constructed det).sz = 0 ∧
    (Band.constructed det).nb = 0 ∧
    (∀ i : Fin 3, (Band.constructed det).r[i] = 0 ∧ (Band.constructed det).a[i] = 0 ∧
      (Band.constructed det).ap[i] = 0 ∧ (Band.constructed det).p[i] = 0) ∧
    (∀ i : Fin 7, (Band.constructed det).d[i] = 0 ∧ (Band.constructed det).b[i] = 0 ∧
      (Band.constructed det).bp[i] = 0 ∧ (Band.constructed det).sg[i] = 0) :=
  ⟨rfl, rfl, rfl, rfl, Band.constructed_poleVectors_getElem det, Band.constructed_zeroVectors_getElem det⟩

end ConstructedBand

theorem zeroLine_eq_replicate : zeroLine = .replicate 24 0 := rfl

theorem zeroLine_getElem (i : Fin 24) : zeroLine[i] = 0 := by
  simp [zeroLine_eq_replicate]

/-- Settles O10: a legal INIT leaves the state `Context.constructed` in its context, whose registers the lemmas above
read off. -/
theorem powerOnAndConstructionValues : Obligations.PowerOnAndConstructionValues := by
  refine ⟨rfl, rfl, fun k itu rate bits options s hrate => ⟨_, exec_initCommand_of_legal hrate k itu options s, ?_⟩⟩
  rw [complete_ctx, ctx_setCtx_same]
  refine ⟨rfl, rfl, fun b hb => ?_, zeroLine_getElem, rfl, rfl, rfl, rfl⟩
  obtain rfl | rfl := hb
  · exact Band.constructed_registers_eq_zero 32
  · exact Band.constructed_registers_eq_zero 8

end Sys2Proof.Machine

/-! PROOFS. Family 30_encoding.md: the decoder against the opcode map (R95), and what `encode` refuses (R118, R310). -/

namespace Sys2Proof

/-! ### A command word field by field -/

theorem CmdWord.ofFields_inj {op op' m m' : BitVec 8} {arg arg' : BitVec 32} :
    CmdWord.ofFields op m arg = CmdWord.ofFields op' m' arg' ↔ op = op' ∧ m = m' ∧ arg = arg' := by
  constructor
  · intro h
    have hhi := congrArg (BitVec.extractLsb' 32 16) h
    have harg := congrArg (BitVec.extractLsb' 0 32) h
    simp only [CmdWord.ofFields, BitVec.extractLsb'_append_eq_left, BitVec.extractLsb'_append_eq_right] at hhi harg
    have hop := congrArg (BitVec.extractLsb' 8 8) hhi
    have hm := congrArg (BitVec.extractLsb' 0 8) hhi
    simp only [BitVec.extractLsb'_append_eq_left, BitVec.extractLsb'_append_eq_right] at hop hm
    exact ⟨hop, hm, harg⟩
  · rintro ⟨rfl, rfl, rfl⟩
    rfl

theorem CmdWord.ofFields_fields (w : CmdWord) : CmdWord.ofFields w.op w.modifier w.arg = w := by
  have hhi : w.op ++ w.modifier = w.extractLsb' 32 16 := BitVec.extractLsb'_append_extractLsb'_eq_extractLsb' rfl
  have hall : w.extractLsb' 32 16 ++ w.arg = w.extractLsb' 0 48 :=
    BitVec.extractLsb'_append_extractLsb'_eq_extractLsb' rfl
  rw [CmdWord.ofFields, hhi]
  exact hall.trans BitVec.extractLsb'_eq_self

theorem CmdWord.ofFields_and_ofFields (op op' m m' : BitVec 8) (arg arg' : BitVec 32) :
    CmdWord.ofFields op m arg &&& CmdWord.ofFields op' m' arg' =
      CmdWord.ofFields (op &&& op') (m &&& m') (arg &&& arg') :=
  BitVec.and_append.trans (congrArg (· ++ (arg &&& arg')) BitVec.and_append)

/-- Masking a word masks each of its fields. -/
theorem CmdWord.and_ofFields_eq_iff (w : CmdWord) (op op' m m' : BitVec 8) (arg arg' : BitVec 32) :
    w &&& CmdWord.ofFields op m arg = CmdWord.ofFields op' m' arg' ↔
      w.op &&& op = op' ∧ w.modifier &&& m = m' ∧ w.arg &&& arg = arg' := by
  rw [← CmdWord.ofFields_inj, ← CmdWord.ofFields_and_ofFields, CmdWord.ofFields_fields]

/-- The bits `lo` to `lo + n - 1` are zero when the mask of those bits leaves nothing. -/
theorem and_fieldMask_eq_zero_iff {v : Nat} (x : BitVec v) (lo n : Nat) :
    x &&& (BitVec.allOnes n).setWidth v <<< lo = 0#v ↔ x.extractLsb' lo n = 0#n := by
  simp only [BitVec.eq_of_getLsbD_eq_iff, BitVec.getLsbD_and, BitVec.getLsbD_shiftLeft, BitVec.getLsbD_setWidth,
    BitVec.getLsbD_allOnes, BitVec.getLsbD_extractLsb', BitVec.getLsbD_zero]
  constructor
  · intro h k hk
    by_cases hv : lo + k < v
    · simpa [hv, hk, show k < v by omega] using h (lo + k) hv
    · simp [BitVec.getLsbD_of_ge x (lo + k) (by omega)]
  · intro h k hk
    by_cases hfield : lo ≤ k ∧ k - lo < n
    · have hbit : x.getLsbD k = false := by
        simpa [hfield, show lo + (k - lo) = k by omega] using h (k - lo) hfield.2
      simp [hbit]
    · grind

theorem and_0xFF (x : BitVec 8) : x &&& 0xFF = x := BitVec.and_allOnes

theorem and_0xFFFFFFFF (x : BitVec 32) : x &&& 0xFFFFFFFF = x := BitVec.and_allOnes

/-! ### The formats -/

theorem optionsOk_iff (options : BitVec 8) : optionsOk options = true ↔ options &&& 0xFC = 0 := by
  rw [optionsOk, beq_iff_eq]
  exact (and_fieldMask_eq_zero_iff options 2 6).symm

theorem decodeFormatI_eq_ok_iff (build : BitVec 32 → BitVec 8 → Instr) (w : CmdWord) (i : Instr) :
    decodeFormatI build w = .ok i ↔ w.modifier &&& 0xFC = 0 ∧ build w.arg w.modifier = i := by
  rw [← optionsOk_iff, decodeFormatI]
  split_ifs with hm <;> simp [hm]

theorem decodeFormatP_eq_ok_iff (w : CmdWord) (i : Instr) :
    decodeFormatP w = .ok i ↔
      w.modifier &&& 0xFF = 0 ∧ .encPair (w.arg.extractLsb' 0 16) (w.arg.extractLsb' 16 16) = i := by
  rw [and_0xFF, decodeFormatP]
  split_ifs <;> simp_all

theorem decodeFormatS_eq_ok_iff (w : CmdWord) (i : Instr) :
    decodeFormatS w = .ok i ↔
      w.modifier &&& 0xFF = 0 ∧ w.arg &&& 0xFFFF0000 = 0 ∧ .encSample (w.arg.extractLsb' 0 16) = i := by
  have harg : w.arg &&& 0xFFFF0000 = 0 ↔ w.arg.extractLsb' 16 16 = 0 := and_fieldMask_eq_zero_iff w.arg 16 16
  rw [and_0xFF, harg, decodeFormatS]
  split_ifs <;> simp_all

theorem decodeFormatB_eq_ok_iff (w : CmdWord) (i : Instr) :
    decodeFormatB w = .ok i ↔
      w.modifier &&& 0xFF = 0 ∧ w.arg &&& 0xFFFFFF00 = 0 ∧ .decByte (w.arg.extractLsb' 0 8) = i := by
  have harg : w.arg &&& 0xFFFFFF00 = 0 ↔ w.arg.extractLsb' 8 24 = 0 := and_fieldMask_eq_zero_iff w.arg 8 24
  rw [and_0xFF, harg, decodeFormatB]
  split_ifs <;> simp_all

theorem decodeFormatQ_eq_ok_iff (w : CmdWord) (i : Instr) :
    decodeFormatQ w = .ok i ↔
      w.modifier &&& 0xFE = 0 ∧ w.arg &&& 0xFFFFFFFF = 0 ∧ .rdStatus (ctxOfBit (w.modifier.extractLsb' 0 1)) = i := by
  have hmod : w.modifier &&& 0xFE = 0 ↔ w.modifier.extractLsb' 1 7 = 0 := and_fieldMask_eq_zero_iff w.modifier 1 7
  rw [and_0xFFFFFFFF, hmod, decodeFormatQ]
  split_ifs <;> simp_all

/-! ### The decoder as a table -/

/-- One arm of the decoder: its opcode, the bits of `m` and `arg` its format marks zero (R91 to R94), and the command it
reads from a word. -/
structure DecodeArm where
  mnemonic : String
  op : BitVec 8
  zeroModifier : BitVec 8
  zeroArg : BitVec 32
  read : CmdWord → Instr

/-- The arms of `decode` in the order of its tests. -/
def decodeArms : List DecodeArm :=
  [ ⟨"ENC_INIT", opEncInit, 0xFC, 0, fun w => .encInit w.arg w.modifier⟩,
    ⟨"ENC_INIT_T", opEncInitT, 0xFC, 0, fun w => .encInitT w.arg w.modifier⟩,
    ⟨"ENC_PAIR", opEncPair, 0xFF, 0, fun w => .encPair (w.arg.extractLsb' 0 16) (w.arg.extractLsb' 16 16)⟩,
    ⟨"ENC_SAMPLE", opEncSample, 0xFF, 0xFFFF0000, fun w => .encSample (w.arg.extractLsb' 0 16)⟩,
    ⟨"DEC_INIT", opDecInit, 0xFC, 0, fun w => .decInit w.arg w.modifier⟩,
    ⟨"DEC_INIT_T", opDecInitT, 0xFC, 0, fun w => .decInitT w.arg w.modifier⟩,
    ⟨"DEC_BYTE", opDecByte, 0xFF, 0xFFFFFF00, fun w => .decByte (w.arg.extractLsb' 0 8)⟩,
    ⟨"RD_STATUS", opRdStatus, 0xFE, 0xFFFFFFFF, fun w => .rdStatus (ctxOfBit (w.modifier.extractLsb' 0 1))⟩ ]

/-- An arm takes a word with its opcode and zeros where its format marks them. -/
def DecodeArm.Takes (a : DecodeArm) (w : CmdWord) : Prop :=
  w.op = a.op ∧ w.modifier &&& a.zeroModifier = 0 ∧ w.arg &&& a.zeroArg = 0

/-- The row of the opcode map an arm stands for: all of `op`, and zero where the format marks zero (R95). -/
def DecodeArm.row (a : DecodeArm) : OpcodeRow :=
  ⟨a.mnemonic, CmdWord.ofFields a.op 0 0, CmdWord.ofFields 0xFF a.zeroModifier a.zeroArg⟩

theorem opcodeMap_eq_map_row : opcodeMap = decodeArms.map DecodeArm.row := rfl

/-- A word lies in the row of an arm exactly when the arm takes it. -/
theorem DecodeArm.row_matches_iff (a : DecodeArm) (w : CmdWord) :
    w &&& a.row.mask = a.row.pattern ↔ a.Takes w := by
  rw [DecodeArm.row, CmdWord.and_ofFields_eq_iff, and_0xFF, DecodeArm.Takes]

theorem decodeArms_read_mnemonic {a : DecodeArm} (ha : a ∈ decodeArms) (w : CmdWord) :
    (a.read w).mnemonic = a.mnemonic := by
  simp only [decodeArms, List.mem_cons, List.not_mem_nil, or_false] at ha
  obtain rfl | rfl | rfl | rfl | rfl | rfl | rfl | rfl := ha <;> rfl

/-- The decoder gives a command exactly when an arm takes the word, and then the command that arm reads. No two arms have
the same opcode, so the order of the tests does not matter. -/
theorem decode_eq_ok_iff (w : CmdWord) (i : Instr) :
    decode w = .ok i ↔ ∃ a ∈ decodeArms, a.Takes w ∧ a.read w = i := by
  simp only [decodeArms, DecodeArm.Takes, List.exists_mem_cons_iff]
  rw [decode]
  split_ifs <;> simp_all [opEncInit, opEncInitT, opEncPair, opEncSample, opDecInit, opDecInitT, opDecByte, opRdStatus,
    decodeFormatI_eq_ok_iff, decodeFormatP_eq_ok_iff, decodeFormatS_eq_ok_iff, decodeFormatB_eq_ok_iff,
    decodeFormatQ_eq_ok_iff, and_assoc]

/-! ### The opcode map -/

theorem opcodeMap_mnemonic_inj : ∀ r ∈ opcodeMap, ∀ r' ∈ opcodeMap, r.mnemonic = r'.mnemonic → r = r' := by
  decide

/-- R95: a word that decodes lies in the row of its command's mnemonic. -/
theorem exists_row_of_decode_ok {w : CmdWord} {i : Instr} (h : decode w = .ok i) :
    ∃ r ∈ opcodeMap, r.mnemonic = i.mnemonic ∧ w &&& r.mask = r.pattern := by
  obtain ⟨a, ha, htakes, rfl⟩ := (decode_eq_ok_iff w i).mp h
  refine ⟨a.row, ?_, (decodeArms_read_mnemonic ha w).symm, (a.row_matches_iff w).mpr htakes⟩
  rw [opcodeMap_eq_map_row]
  exact List.mem_map_of_mem ha

/-- R95: a word of a row decodes to a command of the row's mnemonic. -/
theorem exists_decode_ok_of_row {w : CmdWord} {r : OpcodeRow} (hr : r ∈ opcodeMap) (h : w &&& r.mask = r.pattern) :
    ∃ i, decode w = .ok i ∧ i.mnemonic = r.mnemonic := by
  rw [opcodeMap_eq_map_row] at hr
  obtain ⟨a, ha, rfl⟩ := List.mem_map.mp hr
  have htakes := (a.row_matches_iff w).mp h
  exact ⟨a.read w, (decode_eq_ok_iff w _).mpr ⟨a, ha, htakes, rfl⟩, decodeArms_read_mnemonic ha w⟩

/-- R95, "The rows are disjoint": a word has one decoding, whose mnemonic names the row. -/
theorem opcodeMap_row_unique {w : CmdWord} {r r' : OpcodeRow} (hr : r ∈ opcodeMap) (hr' : r' ∈ opcodeMap)
    (h : w &&& r.mask = r.pattern) (h' : w &&& r'.mask = r'.pattern) : r = r' := by
  obtain ⟨i, hi, hmn⟩ := exists_decode_ok_of_row hr h
  obtain ⟨i', hi', hmn'⟩ := exists_decode_ok_of_row hr' h'
  obtain rfl : i = i' := Except.ok.inj (hi.symm.trans hi')
  exact opcodeMap_mnemonic_inj r hr r' hr' (hmn.symm.trans hmn')

/-- Settles O4: an arm of the decoder takes a word exactly when the word lies in the arm's row, so each clause on rows is
one on the decoder's arms. -/
theorem decoderAgreesWithOpcodeMap : Obligations.DecoderAgreesWithOpcodeMap := by
  refine ⟨rfl, fun w i => exists_row_of_decode_ok, fun w r => exists_decode_ok_of_row,
    fun w r hr r' hr' => opcodeMap_row_unique hr hr', fun w hnone => ?_⟩
  cases hd : decode w with
  | error e => exact ⟨e, rfl⟩
  | ok i =>
    obtain ⟨r, hr, _, hmatch⟩ := exists_row_of_decode_ok hd
    exact absurd hmatch (hnone r hr)

end Sys2Proof

namespace Sys2Proof.Machine

/-! ### Malformed input -/

/-- R118, R310, in every state: INVALID_INPUT is answered to an odd byte count, and to an odd sample count where `encode`
works in full-band mode. -/
theorem encodeWords_eq_invalidInput_iff (pcm : List Byte) (capacity : Nat) (s : State) :
    encodeWords pcm capacity s = .error .invalidInput ↔
      pcm.length % 2 = 1 ∨ (encodesFullBand s.enc = true ∧ pcm.length / 2 % 2 = 1) := by
  obtain ⟨hodd, heq⟩ | ⟨-, hfull, hodd, heq⟩ | ⟨heven, hpairs, -, heq⟩ | ⟨heven, hpairs, -, heq⟩ :=
    encodeWords_cases pcm capacity s
  · simp [heq, hodd]
  · simp [heq, hfull, hodd]
  · simp +contextual [heq, heven, hpairs]
  · simp +contextual [heq, heven, hpairs]

theorem Cfg.fullBand_iff (c : Cfg) : c.fullBand = true ↔ c.eightk = false ∧ c.itu = false := by
  simp [Cfg.fullBand]

/-- A refused `encode` issues no command: its result is the refusal. -/
theorem runEncode_of_error {pcm : List Byte} {capacity : Nat} {s : State} {e : FaultCode}
    (h : encodeWords pcm capacity s = .error e) : runEncode pcm capacity s = .error e := by
  simp [runEncode, h]

/-- R310: no byte sequence is malformed for `decode`. -/
theorem decodeWords_ne_invalidInput (bytes : List Byte) (capacity : Nat) (s : State) :
    decodeWords bytes capacity s ≠ .error .invalidInput := by
  obtain ⟨-, heq⟩ | ⟨-, heq⟩ := decodeWords_cases bytes capacity s <;> simp [heq]

/-- Settles O51: the tests of `encode` before the capacity test, with the mode read from `CFG` of a constructed encoder. -/
theorem encodeRefusesMalformedInput : Obligations.EncodeRefusesMalformedInput := by
  refine ⟨fun pcm capacity s hodd => (encodeWords_eq_invalidInput_iff pcm capacity s).mpr (.inl hodd),
    fun pcm capacity s hc => ?_, fun pcm capacity s => runEncode_of_error, decodeWords_ne_invalidInput⟩
  rw [encodeWords_eq_invalidInput_iff, encodesFullBand_constructed hc, Cfg.fullBand_iff, and_assoc]

end Sys2Proof.Machine

namespace Sys2Proof.Machine

/-! ### The right shift -/

/-- R132: the shifted value is the one integer whose multiple of `2^n` `asr_bounds` brackets, and so the floor. -/
theorem asr_eq_floor (v : Int) (n : Nat) : asr v n = ⌊(v : ℚ) / 2 ^ n⌋ := by
  obtain ⟨hle, hlt⟩ := asr_bounds v n
  have hp : (0 : ℚ) < 2 ^ n := by positivity
  symm
  rw [Int.floor_eq_iff, le_div_iff₀ hp, div_lt_iff₀ hp]
  exact ⟨mod_cast hle, mod_cast hlt⟩

/-- Settles O25: the bounds of the shift determine the floor; the examples of the rule are evaluated. -/
theorem shiftRightIsFloor : Obligations.ShiftRightIsFloor :=
  ⟨asr_eq_floor, by decide⟩

/-! ### Saturation -/

theorem sat16_of_gt {v : Int} (h : v > 32767) : sat16 v = 32767 := if_pos h

theorem sat16_of_lt {v : Int} (h : v < -32768) : sat16 v = -32768 := by
  have hnot : ¬ v > 32767 := by omega
  rw [sat16, if_neg hnot, if_pos h]

theorem sat16_sat16 (v : Int) : sat16 (sat16 v) = sat16 v := sat16_of_fits (sat16_bounds v)

theorem sat16_eq_max_min (v : Int) : sat16 v = max (-32768) (min v 32767) := by
  unfold sat16; split_ifs <;> omega

theorem sat16_mono {v w : Int} (h : v ≤ w) : sat16 v ≤ sat16 w := by
  rw [sat16_eq_max_min, sat16_eq_max_min]
  gcongr

/-- A 16-bit register keeps a value exactly when the value is in the signed range. -/
theorem toReg_toInt_eq_self_iff (v : Int) : (toReg v).toInt = v ↔ -32768 ≤ v ∧ v ≤ 32767 :=
  ⟨fun h => h ▸ reg16_bounds (toReg v), toReg_toInt⟩

/-- R130, truncate and compare: a value the register does not keep saturates to the end on its own side of zero. -/
theorem sat16_eq_truncate_compare (v : Int) :
    sat16 v = if (toReg v).toInt = v then v else if v < 0 then -32768 else 32767 := by
  simp only [toReg_toInt_eq_self_iff]
  split_ifs with hfits hneg
  · exact sat16_of_fits hfits
  · exact sat16_of_lt (by omega)
  · exact sat16_of_gt (by omega)

/-- Settles O24: saturation in its three ranges, from which truncate-and-compare follows; idempotence from its bounds,
monotonicity from its form as a maximum of a minimum. -/
theorem sat16Saturates : Obligations.Sat16Saturates :=
  ⟨fun v => ⟨sat16_of_gt, sat16_of_lt, sat16_of_fits, sat16_sat16 v, sat16_eq_truncate_compare v⟩,
    fun _ _ => sat16_mono, by decide⟩

end Sys2Proof.Machine

namespace Sys2Proof.Machine

/-! ### The filter steps FILTEP, FILTEZ and PREDIC (R156 to R158) -/

/-- R156: the sum of the two pole taps fits once saturated, so `Sp` holds it unchanged. -/
theorem filtep_sp_toInt (b : Band) :
    (filtep b).sp.toInt = sat16 (tap b.a[1] b.r[1] + tap b.a[2] b.r[2]) :=
  toReg_sat16_toInt _

/-- R157: the six zero taps are summed without saturation between them, so the order of the sum is free. -/
theorem filtez_sz_toInt (b : Band) :
    (filtez b).sz.toInt = sat16 (∑ i : Fin 6, tap b.b[i.val + 1] b.d[i.val + 1]) := by
  rw [Fin.sum_univ_six]
  exact toReg_sat16_toInt _

/-- R158: the prediction is the saturated sum of the two filter outputs. -/
theorem predic_s_toInt (b : Band) : (predic b).s.toInt = sat16 (b.sp.toInt + b.sz.toInt) :=
  toReg_sat16_toInt _

/-- Settles O26: each step is an update of its one register, and that register holds a saturated value, which a 16-bit
register keeps. -/
theorem filterStepsPredict : Obligations.FilterStepsPredict := fun b =>
  have filtep_frame : filtep b = { b with sp := (filtep b).sp } := rfl
  have filtez_frame : filtez b = { b with sz := (filtez b).sz } := rfl
  have predic_frame : predic b = { b with s := (predic b).s } := rfl
  ⟨⟨filtep_frame, filtep_sp_toInt b⟩, ⟨filtez_frame, filtez_sz_toInt b⟩, predic_frame, predic_s_toInt b⟩

end Sys2Proof.Machine

/-! PROOFS. Family 42_lowband_adpcm.md: the step size, the low-band adaptation, the sub-band coders (R185 to R191, R217).
The lemmas on the step size hold for both shift bases, 8 (R186) and 10 (R215). -/

namespace Sys2Proof.Machine

/-! ### The log scale factor (R185) -/

theorem clamp_of_lt {v lo hi : Int} (h : v < lo) : clamp v lo hi = lo := if_pos h

/-- R185: the clamp keeps the leak plus the increment within 15 bits, so `Nb` holds it unchanged. -/
theorem logscl_nb_toNat (t : Tables) (b : Band) (ril : BitVec 4) :
    ((logscl t b ril).nb.toNat : Int) =
      clamp ((b.nb.toNat * 127 : Int) / 128 + t.wl[t.rl42[ril.toNat]'ril.isLt]) 0 18432 := by
  obtain ⟨hlo, hhi⟩ := clamp_bounds (asr (b.nb.toNat * 127) 7 + t.wl[t.rl42[ril.toNat]'ril.isLt])
    (show (0 : Int) ≤ 18432 by decide)
  exact toReg15_toNat ⟨hlo, by omega⟩

/-- From `Nb` = 0 a negative increment has nothing to subtract from. -/
theorem logscl_constructed_nb_of_neg {t : Tables} {ril : BitVec 4} (det : Reg15)
    (h : t.wl[t.rl42[ril.toNat]'ril.isLt] < 0) : (logscl t (Band.constructed det) ril).nb = 0 := by
  have hnb := logscl_nb_toNat t (Band.constructed det) ril
  have hleak : ((Band.constructed det).nb.toNat * 127 : Int) / 128 = 0 := by simp [Band.constructed]
  rw [hleak, zero_add, clamp_of_lt h] at hnb
  exact BitVec.eq_of_toNat_eq (Int.natCast_eq_zero.mp hnb)

/-! ### The step size from the log table (R186, R215) -/

/-- Bits 10:6 of `Nb` select the entry, bits 14:11 the shift. -/
theorem scaleDet_eq (t : Tables) (base : Nat) (nb : Reg15) :
    scaleDet t base nb = (let e := t.ilb[nb.toNat / 64 % 32]'(Nat.mod_lt _ (by decide))
      if nb.toNat / 2048 ≤ base then e / 2 ^ (base - nb.toNat / 2048) else e * 2 ^ (nb.toNat / 2048 - base)) * 4 := by
  have hentry : (nb.extractLsb' 6 5).toNat = nb.toNat / 64 % 32 := by
    simp [BitVec.extractLsb'_toNat, Nat.shiftRight_eq_div_pow]
  have hshift : (nb >>> 11).toNat = nb.toNat / 2048 := by
    simp [BitVec.toNat_ushiftRight, Nat.shiftRight_eq_div_pow]
  simp only [scaleDet, hentry, hshift, asr, shl]
  by_cases hle : nb.toNat / 2048 ≤ base
  · have hright : ((base : Int) - (nb.toNat / 2048 : Nat)).toNat = base - nb.toNat / 2048 := by omega
    rw [if_neg (by omega), if_pos hle, hright]
    rfl
  · have hleft : (-((base : Int) - (nb.toNat / 2048 : Nat))).toNat = nb.toNat / 2048 - base := by omega
    rw [if_pos (by omega), if_neg hle, hleft]
    rfl

theorem scaleDet_emod_four (t : Tables) (base : Nat) (nb : Reg15) : scaleDet t base nb % 4 = 0 := by
  rw [scaleDet_eq]
  exact Int.mul_emod_left _ 4

theorem two_pow_le_2048 {n : Nat} (h : n ≤ 11) : (2 : Int) ^ n ≤ 2048 :=
  have hmono : (2 : Int) ^ n ≤ 2 ^ 11 := pow_le_pow_right₀ (by decide) h
  hmono

/-- The right shift loses no more than `base` bits of an entry of at least 2^11. -/
theorem scaleDet_bounds_of_le {t : Tables} (hilb : ∀ i : Fin 32, 2048 ≤ t.ilb[i] ∧ t.ilb[i] ≤ 4095)
    {base : Nat} (hbase : base ≤ 11) {nb : Reg15} (h : nb.toNat / 2048 ≤ base) :
    2 ^ (11 - base) * 4 ≤ scaleDet t base nb ∧ scaleDet t base nb ≤ 16380 := by
  have hentry : nb.toNat / 64 % 32 < 32 := Nat.mod_lt _ (by decide)
  obtain ⟨hlo, hhi⟩ : 2048 ≤ t.ilb[nb.toNat / 64 % 32] ∧ t.ilb[nb.toNat / 64 % 32] ≤ 4095 := hilb ⟨_, hentry⟩
  have hpow : (2 : Int) ^ (11 - base) * 2 ^ (base - nb.toNat / 2048) ≤ 2048 := by
    rw [← pow_add]
    exact two_pow_le_2048 (by omega)
  have hmin : (2 : Int) ^ (11 - base) ≤ t.ilb[nb.toNat / 64 % 32] / 2 ^ (base - nb.toNat / 2048) :=
    (Int.le_ediv_iff_mul_le (by positivity)).mpr (hpow.trans hlo)
  have hmax : t.ilb[nb.toNat / 64 % 32] / 2 ^ (base - nb.toNat / 2048) ≤ t.ilb[nb.toNat / 64 % 32] :=
    Int.ediv_le_self _ (by omega)
  rw [scaleDet_eq]
  simp only [if_pos h]
  omega

/-- The one left shift, by one bit, at the top of the range of `Nb`; its entry is the first of the table. -/
theorem scaleDet_top (t : Tables) {base : Nat} {nb : Reg15} (h : nb.toNat = 2048 * (base + 1)) :
    scaleDet t base nb = t.ilb[0] * 8 := by
  have hshift : nb.toNat / 2048 = base + 1 := by omega
  have hentry : nb.toNat / 64 % 32 = 0 := by omega
  rw [scaleDet_eq]
  simp only [hshift, hentry, show ¬ base + 1 ≤ base by omega, if_false, Nat.add_sub_cancel_left]
  omega

/-- "the left-shift branch is taken only for" the greatest value `Nb` takes (R186, R215). -/
theorem base_lt_div_iff {base n : Nat} (h : n ≤ 2048 * (base + 1)) : base < n / 2048 ↔ n = 2048 * (base + 1) := by
  omega

/-- With any table set of the shape of R77 the step size fits 15 bits over the whole range of `Nb`. -/
theorem scaleDet_fits {t : Tables} (ht : TablesOk t) {base : Nat} (hbase : base ≤ 11) {nb : Reg15}
    (h : nb.toNat ≤ 2048 * (base + 1)) : 0 ≤ scaleDet t base nb ∧ scaleDet t base nb < 32768 := by
  obtain hle | hlt := le_or_gt (nb.toNat / 2048) base
  · obtain ⟨hlo, hhi⟩ := scaleDet_bounds_of_le ht.ilb hbase hle
    have hpos : (0 : Int) ≤ 2 ^ (11 - base) * 4 := by positivity
    omega
  · obtain ⟨hlo, hhi⟩ : 2048 ≤ t.ilb[0] ∧ t.ilb[0] ≤ 4095 := ht.ilb 0
    rw [scaleDet_top t ((base_lt_div_iff h).mp hlt)]
    omega

theorem defaultTables_ilb_bounds : ∀ i : Fin 32, 2048 ≤ defaultTables.ilb[i] ∧ defaultTables.ilb[i] ≤ 4095 := by
  decide

/-- With the listed tables the step size is at least that of `Nb` = 0 and at most that of the top of the range. -/
theorem scaleDet_default_bounds {base : Nat} (hbase : base ≤ 11) {nb : Reg15} (h : nb.toNat ≤ 2048 * (base + 1)) :
    2 ^ (11 - base) * 4 ≤ scaleDet defaultTables base nb ∧ scaleDet defaultTables base nb ≤ 16384 := by
  obtain hle | hlt := le_or_gt (nb.toNat / 2048) base
  · obtain ⟨hlo, hhi⟩ := scaleDet_bounds_of_le defaultTables_ilb_bounds hbase hle
    exact ⟨hlo, by omega⟩
  · have hpow : (2 : Int) ^ (11 - base) ≤ 2048 := two_pow_le_2048 (Nat.sub_le 11 base)
    have hfirst : defaultTables.ilb[0] = 2048 := rfl
    rw [scaleDet_top _ ((base_lt_div_iff h).mp hlt), hfirst]
    omega

/-! ### The adaptation (R187) -/

/-- R187, R184: `dlow` is the quotient by 2^15 with the old `Det`; then `Nb` and `Det` are the two registers written before
BLOCK4. -/
theorem lowAdapt_eq (t : Tables) (b : Band) (ril : BitVec 4) :
    lowAdapt t b ril =
      block4 { b with nb := (logscl t b ril).nb, det := toReg15 (scaleDet t 8 (logscl t b ril).nb) }
        ((b.det.toNat * t.qm4[ril.toNat]'ril.isLt : Int) / 32768) :=
  rfl

/-- Settles O32: `LOW_ADAPT` is BLOCK4 on a bank whose `Nb` and `Det` are the values computed, because both fit their
registers; the listed tables give the range of `Det`. -/
theorem lowAdaptSequence : Obligations.LowAdaptSequence := by
  refine ⟨fun t b ril ht => ⟨_, _, logscl_nb_toNat t b ril, ?_, lowAdapt_eq t b ril⟩, by decide, fun nb hnb => ?_,
    by decide, fun ril => logscl_constructed_nb_of_neg (t := defaultTables) 32⟩
  · exact (toReg15_toNat (scaleDet_fits ht (base := 8) (by decide) (logscl_nb_le t b ril))).trans (scaleDet_eq t 8 _)
  · obtain ⟨hlo, hhi⟩ := scaleDet_default_bounds (base := 8) (by decide) hnb
    exact ⟨hlo, hhi, scaleDet_emod_four _ 8 nb, base_lt_div_iff (base := 8) hnb⟩

/-! ### The low-band decoder (R189 to R191) -/

/-- R190: what the three widths keep of the low field, as a remainder. -/
theorem invqblEntry_eq (t : Tables) (bits : CodeBits) (field : BitVec 6) :
    invqblEntry t bits field = match bits with
      | .eight => t.qm6[field.toNat]'field.isLt
      | .seven => t.qm5[field.toNat % 32]'(Nat.mod_lt _ (by decide))
      | .six => t.qm4[field.toNat % 16]'(Nat.mod_lt _ (by decide)) := by
  cases bits <;> simp [invqblEntry]

/-- R190, R184: at `BITS` = 6 the decoder reads the entry the adaptation reads. -/
theorem invqbl_six_setWidth (t : Tables) (b : Band) (ril : BitVec 4) :
    invqbl t .six b (ril.setWidth 6) = invqal t b ril := by
  have hfield : (ril.setWidth 6).setWidth 4 = ril := by simp
  simp only [invqbl, invqblEntry, hfield, invqal]

/-- Settles O33: both results of `LOW_DEC` are computed from the bank it is given, and only the table entry depends on
`BITS`. -/
theorem lowDecReconstructs : Obligations.LowDecReconstructs := by
  refine ⟨fun t b field ril bits => ?_, invqbl_six_setWidth⟩
  cases bits <;> simp [lowDec, limitRecon, invqbl, invqblEntry_eq, asr]

/-! ### The sub-band encoders (R188, R217) -/

/-- Settles O34: the two coders are defined as quantizer, then adaptation; the worked examples are closed facts about the
listed tables, evaluated. -/
theorem subBandEncodersAdapt : Obligations.SubBandEncodersAdapt :=
  ⟨fun _ _ _ => ⟨rfl, rfl⟩, fun _ _ _ => ⟨rfl, rfl⟩, by decide⟩

end Sys2Proof.Machine

/-! PROOFS. Family 43_highband_adpcm.md: the quantizer QUANTH and the adaptation HIGH_ADAPT (R210 to R216). The step size
with shift base 10 is the case of the lemmas on `scaleDet` that the low band uses with base 8. -/

namespace Sys2Proof.Machine

/-! ### The log scale factor and the adaptation (R213 to R216) -/

/-- R214: the clamp keeps the leak plus the increment within 15 bits, so `Nb` holds it unchanged. -/
theorem logsch_nb_toNat (t : Tables) (b : Band) (ihigh : BitVec 2) :
    ((logsch t b ihigh).nb.toNat : Int) =
      clamp ((b.nb.toNat * 127 : Int) / 128 + t.wh[t.rh2[ihigh.toNat]'ihigh.isLt]) 0 22528 :=
  have ⟨hlo, hhi⟩ := clamp_bounds (asr (b.nb.toNat * 127) 7 + t.wh[t.rh2[ihigh.toNat]'ihigh.isLt])
    (show (0 : Int) ≤ 22528 by decide)
  toReg15_toNat ⟨hlo, hhi.trans_lt (by decide)⟩

/-- R215: the step size of the new `Nb` fits 15 bits, so `Det` holds it unchanged. -/
theorem scaleh_logsch_det_toNat {t : Tables} (ht : TablesOk t) (b : Band) (ihigh : BitVec 2) :
    ((scaleh t (logsch t b ihigh)).det.toNat : Int) = scaleDet t 10 (logsch t b ihigh).nb :=
  toReg15_toNat (scaleDet_fits ht (base := 10) (by decide) (logsch_nb_le t b ihigh))

/-- R213, R216: `dhigh` is the quotient by 2^15 with the old `Det`; then `Nb` and `Det` are the two registers written before
BLOCK4. -/
theorem highAdapt_eq (t : Tables) (b : Band) (ihigh : BitVec 2) :
    highAdapt t b ihigh =
      block4 { b with nb := (logsch t b ihigh).nb, det := (scaleh t (logsch t b ihigh)).det }
        ((b.det.toNat * t.qm2[ihigh.toNat]'ihigh.isLt : Int) / 32768) :=
  rfl

/-- Settles O36: `HIGH_ADAPT` is BLOCK4 on a bank whose `Nb` and `Det` are the values computed, because both fit their
registers; the listed tables give the range of `Det`, and the printed values are evaluated. -/
theorem highAdaptSequence : Obligations.HighAdaptSequence := by
  refine ⟨fun t b ihigh ht => ⟨_, _, logsch_nb_toNat t b ihigh, ?_, highAdapt_eq t b ihigh⟩, by decide, fun nb hnb => ?_,
    by decide, by decide⟩
  · exact (scaleh_logsch_det_toNat ht b ihigh).trans (scaleDet_eq t 10 _)
  · obtain ⟨hlo, hhi⟩ := scaleDet_default_bounds (base := 10) (by decide) hnb
    exact ⟨hlo, hhi, scaleDet_emod_four _ 10 nb, base_lt_div_iff (base := 10) hnb⟩

/-! ### The quantizer (R210 to R212) -/

/-- R210, R211, R212: the threshold is the quotient by 2^12, and equality with it takes level 2. -/
theorem quanth_eq (p : Params) (b : Band) (xhigh : Int) :
    let eh := sat16 (xhigh - b.s.toInt)
    let mih : Fin 3 := if mag p.negMag eh ≥ (564 * b.det.toNat : Int) / 4096 then 2 else 1
    quanth p b xhigh = if eh ≥ 0 then p.tables.ihp[mih] else p.tables.ihn[mih] :=
  rfl

/-- R75: `ihp` at the two levels. -/
theorem default_ihp_level (outer : Prop) [Decidable outer] :
    defaultTables.ihp[(if outer then 2 else 1 : Fin 3)] = if outer then 2 else 3 := by
  split_ifs <;> rfl

/-- R76: `ihn` at the two levels. -/
theorem default_ihn_level (outer : Prop) [Decidable outer] :
    defaultTables.ihn[(if outer then 2 else 1 : Fin 3)] = if outer then 0 else 1 := by
  split_ifs <;> rfl

/-- Settles O35: the quantizer by sign and level; the listed tables then give the code of each of the four cases. -/
theorem quanthPicksLevel : Obligations.QuanthPicksLevel := by
  refine ⟨quanth_eq, fun p b xhigh ht => ?_, by decide, by decide⟩
  have hcode := quanth_eq p b xhigh
  rw [ht] at hcode
  simpa only [default_ihp_level, default_ihn_level] using hcode

end Sys2Proof.Machine

/-! PROOFS. Family 44_qmf_filters.md: the synthesis bypass RX_BYPASS (R237). -/

namespace Sys2Proof.Machine

/-! ### The bypass samples (R237) -/

/-- R237: "the least significant bit of every emitted sample is 0", whatever the sample. -/
theorem toReg_shl_one_getLsbD_zero (v : Int) : (toReg (shl v 1)).getLsbD 0 = false := by
  have heven : (toReg (shl v 1)).toNat % 2 = 0 := by
    simp only [toReg, shl, BitVec.toNat_ofInt]
    omega
  simpa [BitVec.getLsbD, Nat.testBit_zero] using heven

/-- R136, R237: a doubled reconstructed sample fits its register. -/
theorem toReg_shl_one_toInt {v : Int} (h : -16384 ≤ v ∧ v ≤ 16383) : (toReg (shl v 1)).toInt = 2 * v := by
  have hdouble : shl v 1 = 2 * v := Int.mul_comm v 2
  rw [hdouble]
  exact toReg_toInt (by omega)

/-! ### The decoder with the bypass at its output (R279, R237) -/

/-- R279: in 8 kHz mode or ITU test mode the output stage is `RX_BYPASS`, and only the banks of the context change. -/
theorem decCode_bypass (p : Params) (c : Context) (code : BitVec 8) (h : c.cfg.itu = true ∨ c.cfg.eightk = true) :
    let low := lowDec p.tables c.cfg.bits c.band0 (codeField c.cfg.bits code) (codeRil c.cfg.bits code)
    let high := if c.cfg.eightk then (0, c.band1) else highDec p.tables c.band1 (codeHigh c.cfg.bits code)
    decCode p c code = (rxBypass c.cfg.itu low.1 high.1, { c with band0 := low.2, band1 := high.2 }) :=
  if_pos (by simpa using h)

/-- Settles O43: the doubled samples are even and fit their registers; the bypass case of `DEC_CODE` is a function of the
configuration and the banks alone, so the delay line passes through. -/
theorem rxBypassDoubles : Obligations.RxBypassDoubles := by
  refine ⟨fun rlow rhigh hl hl' hh hh' => ⟨⟨_, _, rfl, ?_⟩, ⟨_, rfl, ?_⟩⟩, fun p c code hitu heightk => ?_,
    fun p c code x hmode => ?_⟩
  · exact ⟨toReg_shl_one_toInt ⟨hl, hl'⟩, toReg_shl_one_toInt ⟨hh, hh'⟩, toReg_shl_one_getLsbD_zero rlow,
      toReg_shl_one_getLsbD_zero rhigh⟩
  · exact ⟨toReg_shl_one_toInt ⟨hl, hl'⟩, toReg_shl_one_getLsbD_zero rlow⟩
  · simp only [decCode_bypass p c code (.inl hitu), hitu, heightk, if_true]
  · rw [decCode_bypass p c code hmode, decCode_bypass p { c with x := x } code hmode]
    exact ⟨rfl, rfl, rfl⟩

end Sys2Proof.Machine

/-! PROOFS. Family 46_commands.md: what each command completes with, and what it refuses (R270 to R280). -/

namespace Sys2Proof

/-! ### Command words -/

/-- The fields of a word put together from fields are those fields. -/
theorem CmdWord.fields_ofFields (op m : BitVec 8) (arg : BitVec 32) :
    (CmdWord.ofFields op m arg).op = op ∧ (CmdWord.ofFields op m arg).modifier = m ∧
      (CmdWord.ofFields op m arg).arg = arg :=
  CmdWord.ofFields_inj.mp (CmdWord.ofFields_fields (CmdWord.ofFields op m arg))

theorem decodeFormatI_of_reserved {build : BitVec 32 → BitVec 8 → Instr} {w : CmdWord}
    (h : w.modifier.extractLsb' 2 6 ≠ 0) : decodeFormatI build w = .error .reservedOptions :=
  if_neg (by simpa [optionsOk] using h)

end Sys2Proof

namespace Sys2Proof.Machine

/-! ### Refusals -/

/-- R304: raising a fault is the refusal of a command, whole. -/
theorem raiseFault_eq_refusedState (k : Ctx) (code : FaultCode) (s : State) :
    raiseFault k code s = refusedState k code.toByte s := by
  have hsticky (st : Status) : stickyFault st code.toByte =
      { st with fault := if st.fault = 0 then code.toByte else st.fault } := by
    rw [← stickyFault_fault, ← stickyFault_constructed st code.toByte]
  simp only [raiseFault, recordFault, respond, refusedState, hsticky, setCtx_responses]

/-! ### The decoder data command (R278) -/

/-- One turn of the loop of `DEC_BYTE`: the samples of a codeword behind those already given. -/
def decCodeAppend (p : Params) (acc : List Reg16 × Context) (code : BitVec 8) : List Reg16 × Context :=
  (acc.1 ++ (decCode p acc.2 code).1, (decCode p acc.2 code).2)

/-- R278, R282: the recursion over the codewords is a left fold, whatever samples stand in front. -/
theorem foldl_decCodeAppend (p : Params) (codes : List (BitVec 8)) (out : List Reg16) (c : Context) :
    codes.foldl (decCodeAppend p) (out, c) = (out ++ (decCodes p codes c).1, (decCodes p codes c).2) := by
  induction codes generalizing out c with
  | nil => simp [decCodes_nil]
  | cons code rest ih => simp [decCodes_cons, decCodeAppend, ih]

theorem decByteResult_eq_foldl (p : Params) (c : Context) (b : Byte) :
    decByteResult p c b = (codesOfByte c b).1.foldl (decCodeAppend p) ([], (codesOfByte c b).2) := by
  rw [foldl_decCodeAppend]
  rfl

/-- Settles O14: the two outcomes of the command, with the fold over the codewords of the byte. -/
theorem decByteDecodesByte : Obligations.DecByteDecodesByte := by
  intro b s
  obtain ⟨hc, heq⟩ | ⟨hc, heq⟩ := execDecByte_cases b s
  · rw [raiseFault_eq_refusedState] at heq
    exact ⟨by simp [hc], fun _ => heq⟩
  · rw [decByteResult_eq_foldl] at heq
    exact ⟨fun _ => heq, by simp [hc]⟩

/-! ### The status command (R280, R108) -/

/-- The field above is the multiple of the weight of the field below it. -/
theorem toNat_append_eq_add {m n : Nat} (x : BitVec m) (y : BitVec n) :
    (x ++ y).toNat = x.toNat * 2 ^ n + y.toNat := by
  rw [BitVec.toNat_append, ← Nat.shiftLeft_add_eq_or_of_lt y.isLt, Nat.shiftLeft_eq]

theorem flagBit_toNat (f : Bool) : (flagBit f).toNat = f.toNat := BitVec.toNat_ofBool f

theorem bitsField_toNat (bits : CodeBits) : (BitVec.ofNat 4 bits.toNat).toNat = bits.toNat := by
  cases bits <;> rfl

/-- R108: a constructed context shows all its fields. -/
theorem statusWord_toNat_of_constructed {c : Context} (h : c.status.constructed = true) :
    (statusWord c).toNat =
      1 + 2 * c.cfg.eightk.toNat + 4 * c.cfg.packed.toNat + 8 * c.cfg.itu.toNat + 16 * c.cfg.bits.toNat
        + 256 * c.status.fault.toNat + 65536 * c.accBits.toNat := by
  simp only [statusWord, h, toNat_append_eq_add, flagBit_toNat, bitsField_toNat, if_true, Bool.true_and]
  simp only [BitVec.ofNat_eq_ofNat, BitVec.toNat_ofNat, Bool.toNat_true]
  omega

/-- R108: before construction every field but `FAULT` reads 0. -/
theorem statusWord_toNat_of_unconstructed {c : Context} (h : c.status.constructed = false) :
    (statusWord c).toNat = 256 * c.status.fault.toNat := by
  simp only [statusWord, h, toNat_append_eq_add, flagBit_toNat, Bool.false_eq_true, if_false, Bool.false_and,
    BitVec.ofNat_eq_ofNat, BitVec.toNat_ofNat, Bool.toNat_false]
  omega

/-- Settles O16: the command is `complete` on the unchanged state, and the status word is the sum of its fields. -/
theorem rdStatusAnswersStatusWord : Obligations.RdStatusAnswersStatusWord := by
  refine ⟨execRdStatus_eq, fun c => ?_⟩
  split_ifs with hc
  · exact statusWord_toNat_of_constructed hc
  · exact statusWord_toNat_of_unconstructed (Bool.eq_false_iff.mpr hc)

/-! ### The INIT commands (R270 to R274) -/

/-- R97, R306: any other rate is refused by every INIT command. -/
theorem exec_initCommand_of_badRate {rate : BitVec 32} (h8 : rate ≠ 64000) (h7 : rate ≠ 56000) (h6 : rate ≠ 48000)
    (k : Ctx) (itu : Bool) (options : BitVec 8) (s : State) :
    exec (initCommand k itu rate options) s = .next (refusedState k 1 s) := by
  have hnone : bitsOfRate rate = none := by rw [bitsOfRate, if_neg h8, if_neg h7, if_neg h6]
  rw [exec_initCommand, construct_none options itu s hnone, raiseFault_eq_refusedState]
  rfl

/-- R111: the word of an INIT command with a reserved option bit is rejected. -/
theorem decode_initOp_of_reserved (k : Ctx) (itu : Bool) (rate : BitVec 32) {options : BitVec 8}
    (h : options.extractLsb' 2 6 ≠ 0) :
    decode (CmdWord.ofFields (initOp k itu) options rate) = .error .reservedOptions := by
  obtain ⟨hop, hm, -⟩ := CmdWord.fields_ofFields (initOp k itu) options rate
  rw [← hm] at h
  have hI (build) := decodeFormatI_of_reserved (build := build) h
  rw [decode, hop, hI, hI, hI, hI]
  cases k <;> cases itu <;> rfl

/-- Settles O11: the three outcomes of the INIT commands, one lemma each. -/
theorem initCommandsConstruct : Obligations.InitCommandsConstruct := by
  refine ⟨fun k itu rate bits options s hrate => ?_, fun k itu rate options s h8 h7 h6 => ?_,
    fun k itu rate options => decode_initOp_of_reserved k itu rate⟩
  · rw [exec_initCommand_of_legal hrate, complete, respond, setCtx_responses]
    rfl
  · exact exec_initCommand_of_badRate h8 h7 h6 k itu options s

/-! ### The encoder data commands (R275, R276) -/

/-- R101: a right shift by 8 − `BITS` leaves `BITS` bits. -/
theorem assembleCode_lt (bits : CodeBits) (ihigh : BitVec 2) (ilow : BitVec 6) :
    (assembleCode bits ihigh ilow).toNat < 2 ^ bits.toNat := by
  have hwidth : 8 - (8 - bits.toNat) = bits.toNat := by cases bits <;> rfl
  rw [← hwidth]
  exact BitVec.toNat_ushiftRight_lt _ _ (Nat.sub_le 8 _)

theorem emit_of_unpacked {c : Context} (code : BitVec 8) (h : c.cfg.packed = false) : emit c code = ([code], c) := by
  simp [emit, emitByte, h]

theorem emit_of_packed {c : Context} (code : BitVec 8) (h : c.cfg.packed = true) : emit c code = pack c code := by
  simp [emit, h]

/-- R277, R252 in 8 kHz mode: the low band alone runs, then EMIT. -/
theorem encodeAndEmit_eightk (p : Params) {c : Context} (xlow xhigh : Int) (h : c.cfg.eightk = true) :
    let low := lowEnc p c.band0 xlow
    encodeAndEmit p c xlow xhigh = emit { c with band0 := low.2 } (assembleCode c.cfg.bits p.eightkHigh low.1) := by
  rw [encodeAndEmit, encCode_eightk _ _ h]

/-- R277, R252 in the two other modes: both bands run, then EMIT. -/
theorem encodeAndEmit_both (p : Params) {c : Context} (xlow xhigh : Int) (h : c.cfg.eightk = false) :
    let low := lowEnc p c.band0 xlow
    let high := highEnc p c.band1 xhigh
    encodeAndEmit p c xlow xhigh =
      emit { c with band0 := low.2, band1 := high.2 } (assembleCode c.cfg.bits high.1 low.1) := by
  rw [encodeAndEmit, encCode_both _ _ h]

/-- R275: a pair enters the delay line, and both bands run on the two analysis outputs. -/
theorem encPairResult_eq (p : Params) {c : Context} (s0 s1 : BitVec 16) (h : c.cfg.eightk = false) :
    let x := qmfShift c.x s0 s1
    let low := lowEnc p c.band0 (asr (sumE p x + sumO p x) 14)
    let high := highEnc p c.band1 (asr (sumO p x - sumE p x) 14)
    encPairResult p c s0 s1 =
      emit { c with x := x, band0 := low.2, band1 := high.2 } (assembleCode c.cfg.bits high.1 low.1) :=
  encodeAndEmit_both p (c := { c with x := qmfShift c.x s0 s1 }) _ _ h

/-- R235, R276: a sample goes halved to both inputs of the encoder. -/
theorem encSampleResult_eq (p : Params) (c : Context) (smp : BitVec 16) :
    encSampleResult p c smp = encodeAndEmit p c (asr smp.toInt 1) (asr smp.toInt 1) := rfl

/-- Settles O12: EMIT by `PACKED`, the width of the codeword, and the three outcomes of the command. -/
theorem encPairEncodesPair : Obligations.EncPairEncodesPair := by
  refine ⟨fun c code => ⟨emit_of_unpacked code, emit_of_packed code⟩, assembleCode_lt, fun s0 s1 s => ?_⟩
  obtain ⟨hc, heq⟩ | ⟨hc, hmode, heq⟩ | ⟨hc, heightk, hitu, heq⟩ := execEncPair_cases s0 s1 s
  · rw [raiseFault_eq_refusedState] at heq
    exact ⟨by simp [hc], fun _ => heq, by simp [hc]⟩
  · rw [raiseFault_eq_refusedState] at heq
    exact ⟨fun _ heightk hitu => by simp [heightk, hitu] at hmode, by simp [hc], fun _ _ => heq⟩
  · rw [encPairResult_eq _ _ _ heightk] at heq
    exact ⟨fun _ _ _ => heq, by simp [hc], by simp [heightk, hitu]⟩

/-- Settles O13: the three outcomes of the command; where it completes, the mode selects the bands that run. -/
theorem encSampleEncodesSample : Obligations.EncSampleEncodesSample := by
  intro smp s
  obtain ⟨hc, heq⟩ | ⟨hc, heightk, hitu, heq⟩ | ⟨hc, hmode, heq⟩ := execEncSample_cases smp s
  · rw [raiseFault_eq_refusedState] at heq
    exact ⟨by simp [hc], by simp [hc], fun _ => heq, by simp [hc]⟩
  · rw [raiseFault_eq_refusedState] at heq
    exact ⟨by simp [heightk], by simp [hitu], by simp [hc], fun _ _ _ => heq⟩
  · refine ⟨fun _ heightk => ?_, fun _ heightk _ => ?_, by simp [hc],
      fun _ heightk hitu => by simp [heightk, hitu] at hmode⟩
    · rw [heq, encSampleResult_eq, encodeAndEmit_eightk _ _ _ heightk]
      rfl
    · rw [heq, encSampleResult_eq, encodeAndEmit_both _ _ _ heightk]
      rfl

/-! ### The decoder's output stages (R279) -/

/-- R279 in full-band mode: both banks and the delay line advance, and the output stage is `QMF_RX` (R236). -/
theorem decCode_fullBand (p : Params) (c : Context) (code : BitVec 8) (heightk : c.cfg.eightk = false)
    (hitu : c.cfg.itu = false) :
    let low := lowDec p.tables c.cfg.bits c.band0 (codeField c.cfg.bits code) (codeRil c.cfg.bits code)
    let high := highDec p.tables c.band1 (codeHigh c.cfg.bits code)
    decCode p c code = ((qmfRx p c.x low.1 high.1).2,
      { c with band0 := low.2, band1 := high.2, x := (qmfRx p c.x low.1 high.1).1 }) := by
  simp [decCode, heightk, hitu]

/-- Settles O15: `QMF_RX` in full-band mode; in the three others the bypass, which doubles what the bands reconstruct,
with 0 for the high band that 8 kHz mode does not run. -/
theorem decCodeDecodesCodeword : Obligations.DecCodeDecodesCodeword := by
  refine fun p c code => ⟨decCode_fullBand p c code, fun heightk hitu => ?_, fun heightk hitu => ?_,
    fun heightk hitu => ?_⟩
  · rw [decCode_bypass p c code (.inl hitu), hitu, heightk]
    rfl
  · rw [decCode_bypass p c code (.inr heightk), hitu, heightk]
    rfl
  · rw [decCode_bypass p c code (.inr heightk), hitu, heightk]
    rfl

end Sys2Proof.Machine

/-! PROOFS. Family 60_exceptions.md: illegal words (R305), precise faults (R304), continuation after a fault (R309). -/

namespace Sys2Proof.Machine

/-! ### Illegal words (R305) -/

theorem illegalCtx_eq_enc_iff (op : BitVec 8) : illegalCtx op = some .enc ↔ 0x10 ≤ op.toNat ∧ op.toNat ≤ 0x13 := by
  unfold illegalCtx
  split_ifs <;> simp [*]

theorem illegalCtx_eq_dec_iff (op : BitVec 8) : illegalCtx op = some .dec ↔ 0x20 ≤ op.toNat ∧ op.toNat ≤ 0x22 := by
  unfold illegalCtx
  split_ifs
  · simp only [Option.some.injEq, reduceCtorEq, false_iff]
    omega
  · simp [*]
  · simp [*]

theorem step_of_decode_error {s : State} {w : CmdWord} {rest : List CmdWord} {e : DecodeError}
    (hp : s.pending = w :: rest) (he : decode w = .error e) :
    step s = .next (raiseIllegal w { s with pending := rest }) := by
  simp [step, takeCommand, hp, he]

/-- Settles O6: the three choices of the recording context, and the four words of the rule by evaluation. -/
theorem illegalWordRaisesIllegalCmd : Obligations.IllegalWordRaisesIllegalCmd := by
  refine ⟨fun s w rest e hp he => ?_, ?_⟩
  · simp only [step_of_decode_error hp he, ← illegalCtx_eq_enc_iff, ← illegalCtx_eq_dec_iff]
    obtain ⟨hctx, heq⟩ | ⟨hctx, heq⟩ | ⟨hctx, heq⟩ := raiseIllegal_cases w { s with pending := rest }
    · rw [heq, raiseFault_eq_refusedState, ← CmdWord.op, hctx]
      rfl
    · rw [heq, raiseFault_eq_refusedState, ← CmdWord.op, hctx]
      rfl
    · rw [heq, ← CmdWord.op, hctx]
      rfl
  · simp only [List.forall_mem_cons, List.not_mem_nil, false_implies, implies_true, and_true]
    exact ⟨⟨.reservedOptions, rfl⟩, ⟨.reservedArgument, rfl⟩, ⟨.unassignedOpcode, rfl⟩, ⟨.reservedModifier, rfl⟩⟩

/-! ### What a command can do -/

/-- The context a command runs on; `RD_STATUS` has none, it only reads one. -/
def Addresses (i : Instr) (k : Ctx) : Prop :=
  (k = .enc ∧ encoderCommand i = true) ∨ (k = .dec ∧ decoderCommand i = true)

theorem Addresses.eq_enc {i : Instr} {k : Ctx} (h : Addresses i k) (henc : encoderCommand i = true) : k = .enc := by
  obtain ⟨rfl, -⟩ | ⟨-, hdec⟩ := h
  · rfl
  · cases i <;> simp [encoderCommand, decoderCommand] at henc hdec

theorem Addresses.eq_dec {i : Instr} {k : Ctx} (h : Addresses i k) (hdec : decoderCommand i = true) : k = .dec := by
  obtain ⟨-, henc⟩ | ⟨rfl, -⟩ := h
  · cases i <;> simp [encoderCommand, decoderCommand] at henc hdec
  · rfl

theorem addresses_initCommand (k : Ctx) (itu : Bool) (rate : BitVec 32) (options : BitVec 8) :
    Addresses (initCommand k itu rate options) k := by
  cases k <;> cases itu <;> simp [Addresses, initCommand, encoderCommand, decoderCommand]

theorem constructs_initCommand (k : Ctx) (itu : Bool) (rate : BitVec 32) (options : BitVec 8) :
    constructs (initCommand k itu rate options) = (bitsOfRate rate).map fun _ => k := by
  cases k <;> cases itu <;> rfl

theorem setCtx_ctx_self (s : State) (k : Ctx) : s.setCtx k (s.ctx k) = s := by
  cases k <;> rfl

theorem ctx_setCtx_of_ne {k k' : Ctx} (h : k' ≠ k) (s : State) (c : Context) : (s.setCtx k c).ctx k' = s.ctx k' := by
  cases k <;> cases k'
  · exact absurd rfl h
  · rfl
  · rfl
  · exact absurd rfl h

@[simp] theorem raiseFault_responses (k : Ctx) (code : FaultCode) (s : State) :
    (raiseFault k code s).responses = s.responses ++ [⟨code.toByte, []⟩] := by
  rw [raiseFault, respond_responses, recordFault, setCtx_responses]

@[simp] theorem complete_setCtx_responses (out : List OutItem) (s : State) (k : Ctx) (c : Context) :
    (complete out (s.setCtx k c)).responses = s.responses ++ [⟨0, out⟩] := by
  rw [complete_responses, setCtx_responses]

/-- The three ways a command on `s` ends (R304, R270, R109), with the state after: refused, its context constructed, or
completed with that context's `STATUS` as it was. -/
inductive CommandEnd (i : Instr) (s : State) : State → Prop
  | refused {k : Ctx} {code : FaultCode} (haddr : Addresses i k) (hno : constructs i = none) :
      CommandEnd i s (raiseFault k code s)
  | constructed {k : Ctx} (cfg : Cfg) (hk : constructs i = some k) :
      CommandEnd i s (complete [] (s.setCtx k (Context.constructed cfg)))
  | completed {k : Ctx} {c : Context} (out : List OutItem) (hstatus : c.status = (s.ctx k).status)
      (hno : constructs i = none) : CommandEnd i s (complete out (s.setCtx k c))

theorem initCommand_end (k : Ctx) (itu : Bool) (rate : BitVec 32) (options : BitVec 8) (s : State) :
    ∃ t, exec (initCommand k itu rate options) s = .next t ∧ CommandEnd (initCommand k itu rate options) s t := by
  refine ⟨_, exec_initCommand k itu rate options s, ?_⟩
  have hcons := constructs_initCommand k itu rate options
  cases hr : bitsOfRate rate with
  | none =>
    rw [construct_none _ _ _ hr]
    exact .refused (addresses_initCommand k itu rate options) (by rw [hcons, hr]; rfl)
  | some bits =>
    rw [construct_some _ _ _ hr]
    exact .constructed _ (by rw [hcons, hr]; rfl)

/-- R286: every command answers a next state, in one of the three ways. -/
theorem exec_end (i : Instr) (s : State) : ∃ t, exec i s = .next t ∧ CommandEnd i s t := by
  cases i with
  | encInit rate options => exact initCommand_end .enc false rate options s
  | encInitT rate options => exact initCommand_end .enc true rate options s
  | decInit rate options => exact initCommand_end .dec false rate options s
  | decInitT rate options => exact initCommand_end .dec true rate options s
  | encPair s0 s1 =>
    obtain ⟨-, heq⟩ | ⟨-, -, heq⟩ | ⟨-, -, -, heq⟩ := execEncPair_cases s0 s1 s
    · exact ⟨_, heq, .refused (.inl ⟨rfl, rfl⟩) rfl⟩
    · exact ⟨_, heq, .refused (.inl ⟨rfl, rfl⟩) rfl⟩
    · obtain ⟨b0, b1, x, buf, n, hframe⟩ := encPairResult_frame s.params s.enc s0 s1
      exact ⟨_, heq, .completed (k := .enc) _ (by rw [hframe]; rfl) rfl⟩
  | encSample smp =>
    obtain ⟨-, heq⟩ | ⟨-, -, -, heq⟩ | ⟨-, -, heq⟩ := execEncSample_cases smp s
    · exact ⟨_, heq, .refused (.inl ⟨rfl, rfl⟩) rfl⟩
    · exact ⟨_, heq, .refused (.inl ⟨rfl, rfl⟩) rfl⟩
    · obtain ⟨b0, b1, buf, n, hframe⟩ := encSampleResult_frame s.params s.enc smp
      exact ⟨_, heq, .completed (k := .enc) _ (by rw [hframe]; rfl) rfl⟩
  | decByte b =>
    obtain ⟨-, heq⟩ | ⟨-, heq⟩ := execDecByte_cases b s
    · exact ⟨_, heq, .refused (.inr ⟨rfl, rfl⟩) rfl⟩
    · obtain ⟨b0, b1, x, buf, n, hframe⟩ := decByteResult_frame s.params s.dec b
      exact ⟨_, heq, .completed (k := .dec) _ (by rw [hframe]; rfl) rfl⟩
  | rdStatus k =>
    have hend := CommandEnd.completed (i := .rdStatus k) (s := s) (k := k) (c := s.ctx k)
      [.word (statusWord (s.ctx k))] rfl rfl
    rw [setCtx_ctx_self] at hend
    exact ⟨_, execRdStatus_eq k s, hend⟩

theorem commandEnd_of_exec {i : Instr} {s t : State} (h : exec i s = .next t) : CommandEnd i s t := by
  obtain ⟨u, hu, hend⟩ := exec_end i s
  cases hu.symm.trans h
  exact hend

/-! ### Precise faults (R304) -/

/-- The response a command appends is determined by the list after it. -/
theorem response_eq_of_append {rs : List Response} {r r' : Response} (h : rs ++ [r] = rs ++ [r']) : r = r' :=
  List.singleton_inj.mp (List.append_cancel_left h)

/-- A command that answers a nonzero code was refused, for the two other ends answer 0. -/
theorem CommandEnd.eq_refusedState {i : Instr} {s t : State} {code : BitVec 8} {out : List OutItem}
    (h : CommandEnd i s t) (hresp : t.responses = s.responses ++ [⟨code, out⟩]) (hcode : code ≠ 0) :
    ∃ k, Addresses i k ∧ t = refusedState k code s := by
  cases h with
  | refused haddr =>
    rw [raiseFault_responses] at hresp
    cases response_eq_of_append hresp
    exact ⟨_, haddr, raiseFault_eq_refusedState _ _ _⟩
  | constructed =>
    rw [complete_setCtx_responses] at hresp
    cases response_eq_of_append hresp
    exact absurd rfl hcode
  | completed =>
    rw [complete_setCtx_responses] at hresp
    cases response_eq_of_append hresp
    exact absurd rfl hcode

/-- Settles O17: only a refusal answers a nonzero code. -/
theorem faultsArePrecise : Obligations.FaultsArePrecise := by
  intro i s t code out hexec hresp hcode
  obtain ⟨k, haddr, ht⟩ := (commandEnd_of_exec hexec).eq_refusedState hresp hcode
  exact ⟨k, haddr.eq_enc, haddr.eq_dec, ht⟩

/-! ### The life of a sticky code (R309) -/

theorem recordFault_ctx_fault_of_ne_zero {s : State} {c : Ctx} (h : (s.ctx c).status.fault ≠ 0) (k : Ctx)
    (code : FaultCode) : ((recordFault k code s).ctx c).status.fault = (s.ctx c).status.fault := by
  by_cases hck : c = k
  · subst hck
    rw [recordFault, ctx_setCtx_same, stickyFault_fault, if_neg h]
  · rw [recordFault, ctx_setCtx_of_ne hck]

/-- A code that is there stays, but where the command constructs the context. -/
theorem CommandEnd.fault_eq {i : Instr} {s t : State} {c : Ctx} (hend : CommandEnd i s t) (hno : constructs i ≠ some c)
    (h : (s.ctx c).status.fault ≠ 0) : (t.ctx c).status.fault = (s.ctx c).status.fault := by
  cases hend with
  | refused =>
    rw [raiseFault, respond_ctx]
    exact recordFault_ctx_fault_of_ne_zero h _ _
  | @constructed k cfg hk =>
    have hck : c ≠ k := by
      rintro rfl
      exact hno hk
    rw [complete_ctx, ctx_setCtx_of_ne hck]
  | @completed k d out hstatus =>
    rw [complete_ctx]
    by_cases hck : c = k
    · subst hck
      rw [ctx_setCtx_same, hstatus]
    · rw [ctx_setCtx_of_ne hck]

/-- R270: construction clears the code. -/
theorem CommandEnd.fault_eq_zero {i : Instr} {s t : State} {c : Ctx} (hend : CommandEnd i s t)
    (hc : constructs i = some c) : (t.ctx c).status.fault = 0 := by
  cases hend with
  | refused haddr hno => rw [hno] at hc; cases hc
  | constructed cfg hk =>
    cases hk.symm.trans hc
    rw [complete_ctx, ctx_setCtx_same]
    rfl
  | completed out hstatus hno => rw [hno] at hc; cases hc

/-! ### The stages of the commands are blind to `STATUS` -/

/-- A context with another `STATUS`. -/
abbrev Context.withStatus (c : Context) (st : Status) : Context := { c with status := st }

/-- A stage of a command that neither reads nor writes `STATUS` of its context. -/
def StatusBlind {α : Type} (g : Context → α × Context) : Prop :=
  ∀ (c : Context) (st : Status), g (c.withStatus st) = ((g c).1, (g c).2.withStatus st)

/-- Stages in sequence, the second on what the first gives. -/
theorem StatusBlind.bind {α β : Type} {g : Context → α × Context} {f : α → Context → β × Context}
    (hg : StatusBlind g) (hf : ∀ a, StatusBlind (f a)) : StatusBlind fun c => f (g c).1 (g c).2 := by
  intro c st
  simp only [hg c st, hf _ _ st]

theorem pack_statusBlind (code : BitVec 8) : StatusBlind fun c => pack c code := by
  intro c st
  simp only [pack]
  split_ifs <;> rfl

theorem emit_statusBlind (code : BitVec 8) : StatusBlind fun c => emit c code := by
  intro c st
  simp only [emit]
  split_ifs
  · exact pack_statusBlind code c st
  · rfl

theorem codesOfByte_statusBlind (b : Byte) : StatusBlind fun c => codesOfByte c b := by
  intro c st
  simp only [codesOfByte]
  split_ifs <;> rfl

theorem encCode_statusBlind (p : Params) (xlow xhigh : Int) : StatusBlind fun c => encCode p c xlow xhigh := by
  intro c st
  simp only [encCode]
  split_ifs <;> rfl

theorem encodeAndEmit_statusBlind (p : Params) (xlow xhigh : Int) :
    StatusBlind fun c => encodeAndEmit p c xlow xhigh :=
  (encCode_statusBlind p xlow xhigh).bind emit_statusBlind

theorem encPairResult_statusBlind (p : Params) (s0 s1 : BitVec 16) : StatusBlind fun c => encPairResult p c s0 s1 := by
  intro c st
  simp only [encPairResult]
  exact encodeAndEmit_statusBlind p _ _ { c with x := (qmfTx p c.x s0 s1).1 } st

theorem encSampleResult_statusBlind (p : Params) (smp : BitVec 16) : StatusBlind fun c => encSampleResult p c smp :=
  encodeAndEmit_statusBlind p _ _

theorem decCode_statusBlind (p : Params) (code : BitVec 8) : StatusBlind fun c => decCode p c code := by
  intro c st
  simp only [decCode]
  split_ifs <;> rfl

theorem decCodes_statusBlind (p : Params) (codes : List (BitVec 8)) : StatusBlind fun c => decCodes p codes c := by
  induction codes with
  | nil => exact fun _ _ => rfl
  | cons code rest ih =>
    intro c st
    simp only [decCodes_cons, decCode_statusBlind p code c st, ih _ st]

theorem decByteResult_statusBlind (p : Params) (b : Byte) : StatusBlind fun c => decByteResult p c b :=
  (codesOfByte_statusBlind b).bind (decCodes_statusBlind p)

/-! ### Contexts that differ in the sticky code only -/

theorem clearFault_withStatus {c : Context} {st : Status} (h : st.constructed = c.status.constructed) :
    (c.withStatus st).clearFault = c.clearFault := by
  simp [Context.clearFault, h]

theorem clearFault_stickyFault (c : Context) (code : BitVec 8) :
    (c.withStatus (stickyFault c.status code)).clearFault = c.clearFault :=
  clearFault_withStatus (stickyFault_constructed _ _)

theorem eq_withStatus_of_clearFault_eq {c c' : Context} (h : c.clearFault = c'.clearFault) :
    c' = c.withStatus c'.status := by
  cases c
  cases c'
  simp_all [Context.clearFault]

theorem constructed_eq_of_clearFault_eq {c c' : Context} (h : c.clearFault = c'.clearFault) :
    c.status.constructed = c'.status.constructed :=
  congrArg (·.status.constructed) h

theorem cfg_eq_of_clearFault_eq {c c' : Context} (h : c.clearFault = c'.clearFault) : c.cfg = c'.cfg :=
  congrArg (·.cfg) h

theorem StatusBlind.snd_status {α : Type} {g : Context → α × Context} (hg : StatusBlind g) (c : Context) :
    (g c).2.status = c.status :=
  congrArg (·.2.status) (hg c c.status)

/-- A stage blind to `STATUS` gives the same from two such contexts and leaves two such contexts. -/
theorem StatusBlind.eq_of_clearFault_eq {α : Type} {g : Context → α × Context} (hg : StatusBlind g) {c c' : Context}
    (h : c.clearFault = c'.clearFault) : (g c).1 = (g c').1 ∧ (g c).2.clearFault = (g c').2.clearFault := by
  have hcons : c'.status.constructed = (g c).2.status.constructed := by
    rw [hg.snd_status, constructed_eq_of_clearFault_eq h]
  rw [eq_withStatus_of_clearFault_eq h, hg c c'.status]
  exact ⟨rfl, (clearFault_withStatus hcons).symm⟩

/-! ### States that differ in the sticky codes and the responses only -/

/-- The relation of R309: all but the sticky codes and the responses given so far agree. -/
structure SameButFaults (s s' : State) : Prop where
  enc : s.enc.clearFault = s'.enc.clearFault
  dec : s.dec.clearFault = s'.dec.clearFault
  params : s.params = s'.params
  pending : s.pending = s'.pending

namespace SameButFaults

variable {s s' : State}

theorem ctx (h : SameButFaults s s') (k : Ctx) : (s.ctx k).clearFault = (s'.ctx k).clearFault := by
  cases k
  · exact h.enc
  · exact h.dec

theorem setCtx (h : SameButFaults s s') (k : Ctx) {c c' : Context} (hc : c.clearFault = c'.clearFault) :
    SameButFaults (s.setCtx k c) (s'.setCtx k c') := by
  cases k
  · exact ⟨hc, h.dec, h.params, h.pending⟩
  · exact ⟨h.enc, hc, h.params, h.pending⟩

theorem respond (h : SameButFaults s s') (r r' : Response) : SameButFaults (respond r s) (respond r' s') :=
  ⟨h.enc, h.dec, h.params, h.pending⟩

end SameButFaults

/-- The state after a refusal differs from the state before in the sticky code and the response only. -/
theorem sameButFaults_refusedState (k : Ctx) (code : BitVec 8) (s : State) :
    SameButFaults s (refusedState k code s) := by
  cases k <;> exact ⟨rfl, rfl, rfl, rfl⟩

/-- Two commands' ends that answer alike: related states, with one response appended to both lists. -/
def AnswerAlike (s s' : State) (o o' : Host.Outcome State Fault Refusal) : Prop :=
  ∃ t t' r, o = .next t ∧ o' = .next t' ∧ SameButFaults t t' ∧
    t.responses = s.responses ++ [r] ∧ t'.responses = s'.responses ++ [r]

section Alike

variable {s s' : State}

theorem answerAlike_raiseFault (h : SameButFaults s s') (k : Ctx) (code : FaultCode) :
    AnswerAlike s s' (.next (raiseFault k code s)) (.next (raiseFault k code s')) := by
  have hrecord : SameButFaults (recordFault k code s) (recordFault k code s') := by
    refine h.setCtx k ?_
    rw [clearFault_stickyFault, clearFault_stickyFault]
    exact h.ctx k
  exact ⟨_, _, _, rfl, rfl, hrecord.respond _ _, raiseFault_responses k code s, raiseFault_responses k code s'⟩

theorem answerAlike_complete (h : SameButFaults s s') (out : List OutItem) (k : Ctx) {c c' : Context}
    (hc : c.clearFault = c'.clearFault) :
    AnswerAlike s s' (.next (complete out (s.setCtx k c))) (.next (complete out (s'.setCtx k c'))) :=
  ⟨_, _, _, rfl, rfl, (h.setCtx k hc).respond _ _,
    complete_setCtx_responses out s k c, complete_setCtx_responses out s' k c'⟩

/-- A data command that completes runs a stage blind to `STATUS` on its context. -/
theorem answerAlike_complete_of_statusBlind (h : SameButFaults s s') {α : Type}
    {g : Params → Context → List α × Context} (hg : ∀ p, StatusBlind (g p)) (item : α → OutItem) (k : Ctx) :
    AnswerAlike s s'
      (.next (complete ((g s.params (s.ctx k)).1.map item) (s.setCtx k (g s.params (s.ctx k)).2)))
      (.next (complete ((g s'.params (s'.ctx k)).1.map item) (s'.setCtx k (g s'.params (s'.ctx k)).2))) := by
  obtain ⟨hout, hctx⟩ := (hg s.params).eq_of_clearFault_eq (h.ctx k)
  rw [hout, ← h.params]
  exact answerAlike_complete h _ k hctx

theorem initCommand_answerAlike (h : SameButFaults s s') (k : Ctx) (itu : Bool) (rate : BitVec 32)
    (options : BitVec 8) :
    AnswerAlike s s' (exec (initCommand k itu rate options) s) (exec (initCommand k itu rate options) s') := by
  rw [exec_initCommand, exec_initCommand]
  cases hr : bitsOfRate rate with
  | none =>
    rw [construct_none _ _ _ hr, construct_none _ _ _ hr]
    exact answerAlike_raiseFault h k _
  | some bits =>
    rw [construct_some _ _ _ hr, construct_some _ _ _ hr]
    exact answerAlike_complete h [] k rfl

/-- R309: no command but `RD_STATUS` can tell two such states apart: what it tests, `CONSTRUCTED` and `CFG`, is the same in
both, and what it then does is blind to `STATUS`. -/
theorem exec_answerAlike (h : SameButFaults s s') {i : Instr} (hi : ∀ c, i ≠ .rdStatus c) :
    AnswerAlike s s' (exec i s) (exec i s') := by
  cases i with
  | encInit rate options => exact initCommand_answerAlike h .enc false rate options
  | encInitT rate options => exact initCommand_answerAlike h .enc true rate options
  | decInit rate options => exact initCommand_answerAlike h .dec false rate options
  | decInitT rate options => exact initCommand_answerAlike h .dec true rate options
  | encPair s0 s1 =>
    simp only [exec, execEncPair, ← constructed_eq_of_clearFault_eq h.enc, ← cfg_eq_of_clearFault_eq h.enc]
    split_ifs
    · exact answerAlike_raiseFault h .enc _
    · exact answerAlike_raiseFault h .enc _
    · exact answerAlike_complete_of_statusBlind h (fun p => encPairResult_statusBlind p s0 s1) .byte .enc
  | encSample smp =>
    simp only [exec, execEncSample, ← constructed_eq_of_clearFault_eq h.enc, ← cfg_eq_of_clearFault_eq h.enc]
    split_ifs
    · exact answerAlike_raiseFault h .enc _
    · exact answerAlike_raiseFault h .enc _
    · exact answerAlike_complete_of_statusBlind h (fun p => encSampleResult_statusBlind p smp) .byte .enc
  | decByte b =>
    simp only [exec, execDecByte, ← constructed_eq_of_clearFault_eq h.dec]
    split_ifs
    · exact answerAlike_raiseFault h .dec _
    · exact answerAlike_complete_of_statusBlind h (fun p => decByteResult_statusBlind p b) .sample .dec
  | rdStatus c => exact absurd rfl (hi c)

end Alike

/-- R309: a list of commands without `RD_STATUS` appends the same responses in both states. -/
theorem execList_sameResponses {commands : List Instr} (hcmds : ∀ i ∈ commands, ∀ c, i ≠ .rdStatus c)
    {s s' t t' : State} (h : SameButFaults s s') (ht : execList commands s = .next t)
    (ht' : execList commands s' = .next t') :
    ∃ rs, t.responses = s.responses ++ rs ∧ t'.responses = s'.responses ++ rs := by
  induction commands generalizing s s' with
  | nil =>
    cases ht
    cases ht'
    exact ⟨[], (List.append_nil _).symm, (List.append_nil _).symm⟩
  | cons i rest ih =>
    obtain ⟨hi, hrest⟩ := List.forall_mem_cons.mp hcmds
    obtain ⟨u, u', r, hu, hu', hsame, hr, hr'⟩ := exec_answerAlike h hi
    simp only [execList, hu] at ht
    simp only [execList, hu'] at ht'
    obtain ⟨rs, hrs, hrs'⟩ := ih hrest hsame ht ht'
    exact ⟨r :: rs, by rw [hrs, hr, ← List.append_cons], by rw [hrs', hr', ← List.append_cons]⟩

/-- Settles O18: no command but `RD_STATUS` tells two states apart that differ in sticky codes, and a refusal leaves such a
state; the last two clauses read the code off the three ends of a command. -/
theorem faultCodeIsInformational : Obligations.FaultCodeIsInformational := by
  refine ⟨fun i s s' t t' hi henc hdec hparams hpending ht ht' => ?_,
    fun commands c code s t t' hcmds ht ht' => ?_,
    fun i s t c ht => (commandEnd_of_exec ht).fault_eq, fun i s t c ht => (commandEnd_of_exec ht).fault_eq_zero⟩
  · obtain ⟨u, u', r, hu, hu', hsame, hr, hr'⟩ := exec_answerAlike ⟨henc, hdec, hparams, hpending⟩ hi
    cases hu.symm.trans ht
    cases hu'.symm.trans ht'
    exact ⟨hsame.enc, hsame.dec, hsame.params, hsame.pending, r, hr, hr'⟩
  · obtain ⟨rs, hrs, hrs'⟩ := execList_sameResponses hcmds (sameButFaults_refusedState c code s) ht ht'
    exact ⟨rs, hrs, by rw [hrs', refusedState, List.append_assoc]; rfl⟩

end Sys2Proof.Machine

/-! PROOFS. Family 70_reset_and_hazards.md: the parameters and the ROM tables are constants (R331). -/

namespace Sys2Proof.Machine

@[simp] theorem raiseFault_params (k : Ctx) (code : FaultCode) (s : State) : (raiseFault k code s).params = s.params := by
  rw [raiseFault, respond_params, recordFault, setCtx_params]

@[simp] theorem complete_setCtx_params (out : List OutItem) (s : State) (k : Ctx) (c : Context) :
    (complete out (s.setCtx k c)).params = s.params := by
  rw [complete_params, setCtx_params]

@[simp] theorem raiseIllegal_params (w : CmdWord) (s : State) : (raiseIllegal w s).params = s.params := by
  obtain ⟨-, heq⟩ | ⟨-, heq⟩ | ⟨-, heq⟩ := raiseIllegal_cases w s
  · rw [heq, raiseFault_params]
  · rw [heq, raiseFault_params]
  · rw [heq, respond_params]

/-- No end of a command writes a parameter: each replaces at most one context and appends a response. -/
theorem CommandEnd.params_eq {i : Instr} {s t : State} (h : CommandEnd i s t) : t.params = s.params := by
  cases h with
  | refused => exact raiseFault_params _ _ s
  | constructed => exact complete_setCtx_params _ s _ _
  | completed => exact complete_setCtx_params _ s _ _

/-- Settles O9: a step holds an idle state, runs a command, or refuses an illegal word, and none of them writes a
parameter. -/
theorem parametersAreConstant : Obligations.ParametersAreConstant := by
  intro s t ht
  obtain ⟨-, heq⟩ | ⟨w, rest, i, -, -, heq⟩ | ⟨w, rest, e, -, -, heq⟩ := step_cases s
  · cases heq.symm.trans ht
    rfl
  · exact (commandEnd_of_exec (heq.symm.trans ht)).params_eq
  · cases heq.symm.trans ht
    exact raiseIllegal_params w _

end Sys2Proof.Machine

/-! PROOFS. Family other, 30_encoding.md: decoding and encoding are inverse (R90 to R95), and the assembler (R115). -/

namespace Sys2Proof

/-! ### The fields of a word put together -/

@[simp] theorem CmdWord.op_ofFields (op m : BitVec 8) (arg : BitVec 32) : (CmdWord.ofFields op m arg).op = op :=
  (CmdWord.fields_ofFields op m arg).1

@[simp] theorem CmdWord.modifier_ofFields (op m : BitVec 8) (arg : BitVec 32) :
    (CmdWord.ofFields op m arg).modifier = m :=
  (CmdWord.fields_ofFields op m arg).2.1

@[simp] theorem CmdWord.arg_ofFields (op m : BitVec 8) (arg : BitVec 32) : (CmdWord.ofFields op m arg).arg = arg :=
  (CmdWord.fields_ofFields op m arg).2.2

theorem ctxOfBit_toBit (c : Ctx) : ctxOfBit c.toBit = c := by
  cases c <;> rfl

theorem toBit_ctxOfBit (bit : BitVec 1) : (ctxOfBit bit).toBit = bit := by
  obtain rfl | rfl := BitVec.eq_zero_or_eq_one bit <;> rfl

/-- A word is the two parts it is cut into at bit `n`. -/
theorem append_extractLsb'_eq_self {m n : Nat} (x : BitVec (m + n)) : x.extractLsb' n m ++ x.extractLsb' 0 n = x := by
  rw [BitVec.extractLsb'_append_extractLsb'_eq_extractLsb' (Nat.zero_add n).symm]
  exact BitVec.extractLsb'_eq_self

/-- A word whose bits from `n` up are zero is its low `n` bits. -/
theorem zero_append_extractLsb'_eq_self {m n : Nat} {x : BitVec (m + n)} (h : x.extractLsb' n m = 0) :
    (0 : BitVec m) ++ x.extractLsb' 0 n = x := by
  rw [← h, append_extractLsb'_eq_self]

end Sys2Proof

namespace Sys2Proof.Machine

open CmdWord

/-! ### Decoding the word of a command -/

theorem wellFormed_initCommand (k : Ctx) (itu : Bool) (rate : BitVec 32) (options : BitVec 8) :
    (initCommand k itu rate options).wellFormed = optionsOk options := by
  cases k <;> cases itu <;> rfl

theorem encode_initCommand (k : Ctx) (itu : Bool) (rate : BitVec 32) (options : BitVec 8) :
    encode (initCommand k itu rate options) = CmdWord.ofFields (initOp k itu) options rate := by
  cases k <;> cases itu <;> rfl

/-- R91: format I carries the whole options byte and the whole rate. -/
theorem decode_encode_initCommand (k : Ctx) (itu : Bool) (rate : BitVec 32) {options : BitVec 8}
    (h : optionsOk options = true) :
    decode (encode (initCommand k itu rate options)) = .ok (initCommand k itu rate options) := by
  have hformat : decode (encode (initCommand k itu rate options)) =
      decodeFormatI (initCommand k itu) (encode (initCommand k itu rate options)) := by
    rw [decode, encode_initCommand, op_ofFields]
    cases k <;> cases itu <;> rfl
  rw [hformat, decodeFormatI_eq_ok_iff, encode_initCommand, modifier_ofFields, arg_ofFields]
  exact ⟨(optionsOk_iff options).mp h, rfl⟩

/-- R92: format P carries both samples whole. -/
theorem decode_encode_encPair (s0 s1 : BitVec 16) : decode (encode (.encPair s0 s1)) = .ok (.encPair s0 s1) := by
  have hformat : decode (encode (.encPair s0 s1)) = decodeFormatP (encode (.encPair s0 s1)) := by
    rw [decode, encode, op_ofFields]
    rfl
  have hs0 : (s1 ++ s0).extractLsb' 0 16 = s0 := BitVec.extractLsb'_append_eq_right
  have hs1 : (s1 ++ s0).extractLsb' 16 16 = s1 := BitVec.extractLsb'_append_eq_left
  rw [hformat, decodeFormatP_eq_ok_iff, encode, modifier_ofFields, arg_ofFields, hs0, hs1]
  exact ⟨rfl, rfl⟩

/-- R93: format S carries the sample below sixteen zero bits. -/
theorem decode_encode_encSample (smp : BitVec 16) : decode (encode (.encSample smp)) = .ok (.encSample smp) := by
  have hformat : decode (encode (.encSample smp)) = decodeFormatS (encode (.encSample smp)) := by
    rw [decode, encode, op_ofFields]
    rfl
  have hsmp : ((0 : BitVec 16) ++ smp).extractLsb' 0 16 = smp := BitVec.extractLsb'_append_eq_right
  have hzero : ((0 : BitVec 16) ++ smp).extractLsb' 16 16 = 0 := BitVec.extractLsb'_append_eq_left
  rw [hformat, decodeFormatS_eq_ok_iff, encode, modifier_ofFields, arg_ofFields, hsmp]
  exact ⟨rfl, (and_fieldMask_eq_zero_iff _ 16 16).mpr hzero, rfl⟩

/-- R94: format B carries the byte below twenty-four zero bits. -/
theorem decode_encode_decByte (b : BitVec 8) : decode (encode (.decByte b)) = .ok (.decByte b) := by
  have hformat : decode (encode (.decByte b)) = decodeFormatB (encode (.decByte b)) := by
    rw [decode, encode, op_ofFields]
    rfl
  have hbyte : ((0 : BitVec 24) ++ b).extractLsb' 0 8 = b := BitVec.extractLsb'_append_eq_right
  have hzero : ((0 : BitVec 24) ++ b).extractLsb' 8 24 = 0 := BitVec.extractLsb'_append_eq_left
  rw [hformat, decodeFormatB_eq_ok_iff, encode, modifier_ofFields, arg_ofFields, hbyte]
  exact ⟨rfl, (and_fieldMask_eq_zero_iff _ 8 24).mpr hzero, rfl⟩

/-- R94: format Q carries the context bit in bit 0 of the modifier byte. -/
theorem decode_encode_rdStatus (ctx : Ctx) : decode (encode (.rdStatus ctx)) = .ok (.rdStatus ctx) := by
  cases ctx <;> rfl

/-- R91 to R94: the word of a well-formed command decodes to it. -/
theorem decode_encode {i : Instr} (h : i.wellFormed = true) : decode (encode i) = .ok i := by
  cases i with
  | encInit rate options => exact decode_encode_initCommand .enc false rate h
  | encInitT rate options => exact decode_encode_initCommand .enc true rate h
  | encPair s0 s1 => exact decode_encode_encPair s0 s1
  | encSample smp => exact decode_encode_encSample smp
  | decInit rate options => exact decode_encode_initCommand .dec false rate h
  | decInitT rate options => exact decode_encode_initCommand .dec true rate h
  | decByte b => exact decode_encode_decByte b
  | rdStatus ctx => exact decode_encode_rdStatus ctx

/-- Settles O2: each format gives its operands back, one lemma per format. -/
theorem decodeAfterEncodeIsIdentity : Obligations.DecodeAfterEncodeIsIdentity := fun _ => decode_encode

/-! ### Encoding the command of a word -/

/-- A word that an arm of the decoder takes is the word of the command the arm reads: what the command does not carry is
the opcode of the arm and the bits its format marks zero. -/
theorem encode_read_of_takes {a : DecodeArm} (ha : a ∈ decodeArms) {w : CmdWord} (h : a.Takes w) :
    encode (a.read w) = w ∧ (a.read w).wellFormed = true := by
  obtain ⟨hop, hm, harg⟩ := h
  have hword {op m : BitVec 8} {arg : BitVec 32} (h : w.op = op) (h' : m = w.modifier) (h'' : arg = w.arg) :
      CmdWord.ofFields op m arg = w :=
    (ofFields_inj.mpr ⟨h.symm, h', h''⟩).trans (ofFields_fields w)
  have hzero (h : w.modifier &&& 0xFF = 0) : (0 : BitVec 8) = w.modifier := h.symm.trans (and_0xFF _)
  simp only [decodeArms, List.mem_cons, List.not_mem_nil, or_false] at ha
  obtain rfl | rfl | rfl | rfl | rfl | rfl | rfl | rfl := ha
  · exact ⟨hword hop rfl rfl, (optionsOk_iff _).mpr hm⟩
  · exact ⟨hword hop rfl rfl, (optionsOk_iff _).mpr hm⟩
  · exact ⟨hword hop (hzero hm) (append_extractLsb'_eq_self (m := 16) (n := 16) w.arg), rfl⟩
  · have hhi : w.arg.extractLsb' 16 16 = 0 := (and_fieldMask_eq_zero_iff w.arg 16 16).mp harg
    exact ⟨hword hop (hzero hm) (zero_append_extractLsb'_eq_self (m := 16) (n := 16) hhi), rfl⟩
  · exact ⟨hword hop rfl rfl, (optionsOk_iff _).mpr hm⟩
  · exact ⟨hword hop rfl rfl, (optionsOk_iff _).mpr hm⟩
  · have hhi : w.arg.extractLsb' 8 24 = 0 := (and_fieldMask_eq_zero_iff w.arg 8 24).mp harg
    exact ⟨hword hop (hzero hm) (zero_append_extractLsb'_eq_self (m := 24) (n := 8) hhi), rfl⟩
  · have hhi : w.modifier.extractLsb' 1 7 = 0 := (and_fieldMask_eq_zero_iff w.modifier 1 7).mp hm
    have hmod := zero_append_extractLsb'_eq_self (m := 7) (n := 1) hhi
    rw [← toBit_ctxOfBit (w.modifier.extractLsb' 0 1)] at hmod
    exact ⟨hword hop hmod (harg.symm.trans (and_0xFFFFFFFF _)), rfl⟩

/-- Settles O3: the decoder reads by one of its arms, and the arm leaves no bit of the word unread. -/
theorem encodeAfterDecodeIsIdentity : Obligations.EncodeAfterDecodeIsIdentity := by
  intro w i h
  obtain ⟨a, ha, htakes, rfl⟩ := (decode_eq_ok_iff w i).mp h
  exact encode_read_of_takes ha htakes

/-! ### The written words -/

/-- Settles O1: the twenty-four words of V-CMD, evaluated. -/
theorem writtenWordsDecode : Obligations.WrittenWordsDecode := by
  unfold Obligations.WrittenWordsDecode
  decide

/-! ### The assembler (R115) -/

/-- R115: `word = (op << 40) | (m << 32) | arg`, as a number. -/
theorem ofFields_eq_ofNat (op m : BitVec 8) (arg : BitVec 32) :
    CmdWord.ofFields op m arg = BitVec.ofNat 48 (op.toNat * 2 ^ 40 + m.toNat * 2 ^ 32 + arg.toNat) := by
  have hword : (CmdWord.ofFields op m arg).toNat = op.toNat * 2 ^ 40 + m.toNat * 2 ^ 32 + arg.toNat := by
    rw [CmdWord.ofFields, toNat_append_eq_add, toNat_append_eq_add]
    omega
  rw [← hword, BitVec.ofNat_toNat, BitVec.setWidth_eq]

theorem toNat_zero_append {m n : Nat} (x : BitVec n) : ((0 : BitVec m) ++ x).toNat = x.toNat := by
  rw [toNat_append_eq_add, BitVec.ofNat_eq_ofNat, BitVec.toNat_ofNat, Nat.zero_mod, Nat.zero_mul, Nat.zero_add]

theorem encode_encPair_eq (s0 s1 : BitVec 16) :
    encode (.encPair s0 s1) = BitVec.ofNat 48 (0x12 * 2 ^ 40 + 0 * 2 ^ 32 + (s1.toNat * 65536 + s0.toNat)) := by
  rw [encode, ofFields_eq_ofNat, toNat_append_eq_add]
  rfl

theorem encode_encSample_eq (smp : BitVec 16) :
    encode (.encSample smp) = BitVec.ofNat 48 (0x13 * 2 ^ 40 + 0 * 2 ^ 32 + smp.toNat) := by
  rw [encode, ofFields_eq_ofNat, toNat_zero_append]
  rfl

theorem encode_decByte_eq (b : BitVec 8) :
    encode (.decByte b) = BitVec.ofNat 48 (0x22 * 2 ^ 40 + 0 * 2 ^ 32 + b.toNat) := by
  rw [encode, ofFields_eq_ofNat, toNat_zero_append]
  rfl

theorem toNat_ofInt_sample (v : Int) : (BitVec.ofInt 16 v).toNat = (v % 65536).toNat := BitVec.toNat_ofInt v

theorem toNat_ofInt_of_unsigned {n : Nat} {v : Int} (h : 0 ≤ v ∧ v < 2 ^ n) : (BitVec.ofInt n v).toNat = v.toNat := by
  rw [BitVec.toNat_ofInt, Int.emod_eq_of_lt h.1 (mod_cast h.2)]

/-- R115 on a line of format I: both operands must fit. -/
theorem map_encode_asmFormatI (k : Ctx) (itu : Bool) (rate options : Int) :
    (asmFormatI (initCommand k itu) rate options).map encode =
      if (0 ≤ rate ∧ rate ≤ 2 ^ 32 - 1) ∧ (0 ≤ options ∧ options ≤ 0xFF) then
        some (BitVec.ofNat 48 ((initOp k itu).toNat * 2 ^ 40 + options.toNat * 2 ^ 32 + rate.toNat))
      else none := by
  by_cases hr : 0 ≤ rate ∧ rate < 2 ^ 32
  · by_cases ho : 0 ≤ options ∧ options < 2 ^ 8
    · rw [if_pos (by omega)]
      simp only [asmFormatI, asmUnsigned, if_pos hr, if_pos ho, Option.map_some, encode_initCommand,
        ofFields_eq_ofNat, toNat_ofInt_of_unsigned hr, toNat_ofInt_of_unsigned ho]
    · rw [if_neg (by omega), asmFormatI, asmUnsigned, asmUnsigned, if_pos hr, if_neg ho]
      rfl
  · rw [if_neg (by omega), asmFormatI, asmUnsigned, if_neg hr]
    rfl

/-- R115 on `enc.pair`: both samples must fit. -/
theorem assemble_encPair (s0 s1 : Int) :
    (AsmLine.encPair s0 s1).assemble =
      if (-32768 ≤ s0 ∧ s0 ≤ 32767) ∧ (-32768 ≤ s1 ∧ s1 ≤ 32767) then
        some (BitVec.ofNat 48 (0x12 * 2 ^ 40 + 0 * 2 ^ 32 + ((s1 % 65536).toNat * 65536 + (s0 % 65536).toNat)))
      else none := by
  rw [AsmLine.assemble, AsmLine.toInstr, asmSample, asmSample]
  by_cases h0 : -32768 ≤ s0 ∧ s0 ≤ 32767
  · by_cases h1 : -32768 ≤ s1 ∧ s1 ≤ 32767
    · rw [if_pos h0, if_pos h1, if_pos ⟨h0, h1⟩, ← toNat_ofInt_sample, ← toNat_ofInt_sample, ← encode_encPair_eq]
      rfl
    · rw [if_pos h0, if_neg h1, if_neg (mt And.right h1)]
      rfl
  · rw [if_neg h0, if_neg (mt And.left h0)]
    rfl

/-- R115 on `enc.sample`. -/
theorem assemble_encSample (v : Int) :
    (AsmLine.encSample v).assemble =
      if -32768 ≤ v ∧ v ≤ 32767 then some (BitVec.ofNat 48 (0x13 * 2 ^ 40 + 0 * 2 ^ 32 + (v % 65536).toNat)) else none := by
  rw [AsmLine.assemble, AsmLine.toInstr, asmSample, ← toNat_ofInt_sample, ← encode_encSample_eq]
  split_ifs <;> rfl

/-- R115 on `dec.byte`: an unsigned operand of eight bits. -/
theorem assemble_decByte (b : Int) :
    (AsmLine.decByte b).assemble =
      if 0 ≤ b ∧ b ≤ 255 then some (BitVec.ofNat 48 (0x22 * 2 ^ 40 + 0 * 2 ^ 32 + b.toNat)) else none := by
  rw [AsmLine.assemble, AsmLine.toInstr, asmUnsigned]
  by_cases hb : 0 ≤ b ∧ b < 2 ^ 8
  · rw [if_pos hb, if_pos (by omega), ← toNat_ofInt_of_unsigned hb, ← encode_decByte_eq]
    rfl
  · rw [if_neg hb, if_neg (by omega)]
    rfl

/-- Settles O55: one lemma for each line form; the words of `rd.status` are evaluated. -/
theorem assemblerRefusesMisfits : Obligations.AssemblerRefusesMisfits :=
  ⟨assemble_encPair, assemble_encSample, assemble_decByte, rfl, rfl, fun rate options =>
    ⟨map_encode_asmFormatI .enc false rate options, map_encode_asmFormatI .enc true rate options,
      map_encode_asmFormatI .dec false rate options, map_encode_asmFormatI .dec true rate options⟩⟩

end Sys2Proof.Machine

/-! PROOFS. Family other, 10_state.md and 46_commands.md: a command is a function of the context it runs on; what it writes
(STATUS, CFG), what it leaves alone, and that commands to the two contexts do not meet. -/

namespace Sys2Proof.Machine

/-! ### One step on the head of the port -/

theorem step_of_idle {s : State} (hp : s.pending = []) : step s = .next s := by
  simp [step, takeCommand, hp]

theorem step_of_decode_ok {s : State} {w : CmdWord} {rest : List CmdWord} {i : Instr} (hp : s.pending = w :: rest)
    (hi : decode w = .ok i) : step s = exec i { s with pending := rest } := by
  simp [step, takeCommand, hp, hi]

/-- Settles O5. -/
theorem stepRunsDecodedCommand : Obligations.StepRunsDecodedCommand := fun _ _ _ _ => step_of_decode_ok

/-- Settles O7. -/
theorem idleStepHoldsState : Obligations.IdleStepHoldsState := fun _ => step_of_idle

/-- R286, R300: a step from any state ends in a state. -/
theorem exists_step_next (s : State) : ∃ t, step s = .next t := by
  obtain ⟨-, heq⟩ | ⟨w, rest, i, -, -, heq⟩ | ⟨w, rest, e, -, -, heq⟩ := step_cases s
  · exact ⟨s, heq⟩
  · obtain ⟨t, ht, -⟩ := exec_end i { s with pending := rest }
    exact ⟨t, heq.trans ht⟩
  · exact ⟨_, heq⟩

/-- The first of `n + 1` steps of a machine, then the rest. -/
theorem run_succ_of_step {M : Host.Core} {s t : M.State} (h : M.step s = .next t) (n : Nat) : M.run (n + 1) s = M.run n t := by
  simp only [Host.Core.run, h]

/-- Settles O8, by induction on the number of steps. -/
theorem everyRunIsSafe : Obligations.EveryRunIsSafe := by
  intro n
  induction n with
  | zero => exact fun s => ⟨s, rfl⟩
  | succ n ih =>
    intro s
    obtain ⟨t, ht⟩ := exists_step_next s
    obtain ⟨u, hu⟩ := ih t
    exact ⟨u, (run_succ_of_step (M := Sys2Proof.core) ht n).trans hu⟩

/-! ### A command as a function of its context -/

/-- The context a command runs on or reads. -/
def target : Instr → Ctx
  | .encInit _ _ => .enc
  | .encInitT _ _ => .enc
  | .encPair _ _ => .enc
  | .encSample _ => .enc
  | .decInit _ _ => .dec
  | .decInitT _ _ => .dec
  | .decByte _ => .dec
  | .rdStatus ctx => ctx

/-- A refusal on one context (R304): the response, and the context with the sticky code. -/
def refuse (c : Context) (code : FaultCode) : Response × Context :=
  (⟨code.toByte, []⟩, c.withStatus (stickyFault c.status code.toByte))

/-- `CONSTRUCT` on one context (R270). -/
def constructOn (c : Context) (rate : BitVec 32) (options : BitVec 8) (itu : Bool) : Response × Context :=
  match bitsOfRate rate with
  | none => refuse c .cfgRate
  | some bits => (⟨0, []⟩, Context.constructed (cfgOf bits options itu))

/-- What a command answers and leaves in its context, as a function of that context and the parameters alone. -/
def runOn (p : Params) (c : Context) : Instr → Response × Context
  | .encInit rate options => constructOn c rate options false
  | .encInitT rate options => constructOn c rate options true
  | .decInit rate options => constructOn c rate options false
  | .decInitT rate options => constructOn c rate options true
  | .encPair s0 s1 =>
    if c.status.constructed = false then refuse c .notConstructed
    else if c.cfg.eightk = true ∨ c.cfg.itu = true then refuse c .wrongMode
    else (⟨0, (encPairResult p c s0 s1).1.map .byte⟩, (encPairResult p c s0 s1).2)
  | .encSample smp =>
    if c.status.constructed = false then refuse c .notConstructed
    else if c.cfg.eightk = false ∧ c.cfg.itu = false then refuse c .wrongMode
    else (⟨0, (encSampleResult p c smp).1.map .byte⟩, (encSampleResult p c smp).2)
  | .decByte b =>
    if c.status.constructed = false then refuse c .notConstructed
    else (⟨0, (decByteResult p c b).1.map .sample⟩, (decByteResult p c b).2)
  | .rdStatus _ => (⟨0, [.word (statusWord c)]⟩, c)

/-- The state after a response and a new content of one context. -/
def updated (s : State) (k : Ctx) (r : Response × Context) : State := respond r.1 (s.setCtx k r.2)

@[simp] theorem ctx_withPending (s : State) (ws : List CmdWord) (k : Ctx) : { s with pending := ws }.ctx k = s.ctx k := by
  cases k <;> rfl

section Updated

variable (s : State) (k : Ctx) (r : Response × Context)

@[simp] theorem updated_params : (updated s k r).params = s.params := setCtx_params s k r.2

@[simp] theorem updated_pending : (updated s k r).pending = s.pending := setCtx_pending s k r.2

@[simp] theorem updated_responses : (updated s k r).responses = s.responses ++ [r.1] := by
  rw [updated, respond_responses, setCtx_responses]

@[simp] theorem updated_ctx_same : (updated s k r).ctx k = r.2 := by
  rw [updated, respond_ctx, ctx_setCtx_same]

theorem updated_ctx_of_ne {k k' : Ctx} (h : k' ≠ k) : (updated s k r).ctx k' = s.ctx k' := by
  rw [updated, respond_ctx, ctx_setCtx_of_ne h]

end Updated

/-- R304: a refusal touches its context alone. -/
theorem raiseFault_eq_updated (k : Ctx) (code : FaultCode) (s : State) :
    raiseFault k code s = updated s k (refuse (s.ctx k) code) := rfl

theorem construct_eq_updated (k : Ctx) (rate : BitVec 32) (options : BitVec 8) (itu : Bool) (s : State) :
    construct k rate options itu s = updated s k (constructOn (s.ctx k) rate options itu) := by
  unfold construct constructOn
  cases bitsOfRate rate <;> rfl

/-- R10, R14: every command ends, reads its own context and the parameters, writes that context and answers once. -/
theorem exec_eq_updated (i : Instr) (s : State) :
    exec i s = .next (updated s (target i) (runOn s.params (s.ctx (target i)) i)) := by
  cases i with
  | encInit rate options => exact congrArg _ (construct_eq_updated .enc rate options false s)
  | encInitT rate options => exact congrArg _ (construct_eq_updated .enc rate options true s)
  | decInit rate options => exact congrArg _ (construct_eq_updated .dec rate options false s)
  | decInitT rate options => exact congrArg _ (construct_eq_updated .dec rate options true s)
  | encPair s0 s1 =>
    obtain ⟨hc, heq⟩ | ⟨hc, hmode, heq⟩ | ⟨hc, heightk, hitu, heq⟩ := execEncPair_cases s0 s1 s
    · rw [heq, target, runOn, ctx_enc, if_pos hc]
      rfl
    · rw [heq, target, runOn, ctx_enc, if_neg (by simp [hc]), if_pos hmode]
      rfl
    · rw [heq, target, runOn, ctx_enc, if_neg (by simp [hc]), if_neg (by simp [heightk, hitu])]
      rfl
  | encSample smp =>
    obtain ⟨hc, heq⟩ | ⟨hc, heightk, hitu, heq⟩ | ⟨hc, hmode, heq⟩ := execEncSample_cases smp s
    · rw [heq, target, runOn, ctx_enc, if_pos hc]
      rfl
    · rw [heq, target, runOn, ctx_enc, if_neg (by simp [hc]), if_pos ⟨heightk, hitu⟩]
      rfl
    · rw [heq, target, runOn, ctx_enc, if_neg (by simp [hc]), if_neg (by simpa [or_iff_not_imp_left] using hmode)]
      rfl
  | decByte b =>
    obtain ⟨hc, heq⟩ | ⟨hc, heq⟩ := execDecByte_cases b s
    · rw [heq, target, runOn, ctx_dec, if_pos hc]
      rfl
    · rw [heq, target, runOn, ctx_dec, if_neg (by simp [hc])]
      rfl
  | rdStatus ctx => cases ctx <;> rfl

theorem eq_updated_of_exec {i : Instr} {s t : State} (h : exec i s = .next t) :
    t = updated s (target i) (runOn s.params (s.ctx (target i)) i) := by
  rw [exec_eq_updated] at h
  cases h
  rfl

theorem target_of_encoderCommand {i : Instr} (h : encoderCommand i = true) : target i = .enc := by
  cases i with
  | encInit | encInitT | encPair | encSample => rfl
  | decInit | decInitT | decByte | rdStatus => cases h

theorem target_of_decoderCommand {i : Instr} (h : decoderCommand i = true) : target i = .dec := by
  cases i with
  | decInit | decInitT | decByte => rfl
  | encInit | encInitT | encPair | encSample | rdStatus => cases h

theorem Addresses.eq_target {i : Instr} {k : Ctx} (h : Addresses i k) : k = target i := by
  obtain ⟨rfl, henc⟩ | ⟨rfl, hdec⟩ := h
  · exact (target_of_encoderCommand henc).symm
  · exact (target_of_decoderCommand hdec).symm

theorem addresses_target_or_rdStatus (i : Instr) : Addresses i (target i) ∨ ∃ k, i = .rdStatus k := by
  cases i <;> simp [Addresses, target, encoderCommand, decoderCommand]

/-- R271 to R274: a command constructs its own context. -/
theorem addresses_of_constructs {i : Instr} {k : Ctx} (h : constructs i = some k) : Addresses i k := by
  cases i with
  | encInit | encInitT =>
    obtain ⟨_, -, rfl⟩ := Option.map_eq_some_iff.mp h
    exact .inl ⟨rfl, rfl⟩
  | decInit | decInitT =>
    obtain ⟨_, -, rfl⟩ := Option.map_eq_some_iff.mp h
    exact .inr ⟨rfl, rfl⟩
  | encPair | encSample | decByte | rdStatus => cases h

/-! ### The ways a command ends on its context -/

/-- The codes a command refuses with (R306 to R308). -/
def FaultCode.OfCommand (code : FaultCode) : Prop := code = .cfgRate ∨ code = .notConstructed ∨ code = .wrongMode

/-- Everything a command can do to its context, with its answer: refuse, construct, run an encoder stage (after the filter in
full-band mode only), run the decoder on a byte, or read the status. -/
inductive ContextEnd (p : Params) (i : Instr) (c : Context) : Response × Context → Prop
  | refused {code : FaultCode} (hcode : code.OfCommand) (hno : constructs i = none) : ContextEnd p i c (refuse c code)
  | constructed (bits : CodeBits) (options : BitVec 8) (itu : Bool) (hk : constructs i = some (target i)) :
      ContextEnd p i c (⟨0, []⟩, Context.constructed (cfgOf bits options itu))
  | encoded (x : Vector Reg16 24) (xlow xhigh : Int) (hc : c.status.constructed = true) (hk : target i = .enc)
      (hno : constructs i = none) (hx : c.cfg.eightk = true ∨ c.cfg.itu = true → x = c.x) :
      ContextEnd p i c (⟨0, (encodeAndEmit p { c with x := x } xlow xhigh).1.map .byte⟩,
        (encodeAndEmit p { c with x := x } xlow xhigh).2)
  | decoded (b : Byte) (hc : c.status.constructed = true) (hk : target i = .dec) (hno : constructs i = none) :
      ContextEnd p i c (⟨0, (decByteResult p c b).1.map .sample⟩, (decByteResult p c b).2)
  | statusRead (hno : constructs i = none) : ContextEnd p i c (⟨0, [.word (statusWord c)]⟩, c)

theorem constructOn_end (p : Params) (c : Context) (k : Ctx) (itu : Bool) (rate : BitVec 32) (options : BitVec 8) :
    ContextEnd p (initCommand k itu rate options) c (constructOn c rate options itu) := by
  have hcons := constructs_initCommand k itu rate options
  have htarget : target (initCommand k itu rate options) = k := (addresses_initCommand k itu rate options).eq_target.symm
  unfold constructOn
  cases hr : bitsOfRate rate with
  | none => exact .refused (.inl rfl) (by rw [hcons, hr]; rfl)
  | some bits => exact .constructed bits options itu (by rw [hcons, hr, htarget]; rfl)

theorem runOn_end (p : Params) (c : Context) (i : Instr) : ContextEnd p i c (runOn p c i) := by
  cases i with
  | encInit rate options => exact constructOn_end p c .enc false rate options
  | encInitT rate options => exact constructOn_end p c .enc true rate options
  | decInit rate options => exact constructOn_end p c .dec false rate options
  | decInitT rate options => exact constructOn_end p c .dec true rate options
  | encPair s0 s1 =>
    rw [runOn]
    split_ifs with hc hmode
    · exact .refused (.inr (.inl rfl)) rfl
    · exact .refused (.inr (.inr rfl)) rfl
    · exact .encoded (qmfTx p c.x s0 s1).1 _ _ (Bool.eq_true_of_not_eq_false hc) rfl rfl fun h => absurd h hmode
  | encSample smp =>
    rw [runOn]
    split_ifs with hc hmode
    · exact .refused (.inr (.inl rfl)) rfl
    · exact .refused (.inr (.inr rfl)) rfl
    · exact .encoded c.x _ _ (Bool.eq_true_of_not_eq_false hc) rfl rfl fun _ => rfl
  | decByte b =>
    rw [runOn]
    split_ifs with hc
    · exact .refused (.inr (.inl rfl)) rfl
    · exact .decoded b (Bool.eq_true_of_not_eq_false hc) rfl rfl
  | rdStatus ctx => exact .statusRead rfl

/-! ### STATUS (10_state.md section 6) -/

/-- A code of 0 leaves the sticky code as it is. -/
theorem stickyFault_zero (st : Status) : stickyFault st 0 = st := by
  unfold stickyFault
  split_ifs with h
  · rw [← h]
  · rfl

/-- STATUS after a command: set by construction, else the sticky rule on the code answered, which is 0 on completion. -/
theorem ContextEnd.status {p : Params} {i : Instr} {c : Context} {r : Response × Context} (h : ContextEnd p i c r) :
    (constructs i = some (target i) ∧ r.2.status = ⟨true, 0⟩) ∨
    (constructs i = none ∧ r.2.status = stickyFault c.status r.1.fault) := by
  cases h with
  | refused hcode hno => exact .inr ⟨hno, rfl⟩
  | constructed bits options itu hk => exact .inl ⟨hk, rfl⟩
  | encoded x xlow xhigh hc hk hno hx =>
    have hstatus := (encodeAndEmit_statusBlind p xlow xhigh).snd_status { c with x := x }
    exact .inr ⟨hno, hstatus.trans (stickyFault_zero c.status).symm⟩
  | decoded b hc hk hno =>
    have hstatus := (decByteResult_statusBlind p b).snd_status c
    exact .inr ⟨hno, hstatus.trans (stickyFault_zero c.status).symm⟩
  | statusRead hno => exact .inr ⟨hno, (stickyFault_zero c.status).symm⟩

/-- STATUS of a context after a command: a context the command runs on follows the construction or the sticky rule, any other
keeps it. -/
theorem exec_status {i : Instr} {s t : State} (h : exec i s = .next t) (c : Ctx) :
    (constructs i = some c ∧ (t.ctx c).status = ⟨true, 0⟩) ∨
    (constructs i ≠ some c ∧ Addresses i c ∧
      ∃ r, t.responses = s.responses ++ [r] ∧ (t.ctx c).status = stickyFault (s.ctx c).status r.fault) ∨
    (constructs i ≠ some c ∧ ¬ Addresses i c ∧ (t.ctx c).status = (s.ctx c).status) := by
  obtain rfl := eq_updated_of_exec h
  have hend := (runOn_end s.params (s.ctx (target i)) i).status
  by_cases haddr : Addresses i c
  · obtain rfl := haddr.eq_target
    obtain ⟨hk, hstatus⟩ | ⟨hno, hstatus⟩ := hend
    · exact .inl ⟨hk, by rw [updated_ctx_same, hstatus]⟩
    · exact .inr (.inl ⟨by simp [hno], haddr, _, updated_responses _ _ _, by rw [updated_ctx_same, hstatus]⟩)
  · refine .inr (.inr ⟨fun hk => haddr (addresses_of_constructs hk), haddr, ?_⟩)
    by_cases hc : c = target i
    · obtain haddr' | ⟨k, rfl⟩ := addresses_target_or_rdStatus i
      · exact absurd (hc ▸ haddr') haddr
      · rw [hc, updated_ctx_same, runOn]
    · rw [updated_ctx_of_ne _ _ hc]

/-- A status the sticky rule changes held no code, and holds the one answered. -/
theorem of_stickyFault_ne {st : Status} {code : BitVec 8} (h : stickyFault st code ≠ st) :
    st.fault = 0 ∧ code ≠ 0 ∧ (stickyFault st code).fault = code := by
  have hfault : st.fault = 0 := by
    by_contra hne
    exact h (if_neg hne)
  have hcode : code ≠ 0 := by
    rintro rfl
    exact h (stickyFault_zero st)
  exact ⟨hfault, hcode, by rw [stickyFault_fault, if_pos hfault]⟩

/-- An illegal word: the context that records it follows the sticky rule with ILLEGAL_CMD, the other keeps its STATUS (R305). -/
theorem raiseIllegal_status (w : CmdWord) (s : State) (c : Ctx) :
    (illegalCtx w.op = some c ∧ (raiseIllegal w s).responses = s.responses ++ [⟨4, []⟩] ∧
      ((raiseIllegal w s).ctx c).status = stickyFault (s.ctx c).status 4) ∨
    ((raiseIllegal w s).ctx c).status = (s.ctx c).status := by
  unfold raiseIllegal
  cases hk : illegalCtx w.op with
  | none => exact .inr (by rw [respond_ctx])
  | some k =>
    dsimp only
    rw [raiseFault_eq_updated]
    by_cases hc : c = k
    · subst hc
      exact .inl ⟨rfl, updated_responses _ _ _, by rw [updated_ctx_same]; rfl⟩
    · exact .inr (by rw [updated_ctx_of_ne _ _ hc])

/-- The word a step took, when the step changed STATUS of a context. -/
theorem step_status_changed {s t : State} {c : Ctx} (h : step s = .next t) (hne : (t.ctx c).status ≠ (s.ctx c).status) :
    ∃ w rest, s.pending = w :: rest ∧
      ((∃ i, decode w = .ok i ∧ constructs i = some c ∧ (t.ctx c).status = ⟨true, 0⟩) ∨
       (∃ r, t.responses = s.responses ++ [r] ∧ (t.ctx c).status = stickyFault (s.ctx c).status r.fault ∧
        ((∃ i, decode w = .ok i ∧ Addresses i c) ∨ (∃ e, decode w = .error e ∧ illegalCtx w.op = some c)))) := by
  obtain ⟨-, heq⟩ | ⟨w, rest, i, hp, hdec, heq⟩ | ⟨w, rest, e, hp, hdec, heq⟩ := step_cases s
  · cases heq.symm.trans h
    exact absurd rfl hne
  · refine ⟨w, rest, hp, ?_⟩
    obtain ⟨hk, hstatus⟩ | ⟨-, haddr, r, hr, hstatus⟩ | ⟨-, -, hstatus⟩ := exec_status (heq.symm.trans h) c
    · exact .inl ⟨i, hdec, hk, hstatus⟩
    · exact .inr ⟨r, hr, by rw [hstatus, ctx_withPending], .inl ⟨i, hdec, haddr⟩⟩
    · exact absurd (by rw [hstatus, ctx_withPending]) hne
  · refine ⟨w, rest, hp, ?_⟩
    cases heq.symm.trans h
    obtain ⟨hk, hr, hstatus⟩ | hstatus := raiseIllegal_status w { s with pending := rest } c
    · exact .inr ⟨_, hr, by rw [hstatus, ctx_withPending], .inr ⟨e, hdec, hk⟩⟩
    · exact absurd (by rw [hstatus, ctx_withPending]) hne

/-- R305 for either context. -/
theorem illegalCtx_eq_some_iff (op : BitVec 8) (c : Ctx) :
    illegalCtx op = some c ↔
      (c = .enc ∧ 0x10 ≤ op.toNat ∧ op.toNat ≤ 0x13) ∨ (c = .dec ∧ 0x20 ≤ op.toNat ∧ op.toNat ≤ 0x22) := by
  cases c
  · simpa using illegalCtx_eq_enc_iff op
  · simpa using illegalCtx_eq_dec_iff op

theorem not_addresses_iff (i : Instr) (c : Ctx) :
    ¬ Addresses i c ↔ (c = .enc ∧ encoderCommand i = false) ∨ (c = .dec ∧ decoderCommand i = false) := by
  cases c <;> simp [Addresses]

/-- A step clears no construction, and replaces a code only where there was none. -/
theorem step_status_monotone {s t : State} (h : step s = .next t) (c : Ctx) :
    ((s.ctx c).status.constructed = true → (t.ctx c).status.constructed = true) ∧
    ((t.ctx c).status.fault ≠ 0 → (t.ctx c).status.fault ≠ (s.ctx c).status.fault → (s.ctx c).status.fault = 0) := by
  by_cases hne : (t.ctx c).status = (s.ctx c).status
  · rw [hne]
    exact ⟨id, fun _ hf => absurd rfl hf⟩
  · obtain ⟨w, rest, -, ⟨i, -, -, hstatus⟩ | ⟨r, -, hstatus, -⟩⟩ := step_status_changed h hne
    · rw [hstatus]
      exact ⟨fun _ => rfl, fun hf => absurd rfl hf⟩
    · rw [hstatus] at hne ⊢
      exact ⟨(stickyFault_constructed _ _).trans, fun _ _ => (of_stickyFault_ne hne).1⟩

/-- Settles O19: STATUS after a command is one of the three cases of `exec_status`, after an illegal word the sticky rule. -/
theorem statusRegisterWriters : Obligations.StatusRegisterWriters := by
  refine ⟨fun c => by cases c <;> rfl, fun i s t c h => ?_, fun i s t c r h hr haddr hno => ?_,
    fun s t c h => step_status_monotone h c, fun i s t c h hother => ?_, fun s t c h hne => ?_⟩
  · obtain ⟨hk, hstatus⟩ | ⟨hno, -, r, -, hstatus⟩ | ⟨hno, -, hstatus⟩ := exec_status h c
    · exact ⟨fun _ => hstatus, fun hno => absurd hk hno⟩
    · exact ⟨fun hk => absurd hk hno, fun _ => by rw [hstatus, stickyFault_constructed]⟩
    · exact ⟨fun hk => absurd hk hno, fun _ => by rw [hstatus]⟩
  · obtain ⟨hk, -⟩ | ⟨-, -, r', hr', hstatus⟩ | ⟨-, hnot, -⟩ := exec_status h c
    · exact absurd hk hno
    · rw [hstatus, stickyFault_fault, response_eq_of_append (hr.symm.trans hr')]
    · exact absurd haddr hnot
  · have hnot := (not_addresses_iff i c).mpr hother
    obtain ⟨hk, -⟩ | ⟨-, haddr, -⟩ | ⟨-, -, hstatus⟩ := exec_status h c
    · exact absurd (addresses_of_constructs hk) hnot
    · exact absurd haddr hnot
    · exact hstatus
  · obtain ⟨w, rest, hp, hcons | ⟨r, hr, hstatus, hword⟩⟩ := step_status_changed h hne
    · exact ⟨w, rest, hp, .inl hcons⟩
    · rw [hstatus] at hne ⊢
      obtain ⟨hfault, hcode, hnew⟩ := of_stickyFault_ne hne
      refine ⟨w, rest, hp, .inr ⟨hfault, stickyFault_constructed _ _, ⟨r, hr, hcode, hnew⟩, ?_⟩⟩
      obtain hcmd | ⟨e, he, hctx⟩ := hword
      · exact .inl hcmd
      · exact .inr ⟨e, he, (illegalCtx_eq_some_iff _ c).mp hctx⟩

/-! ### CFG (10_state.md section 6) -/

/-- CFG after a command that constructs nothing. -/
theorem ContextEnd.cfg_eq {p : Params} {i : Instr} {c : Context} {r : Response × Context} (h : ContextEnd p i c r)
    (hno : constructs i ≠ some (target i)) : r.2.cfg = c.cfg := by
  cases h with
  | refused => rfl
  | constructed bits options itu hk => exact absurd hk hno
  | encoded x xlow xhigh =>
    obtain ⟨b0, b1, buf, n, hframe⟩ := encodeAndEmit_frame p { c with x := x } xlow xhigh
    rw [hframe]
  | decoded b =>
    obtain ⟨b0, b1, x, buf, n, hframe⟩ := decByteResult_frame p c b
    rw [hframe]
  | statusRead => rfl

theorem raiseIllegal_cfg (w : CmdWord) (s : State) (c : Ctx) : ((raiseIllegal w s).ctx c).cfg = (s.ctx c).cfg := by
  unfold raiseIllegal
  cases illegalCtx w.op with
  | none => rw [respond_ctx]
  | some k =>
    dsimp only
    rw [raiseFault_eq_updated]
    by_cases hc : c = k
    · subst hc
      rw [updated_ctx_same]
      rfl
    · rw [updated_ctx_of_ne _ _ hc]

/-- Settles O20: no other end of a command writes CFG, and an illegal word does not. -/
theorem configurationIsImmutable : Obligations.ConfigurationIsImmutable := by
  intro s t c h hne
  obtain ⟨-, heq⟩ | ⟨w, rest, i, hp, hdec, heq⟩ | ⟨w, rest, e, -, -, heq⟩ := step_cases s
  · cases heq.symm.trans h
    exact absurd rfl hne
  · refine ⟨w, rest, i, hp, hdec, ?_⟩
    by_contra hno
    obtain rfl := eq_updated_of_exec (heq.symm.trans h)
    refine hne ?_
    by_cases hc : c = target i
    · subst hc
      rw [updated_ctx_same, (runOn_end _ _ i).cfg_eq hno, ctx_withPending]
    · rw [updated_ctx_of_ne _ _ hc, ctx_withPending]
  · cases heq.symm.trans h
    exact absurd (by rw [raiseIllegal_cfg, ctx_withPending]) hne

/-! ### Frames and commutation (00_scope.md section 5, 20_memory.md section 8) -/

/-- Settles O21: a command updates the context it runs on; the status command puts back what it read. -/
theorem commandFrame : Obligations.CommandFrame := by
  intro i s t h
  obtain rfl := eq_updated_of_exec h
  refine ⟨updated_params _ _ _, updated_pending _ _ _, ⟨_, updated_responses _ _ _⟩, fun henc => ?_, fun hdec => ?_, ?_⟩
  · rw [target_of_encoderCommand henc]
    rfl
  · rw [target_of_decoderCommand hdec]
    rfl
  · rintro c rfl
    cases c <;> exact ⟨rfl, rfl⟩

/-- Settles O22: each command reads and writes its own context only, so the other order gives it the same context to run
on. -/
theorem contextsCommute : Obligations.ContextsCommute := by
  intro e d s t1 u1 t2 u2 he hd ht1 hu1 ht2 hu2
  obtain rfl := eq_updated_of_exec ht1
  obtain rfl := eq_updated_of_exec hu1
  obtain rfl := eq_updated_of_exec ht2
  obtain rfl := eq_updated_of_exec hu2
  rw [target_of_encoderCommand he, target_of_decoderCommand hd]
  refine ⟨rfl, rfl, rfl, rfl, (runOn s.params s.enc e).1, (runOn s.params s.dec d).1, ?_, ?_⟩
  · exact List.append_assoc s.responses [_] [_]
  · exact List.append_assoc s.responses [_] [_]

/-! ### Registers of an unconstructed context (10_state.md section 8) -/

theorem SameToHost.refuse {c c' : Context} (h : SameToHost c c') (code : FaultCode) :
    (refuse c code).1 = (refuse c' code).1 ∧ SameToHost (refuse c code).2 (refuse c' code).2 := by
  obtain ⟨hstatus, hsame⟩ := h
  refine ⟨rfl, congrArg (stickyFault · code.toByte) hstatus, fun hc => ?_⟩
  rw [hsame ((stickyFault_constructed _ _).symm.trans hc)]

theorem SameToHost.refl (c : Context) : SameToHost c c := ⟨rfl, fun _ => rfl⟩

/-- R108: before construction the status word shows the code alone. -/
theorem statusWord_eq_of_unconstructed {c c' : Context} (h : c.status.constructed = false) (hstatus : c.status = c'.status) :
    statusWord c = statusWord c' := by
  apply BitVec.eq_of_toNat_eq
  rw [statusWord_toNat_of_unconstructed h, statusWord_toNat_of_unconstructed (hstatus ▸ h), hstatus]

theorem SameToHost.constructOn {c c' : Context} (h : SameToHost c c') (rate : BitVec 32) (options : BitVec 8) (itu : Bool) :
    (constructOn c rate options itu).1 = (constructOn c' rate options itu).1 ∧
      SameToHost (constructOn c rate options itu).2 (constructOn c' rate options itu).2 := by
  unfold Machine.constructOn
  cases bitsOfRate rate with
  | none => exact h.refuse .cfgRate
  | some bits => exact ⟨rfl, .refl _⟩

/-- No command tells apart two contexts that agree on STATUS and, once constructed, on everything: before construction the
data commands are refused, the INIT commands overwrite and the status word is blank. -/
theorem SameToHost.runOn {c c' : Context} (h : SameToHost c c') (p : Params) (i : Instr) :
    (runOn p c i).1 = (runOn p c' i).1 ∧ SameToHost (runOn p c i).2 (runOn p c' i).2 := by
  cases hc : c.status.constructed with
  | true =>
    rw [h.2 hc]
    exact ⟨rfl, .refl _⟩
  | false =>
    have hc' : c'.status.constructed = false := h.1 ▸ hc
    cases i with
    | encInit rate options => exact h.constructOn rate options false
    | encInitT rate options => exact h.constructOn rate options true
    | decInit rate options => exact h.constructOn rate options false
    | decInitT rate options => exact h.constructOn rate options true
    | encPair | encSample | decByte =>
      simp only [Machine.runOn, if_pos hc, if_pos hc']
      exact h.refuse .notConstructed
    | rdStatus k =>
      rw [Machine.runOn, Machine.runOn, statusWord_eq_of_unconstructed hc h.1]
      exact ⟨rfl, h⟩

theorem Indistinguishable.ctx {s s' : State} (h : Indistinguishable s s') (k : Ctx) : SameToHost (s.ctx k) (s'.ctx k) := by
  obtain ⟨henc, hdec, -⟩ := h
  cases k
  · exact henc
  · exact hdec

theorem Indistinguishable.withPending {s s' : State} (h : Indistinguishable s s') (ws : List CmdWord) :
    Indistinguishable { s with pending := ws } { s' with pending := ws } := by
  obtain ⟨henc, hdec, hparams, -, hresponses⟩ := h
  exact ⟨henc, hdec, hparams, rfl, hresponses⟩

theorem Indistinguishable.respond {s s' : State} (h : Indistinguishable s s') (r : Response) :
    Indistinguishable (respond r s) (respond r s') := by
  obtain ⟨henc, hdec, hparams, hpending, hresponses⟩ := h
  exact ⟨henc, hdec, hparams, hpending, congrArg (· ++ [r]) hresponses⟩

theorem Indistinguishable.updated {s s' : State} (h : Indistinguishable s s') (k : Ctx) {r r' : Response × Context}
    (hr : r.1 = r'.1 ∧ SameToHost r.2 r'.2) : Indistinguishable (updated s k r) (updated s' k r') := by
  obtain ⟨hresp, hctx⟩ := hr
  rw [Machine.updated, Machine.updated, hresp]
  refine Indistinguishable.respond ?_ r'.1
  obtain ⟨henc, hdec, hrest⟩ := h
  cases k
  · exact ⟨hctx, hdec, hrest⟩
  · exact ⟨henc, hctx, hrest⟩

theorem Indistinguishable.raiseIllegal {s s' : State} (h : Indistinguishable s s') (w : CmdWord) :
    Indistinguishable (raiseIllegal w s) (raiseIllegal w s') := by
  unfold Machine.raiseIllegal
  cases illegalCtx w.op with
  | none => exact h.respond _
  | some k => exact h.updated k ((h.ctx k).refuse .illegalCmd)

/-- Settles O23: both states take the same word, and neither a command nor an illegal word tells them apart. -/
theorem powerOnValuesAreUnobservable : Obligations.PowerOnValuesAreUnobservable := by
  intro s s' t t' hs ht ht'
  have hpending : s.pending = s'.pending := by
    obtain ⟨-, -, -, hpending, -⟩ := hs
    exact hpending
  obtain ⟨hp, heq⟩ | ⟨w, rest, i, hp, hdec, heq⟩ | ⟨w, rest, e, hp, hdec, heq⟩ := step_cases s
  · rw [step_of_idle hp] at ht
    rw [step_of_idle (hpending ▸ hp)] at ht'
    cases ht
    cases ht'
    exact hs
  · rw [step_of_decode_ok hp hdec] at ht
    rw [step_of_decode_ok (hpending ▸ hp) hdec] at ht'
    obtain rfl := eq_updated_of_exec ht
    obtain rfl := eq_updated_of_exec ht'
    have hrest := hs.withPending rest
    obtain ⟨-, -, hparams, -⟩ := hs
    refine hrest.updated _ ?_
    rw [← hparams]
    exact (hrest.ctx _).runOn s.params i
  · rw [step_of_decode_error hp hdec] at ht
    rw [step_of_decode_error (hpending ▸ hp) hdec] at ht'
    cases ht
    cases ht'
    exact (hs.withPending rest).raiseIllegal w

end Sys2Proof.Machine

/-! PROOFS. Family other, 41_block4_predictor.md: the closed form of BLOCK4, its pole limits, and silence. -/

namespace Sys2Proof.Machine

/-! ### The next pole coefficients (R152, R153) -/

/-- `P[0]` as BLOCK4 computes it (R151). -/
def nextP0 (b : Band) (d : Int) : Int := sat16 (b.sz.toInt + d)

/-- `A[2]` after BLOCK4 (R152). -/
def nextA2 (b : Band) (d : Int) : Int :=
  let w1 := sat16 (b.a[1].toInt * 4)
  let w2 := clamp (if sgn (nextP0 b d) = sgn b.p[1].toInt then -w1 else w1) (-32767) 32767
  clamp (asr w2 7 + (if sgn (nextP0 b d) = sgn b.p[2].toInt then 128 else -128) + asr (b.a[2].toInt * 32512) 15)
    (-12288) 12288

/-- `A[1]` after BLOCK4 (R153). -/
def nextA1 (b : Band) (d : Int) : Int :=
  clamp (sat16 ((if sgn (nextP0 b d) = sgn b.p[1].toInt then 192 else -192) + asr (b.a[1].toInt * 32640) 15))
    (-(15360 - nextA2 b d)) (15360 - nextA2 b d)

theorem nextA2_bounds (b : Band) (d : Int) : -12288 ≤ nextA2 b d ∧ nextA2 b d ≤ 12288 :=
  clamp_bounds _ (by decide)

theorem nextA1_bounds (b : Band) (d : Int) :
    -(15360 - nextA2 b d) ≤ nextA1 b d ∧ nextA1 b d ≤ 15360 - nextA2 b d := by
  obtain ⟨hlo, hhi⟩ := nextA2_bounds b d
  exact clamp_bounds _ (by omega)

/-- RECONS, PARREC write `P[0]` alone of the reconstruction history (R151). -/
theorem recons_p_getElem (b : Band) (d : Int) :
    (recons b d).p[0].toInt = nextP0 b d ∧ (recons b d).p[1] = b.p[1] ∧ (recons b d).p[2] = b.p[2] := by
  simp [nextP0]

theorem uppol2_recons_ap (b : Band) (d : Int) : (uppol2 (recons b d)).ap = b.ap.set 2 (toReg (nextA2 b d)) := by
  obtain ⟨h0, h1, h2⟩ := recons_p_getElem b d
  simp only [uppol2, nextA2, h0, h1, h2, recons_a, recons_ap]

/-- UPPOL1 after UPPOL2: the bound `15360 - Ap[2]` needs no saturation. -/
theorem uppol1_uppol2_recons_ap (b : Band) (d : Int) :
    (uppol1 (uppol2 (recons b d))).ap = (b.ap.set 2 (toReg (nextA2 b d))).set 1 (toReg (nextA1 b d)) := by
  obtain ⟨hlo, hhi⟩ := nextA2_bounds b d
  obtain ⟨h0, h1, -⟩ := recons_p_getElem b d
  have hap2 : (toReg (nextA2 b d)).toInt = nextA2 b d := toReg_toInt (by omega)
  have hwd3 : sat16 (15360 - nextA2 b d) = 15360 - nextA2 b d := sat16_of_fits (by omega)
  simp only [Nat.cast_ofNat, uppol1, uppol2_recons_ap, Vector.getElem_set_self, hap2, hwd3, uppol2_p, uppol2_a, recons_a, h0, h1, nextA1]

/-- RECONS writes `D[0]` alone of the difference history (R151). -/
theorem recons_d_succ (b : Band) (d : Int) (k : Fin 6) : (recons b d).d[k.val + 1] = b.d[k.val + 1] := by
  simp only [recons_d]
  exact Vector.getElem_set_ne _ _ (by omega)

theorem delaya_b_zero (x : Band) : (delaya x).b[0] = x.b[0] := rfl

/-! ### Each register after BLOCK4 -/

section AfterBlock4

variable (b : Band) (d : Int)

theorem block4_r : (block4 b d).r = #v[toReg (sat16 (b.s.toInt + d)), toReg (sat16 (b.s.toInt + d)), b.r[1]] := by
  simp [block4]

theorem block4_p : (block4 b d).p = #v[toReg (nextP0 b d), toReg (nextP0 b d), b.p[1]] := by
  simp [block4, nextP0]

theorem block4_d : (block4 b d).d = #v[toReg d, toReg d, b.d[1], b.d[2], b.d[3], b.d[4], b.d[5]] := by
  simp [block4]

theorem block4_ap : (block4 b d).ap = (b.ap.set 2 (toReg (nextA2 b d))).set 1 (toReg (nextA1 b d)) :=
  uppol1_uppol2_recons_ap b d

theorem block4_a : (block4 b d).a = #v[b.a[0], toReg (nextA1 b d), toReg (nextA2 b d)] := by
  have ha : (block4 b d).a = #v[b.a[0], (block4 b d).ap[1], (block4 b d).ap[2]] := rfl
  rw [ha]
  simp [block4_ap]

theorem block4_b_zero : (block4 b d).b[0] = b.b[0] := delaya_b_zero _

theorem block4_bp_zero : (block4 b d).bp[0] = b.bp[0] := by
  obtain ⟨sg, bp, hframe, hzero⟩ := upzero_frame (uppol1 (uppol2 (recons b d))) d
  have hbp : (block4 b d).bp = (upzero (uppol1 (uppol2 (recons b d))) d).bp := rfl
  simp only [hbp, hframe]
  exact hzero

/-- R154: the next coefficients of the zero section, from the six previous differences. -/
theorem block4_bp_succ (k : Fin 6) :
    (block4 b d).bp[k.val + 1] = upzeroTap d b.d[k.val + 1] b.b[k.val + 1] := by
  have hbp : (block4 b d).bp = (upzero (recons b d) d).bp := rfl
  have htap : (upzero (recons b d) d).bp[k.val + 1] =
      upzeroTap d (recons b d).d[k.val + 1] (recons b d).b[k.val + 1] := by
    fin_cases k <;> rfl
  simp only [hbp, htap, recons_d_succ, recons_b]

theorem block4_b_succ (k : Fin 6) : (block4 b d).b[k.val + 1] = (block4 b d).bp[k.val + 1] := by
  fin_cases k <;> rfl

theorem block4_sg_zero : (block4 b d).sg[0] = toReg (sgn d) := rfl

theorem block4_sg_succ (k : Fin 6) : (block4 b d).sg[k.val + 1] = toReg (sgn b.d[k.val + 1].toInt) := by
  have hsg : (block4 b d).sg = (upzero (recons b d) d).sg := rfl
  have hsign : (upzero (recons b d) d).sg[k.val + 1] = toReg (sgn (recons b d).d[k.val + 1].toInt) := by
    fin_cases k <;> rfl
  simp only [hsg, hsign, recons_d_succ]

theorem block4_a_toInt : (block4 b d).a[0] = b.a[0] ∧ (block4 b d).a[1].toInt = nextA1 b d ∧
    (block4 b d).a[2].toInt = nextA2 b d := by
  obtain ⟨hlo2, hhi2⟩ := nextA2_bounds b d
  obtain ⟨hlo1, hhi1⟩ := nextA1_bounds b d
  simp only [block4_a]
  exact ⟨rfl, toReg_toInt (by omega), toReg_toInt (by omega)⟩

/-- R155: the current pole coefficients take their next values. -/
theorem block4_ap_eq : (block4 b d).ap[0] = b.ap[0] ∧ (block4 b d).ap[1] = (block4 b d).a[1] ∧
    (block4 b d).ap[2] = (block4 b d).a[2] := by
  simp [block4_ap, block4_a]

theorem block4_sp_toInt : (block4 b d).sp.toInt =
    sat16 (tap (block4 b d).a[1] (block4 b d).r[1] + tap (block4 b d).a[2] (block4 b d).r[2]) :=
  filtep_sp_toInt _

theorem block4_sz_toInt : (block4 b d).sz.toInt =
    sat16 (∑ i : Fin 6, tap (block4 b d).b[i.val + 1] (block4 b d).d[i.val + 1]) :=
  filtez_sz_toInt _

theorem block4_s_toInt : (block4 b d).s.toInt = sat16 ((block4 b d).sp.toInt + (block4 b d).sz.toInt) :=
  predic_s_toInt _

end AfterBlock4

theorem toReg_sgn_toInt (v : Int) : (toReg (sgn v)).toInt = sgn v := by
  obtain h | h := sgn_cases v <;> rw [h] <;> rfl

theorem clamp_of_gt {v lo hi : Int} (hle : lo ≤ hi) (h : v > hi) : clamp v lo hi = hi := by
  rw [clamp, if_neg (by omega), if_pos h]

/-- Settles O27: each register after BLOCK4 by its lemma; the 16-bit registers hold saturated or clamped values, and so lose
nothing. -/
theorem block4ClosedForm : Obligations.Block4ClosedForm := by
  refine ⟨fun v => ⟨fun h => if_pos h, fun h => if_neg (by omega)⟩,
    fun v lo hi hle => ⟨clamp_of_lt, clamp_of_gt hle, fun hlo hhi => clamp_of_fits ⟨hlo, hhi⟩⟩, fun b d hlo hhi => ?_⟩
  obtain ⟨ha0, ha1, ha2⟩ := block4_a_toInt b d
  refine ⟨?_, ?_, ?_, ⟨ha0, ha1, ha2⟩, block4_ap_eq b d, ⟨block4_b_zero b d, block4_bp_zero b d, fun i => ⟨?_, ?_⟩⟩,
    ⟨?_, fun i => ?_⟩, ?_, block4_sz_toInt b d, block4_s_toInt b d, block4_nb b d, block4_det b d⟩
  · simp only [block4_r]
    exact ⟨toReg_sat16_toInt _, toReg_sat16_toInt _, rfl⟩
  · simp only [block4_p]
    exact ⟨toReg_sat16_toInt _, toReg_sat16_toInt _, rfl⟩
  · simp only [block4_d]
    exact ⟨toReg_toInt ⟨hlo, hhi⟩, toReg_toInt ⟨hlo, hhi⟩, fun i => by fin_cases i <;> rfl⟩
  · exact (block4_b_succ b d i).symm
  · rw [block4_b_succ, block4_bp_succ, upzeroTap_toInt]
  · rw [block4_sg_zero, toReg_sgn_toInt]
  · rw [block4_sg_succ, toReg_sgn_toInt]
  · have hr1 : (block4 b d).r[1].toInt = sat16 (b.s.toInt + d) := by
      simp only [block4_r]
      exact toReg_sat16_toInt _
    have hr2 : (block4 b d).r[2] = b.r[1] := by
      simp only [block4_r]
      rfl
    rw [block4_sp_toInt, tap, tap, ha1, ha2, hr1, hr2]
    rfl

/-- Settles O28: the two clamps of UPPOL2 and UPPOL1. -/
theorem block4KeepsPoleLimits : Obligations.Block4KeepsPoleLimits := by
  intro b d
  obtain ⟨-, ha1, ha2⟩ := block4_a_toInt b d
  obtain ⟨hlo2, hhi2⟩ := nextA2_bounds b d
  obtain ⟨hlo1, hhi1⟩ := nextA1_bounds b d
  rw [PoleLimits, ha1, ha2]
  exact ⟨hlo2, hhi2, hlo1, hhi1⟩

/-! ### Silence (R161) -/

/-- All signals, histories and zero coefficients of a bank are 0; its pole coefficients may be anything. -/
structure Silent (b : Band) : Prop where
  s : b.s = 0
  sp : b.sp = 0
  sz : b.sz = 0
  r : b.r = .replicate 3 0
  p : b.p = .replicate 3 0
  d : b.d = .replicate 7 0
  b : ∀ i : Fin 7, b.b[i] = 0

theorem silent_constructed (det : Reg15) : Silent (Band.constructed det) := by
  obtain ⟨hr, -, -, hp⟩ := Band.constructed_poleVectors det
  obtain ⟨hd, hb, -, -⟩ := Band.constructed_zeroVectors det
  exact ⟨rfl, rfl, rfl, hr, hp, hd, fun i => by simp [hb]⟩

theorem upzeroTap_zero (di : Reg16) : upzeroTap 0 di 0 = 0 := by
  simp only [upzeroTap, if_true, neg_zero, ite_self]
  rfl

theorem tap_zero (coef : Reg16) : tap coef 0 = 0 := by
  have hsig : sat16 (2 * (0 : Reg16).toInt) = 0 := rfl
  rw [tap, hsig, Int.mul_zero]
  rfl

/-- A difference of 0 keeps a silent bank silent: with the step of UPZERO at 0 the zero coefficients cannot leave 0, and a
pole coefficient only ever multiplies a signal of 0. -/
theorem Silent.block4 {b : Band} (h : Silent b) : Silent (block4 b 0) := by
  have hrecon : toReg (sat16 ((0 : Reg16).toInt + 0)) = 0 := rfl
  have hr : (Machine.block4 b 0).r = .replicate 3 0 := by
    rw [block4_r, h.s, hrecon, h.r]
    rfl
  have hp : (Machine.block4 b 0).p = .replicate 3 0 := by
    rw [block4_p, nextP0, h.sz, hrecon, h.p]
    rfl
  have hd : (Machine.block4 b 0).d = .replicate 7 0 := by
    rw [block4_d, h.d]
    rfl
  have hb : ∀ i : Fin 7, (Machine.block4 b 0).b[i] = 0 := by
    refine Fin.cases ((block4_b_zero b 0).trans (h.b 0)) fun k => ?_
    have hbk : b.b[k.val + 1] = 0 := h.b k.succ
    exact (block4_b_succ b 0 k).trans (by rw [block4_bp_succ, hbk, upzeroTap_zero])
  have hsp : (Machine.block4 b 0).sp = 0 := by
    apply BitVec.eq_of_toInt_eq
    rw [block4_sp_toInt, hr, Vector.getElem_replicate, Vector.getElem_replicate, tap_zero, tap_zero]
    rfl
  have hsz : (Machine.block4 b 0).sz = 0 := by
    apply BitVec.eq_of_toInt_eq
    rw [block4_sz_toInt, hd, Finset.sum_eq_zero fun i _ => by rw [Vector.getElem_replicate, tap_zero]]
    rfl
  have hs : (Machine.block4 b 0).s = 0 := by
    apply BitVec.eq_of_toInt_eq
    rw [block4_s_toInt, hsp, hsz]
    rfl
  exact ⟨hs, hsp, hsz, hr, hp, hd, hb⟩

theorem silent_silence {b : Band} (h : Silent b) (n : Nat) : Silent (silence n b) := by
  induction n generalizing b with
  | zero => exact h
  | succ n ih => exact ih h.block4

theorem silence_nb_det (n : Nat) (b : Band) : (silence n b).nb = b.nb ∧ (silence n b).det = b.det := by
  induction n generalizing b with
  | zero => exact ⟨rfl, rfl⟩
  | succ n ih =>
    obtain ⟨hnb, hdet⟩ := ih (block4 b 0)
    exact ⟨hnb.trans (block4_nb b 0), hdet.trans (block4_det b 0)⟩

/-- Settles O29, by induction on the number of differences; the two pole values are evaluated. -/
theorem silenceKeepsSignalsZero : Obligations.SilenceKeepsSignalsZero := by
  refine ⟨fun n det => ?_, by decide, by decide⟩
  have hsilent := silent_silence (silent_constructed det) n
  obtain ⟨hnb, hdet⟩ := silence_nb_det n (Band.constructed det)
  refine ⟨hsilent.s, hsilent.sp, hsilent.sz, fun i => ⟨?_, ?_⟩, fun i => ⟨?_, hsilent.b i⟩, hnb, hdet⟩
  · rw [hsilent.r]
    exact Vector.getElem_replicate _
  · rw [hsilent.p]
    exact Vector.getElem_replicate _
  · rw [hsilent.d]
    exact Vector.getElem_replicate _

end Sys2Proof.Machine

/-! PROOFS. Family other, 42_lowband_adpcm.md and 43_highband_adpcm.md: the low-band quantizer QUANTL, HIGH_DEC, and the
range of both reconstructions. -/

namespace Sys2Proof.Machine

/-! ### The threshold scan (R182) -/

theorem scanOrder_getElem_val : ∀ (k : Nat) (h : k < scanOrder.length), scanOrder[k].val = k + 1 := by
  decide

theorem mem_scanOrder : ∀ i : Fin 32, 1 ≤ i.val → i.val ≤ 29 → i ∈ scanOrder := by
  decide

theorem val_le_of_mem_scanOrder : ∀ i ∈ scanOrder, 1 ≤ i.val ∧ i.val ≤ 29 := by
  decide

/-- R182: the scan stops at the first index from 1 to 29 whose threshold exceeds the magnitude, at 30 when there is none. -/
theorem scan_spec (t : Tables) (wd det : Int) :
    1 ≤ (scan t wd det).val ∧ (scan t wd det).val ≤ 30 ∧
      (∀ j : Fin 32, 1 ≤ j.val → j.val < (scan t wd det).val → threshold t det j ≤ wd) ∧
      ((scan t wd det).val ≤ 29 → wd < threshold t det (scan t wd det)) := by
  cases hfind : scanOrder.find? fun i => wd < threshold t det i with
  | none =>
    have hscan : scan t wd det = 30 := by rw [scan, hfind]; rfl
    have hall : ∀ i ∈ scanOrder, threshold t det i ≤ wd := by simpa using hfind
    rw [hscan]
    exact ⟨by decide, by decide, fun j h1 h30 => hall j (mem_scanOrder j h1 (Nat.le_of_lt_succ h30)),
      fun h => absurd h (by decide)⟩
  | some i =>
    have hscan : scan t wd det = i := by rw [scan, hfind]; rfl
    obtain ⟨hi, k, hk, hik, hbefore⟩ := List.find?_eq_some_iff_getElem.mp hfind
    have hval : i.val = k + 1 := by rw [← hik, scanOrder_getElem_val]
    obtain ⟨h1, h29⟩ := val_le_of_mem_scanOrder i (hik ▸ List.getElem_mem hk)
    rw [hscan]
    refine ⟨h1, by omega, fun j hj1 hji => ?_, fun _ => by simpa using hi⟩
    have hj : scanOrder[j.val - 1] = j := Fin.ext (by rw [scanOrder_getElem_val]; omega)
    have hnot := hbefore (j.val - 1) (by omega)
    rw [hj] at hnot
    simpa using hnot

theorem mag_of_nonneg (m : NegMag) {e : Int} (h : e ≥ 0) : mag m e = e := if_pos h

theorem mag_abs_of_neg {e : Int} (h : e < 0) : mag .abs e = -e := if_neg (by omega)

theorem mag_ones_of_neg {e : Int} (h : e < 0) : mag .ones e = -(e + 1) := if_neg (by omega)

/-- Settles O30: the index is the one the scan finds. -/
theorem quantlPicksInterval : Obligations.QuantlPicksInterval := by
  refine ⟨fun m e => mag_of_nonneg m, fun e h => ⟨mag_abs_of_neg h, mag_ones_of_neg h⟩, fun p b xlow => ?_⟩
  obtain ⟨h1, h30, hbefore, hat⟩ :=
    scan_spec p.tables (mag p.negMag (sat16 (xlow - b.s.toInt))) b.det.toNat
  exact ⟨_, h1, h30, hbefore, hat, rfl⟩

/-- R64, R65: the codes the listed tables hold at the indices the scan can give. -/
theorem four_le_default_codes : ∀ i : Fin 32, 1 ≤ i.val → i.val ≤ 30 →
    4 ≤ (defaultTables.ilp[i]).toNat ∧ 4 ≤ (defaultTables.iln[i]).toNat := by
  decide

/-- Settles O31. -/
theorem quantlNeverBelowFour : Obligations.QuantlNeverBelowFour := by
  intro p b xlow ht
  obtain ⟨-, -, hquantl⟩ := quantlPicksInterval
  obtain ⟨i, h1, h30, -, -, hcode⟩ := hquantl p b xlow
  obtain ⟨hilp, hiln⟩ := four_le_default_codes i h1 h30
  rw [hcode, ht]
  split_ifs
  · exact hilp
  · exact hiln

/-! ### The reconstructions (R191, R218) -/

/-- R218: the dequantized difference is the quotient by 2^15, and the two terms of the sum commute. -/
theorem highDec_eq (t : Tables) (b : Band) (ihigh : BitVec 2) :
    highDec t b ihigh =
      (clamp (sat16 (b.s.toInt + (b.det.toNat * t.qm2[ihigh.toNat]'ihigh.isLt) / 32768)) (-16384) 16383,
        highAdapt t b ihigh) := by
  rw [highDec, limitRecon, Int.add_comm]
  rfl

/-- Settles O37: the formula, and the values from construction evaluated. -/
theorem highDecReconstructs : Obligations.HighDecReconstructs :=
  ⟨highDec_eq, by decide, by decide, by decide⟩

/-- Settles O44: both samples are limited, so their sum and difference fit 16 bits. -/
theorem synthesisPushIsExact : Obligations.SynthesisPushIsExact := by
  intro t bits b0 b1 field ril ihigh rlow rhigh
  obtain ⟨hlow, hlow'⟩ : -16384 ≤ rlow ∧ rlow ≤ 16383 := limitRecon_bounds _
  obtain ⟨hhigh, hhigh'⟩ : -16384 ≤ rhigh ∧ rhigh ≤ 16383 := limitRecon_bounds _
  exact ⟨hlow, hlow', hhigh, hhigh', toReg_toInt (by omega), toReg_toInt (by omega)⟩

end Sys2Proof.Machine

/-! PROOFS. Family other, 44_qmf_filters.md: the delay line, the two sums, the bounds of the analysis filter, and the two
pairings. -/

namespace Sys2Proof.Machine

/-! ### The delay line and the sums (R231 to R233) -/

/-- Settles O39: the coefficients of both pairings, evaluated. -/
theorem tapVectorsAsPrinted : Obligations.TapVectorsAsPrinted := by
  refine ⟨by decide, by decide, fun q => ?_⟩
  cases q
  · decide
  · decide

/-- The filter indices run over all of `Fin 12`. -/
theorem sum_map_tapIndices (f : Fin 12 → Int) : (tapIndices.map f).sum = ∑ i, f i := by
  have hall : tapIndices = List.ofFn id := by decide
  rw [hall, List.map_ofFn, Function.comp_id, List.sum_ofFn]

theorem sumE_eq (p : Params) (x : Vector Reg16 24) :
    sumE p x = ∑ i : Fin 12, (x[2 * i.val]'(by omega)).toInt * hE p i := sum_map_tapIndices _

theorem sumO_eq (p : Params) (x : Vector Reg16 24) :
    sumO p x = ∑ i : Fin 12, (x[2 * i.val + 1]'(by omega)).toInt * hO p i := sum_map_tapIndices _

/-- A sum of twelve products of 16-bit values is at most 2^15 times the sum of the coefficients' magnitudes. -/
theorem abs_sum_toInt_mul_le (v : Fin 12 → Reg16) (h : Fin 12 → Int) :
    |∑ i, (v i).toInt * h i| ≤ 32768 * ∑ i, |h i| := by
  calc |∑ i, (v i).toInt * h i| ≤ ∑ i, |(v i).toInt * h i| := Finset.abs_sum_le_sum_abs _ _
    _ ≤ ∑ i, 32768 * |h i| := by
      refine Finset.sum_le_sum fun i _ => ?_
      obtain ⟨hlo, hhi⟩ := reg16_bounds (v i)
      rw [abs_mul]
      exact mul_le_mul_of_nonneg_right (abs_le.mpr ⟨hlo, by omega⟩) (abs_nonneg _)
    _ = 32768 * ∑ i, |h i| := (Finset.mul_sum _ _ _).symm

/-- R62: the sum of the magnitudes of the listed coefficients, in either order. -/
theorem sum_abs_coefficients {p : Params} (h : p.tables = defaultTables) :
    ∑ i, |hE p i| = 6482 ∧ ∑ i, |hO p i| = 6482 := by
  unfold hE hO
  rw [h]
  cases p.qmfPairing
  · exact ⟨by decide, by decide⟩
  · exact ⟨by decide, by decide⟩

/-- R233 with the listed coefficients. -/
theorem abs_sums_le {p : Params} (h : p.tables = defaultTables) (x : Vector Reg16 24) :
    |sumE p x| ≤ 32768 * 6482 ∧ |sumO p x| ≤ 32768 * 6482 := by
  obtain ⟨he, ho⟩ := sum_abs_coefficients h
  rw [sumE_eq, sumO_eq]
  exact ⟨(abs_sum_toInt_mul_le _ _).trans_eq (by rw [he]), (abs_sum_toInt_mul_le _ _).trans_eq (by rw [ho])⟩

theorem qmfShift_getElem (x : Vector Reg16 24) (a b : Reg16) (i : Fin 22) :
    (qmfShift x a b)[i.val] = x[i.val + 2] := by
  fin_cases i <;> rfl

/-- Settles O40: the shift entry by entry, the sums over the filter indices, and their bound. -/
theorem delayLineShiftsAndSums : Obligations.DelayLineShiftsAndSums := by
  refine ⟨fun x a b => ⟨qmfShift_getElem x a b, rfl, rfl⟩, fun p x => ⟨sumE_eq p x, sumO_eq p x⟩, fun p x h => ?_⟩
  obtain ⟨he, ho⟩ := abs_sums_le h x
  exact ⟨he.trans_lt (by decide), ho.trans_lt (by decide)⟩

/-- A shifted sum of bounded magnitude. -/
theorem asr_fourteen_bounds {v : Int} (h : |v| ≤ 25928 * 2 ^ 14) : -25928 ≤ asr v 14 ∧ asr v 14 ≤ 25928 := by
  obtain ⟨hle, hlt⟩ := asr_bounds v 14
  obtain ⟨hlo, hhi⟩ := abs_le.mp h
  omega

/-- Settles O41: the two sums add and subtract to at most twice their bound, 25928 * 2^14. -/
theorem analysisOutputsBounded : Obligations.AnalysisOutputsBounded := by
  intro p x s0 s1 h
  obtain ⟨he, ho⟩ := abs_sums_le h (qmfShift x s0 s1)
  have hlow := asr_fourteen_bounds ((abs_add_le _ _).trans (add_le_add he ho))
  have hhigh := asr_fourteen_bounds ((abs_sub _ _).trans (add_le_add ho he))
  obtain ⟨hlow, hlow'⟩ := hlow
  obtain ⟨hhigh, hhigh'⟩ := hhigh
  exact ⟨hlow, hlow', hhigh, hhigh'⟩

/-! ### The two pairings (R231, R234) -/

/-- Pairs that enter swapped keep the lines swapped. -/
theorem PairsSwapped.qmfShift {x x' : Vector Reg16 24} (h : PairsSwapped x x') (s0 s1 : Reg16) :
    PairsSwapped (qmfShift x s0 s1) (qmfShift x' s1 s0) := by
  intro i
  refine Fin.lastCases ⟨rfl, rfl⟩ (fun k => ?_) i
  obtain ⟨heven, hodd⟩ := h k.succ
  have hshift (y : Vector Reg16 24) (a b : Reg16) (j : Nat) (hj : j < 22) :
      (Machine.qmfShift y a b)[j] = y[j + 2] := qmfShift_getElem y a b ⟨j, hj⟩
  simp only [Fin.val_castSucc, hshift _ _ _ (2 * k.val) (by omega), hshift _ _ _ (2 * k.val + 1) (by omega)]
  exact ⟨heven, hodd⟩

/-- Under the other pairing the coefficients of the even entries are those of the odd ones, and so are the entries. -/
theorem PairsSwapped.sums {x x' : Vector Reg16 24} (h : PairsSwapped x x') (p : Params) :
    sumE { p with qmfPairing := .itu } x' = sumO { p with qmfPairing := .doc } x ∧
      sumO { p with qmfPairing := .itu } x' = sumE { p with qmfPairing := .doc } x := by
  simp only [sumE_eq, sumO_eq, fun i => (h i).1, fun i => (h i).2]
  exact ⟨rfl, rfl⟩

/-- R132: the floors of a value and of its negative miss each other by at most one. -/
theorem asr_add_asr_neg (v : Int) (n : Nat) : -1 ≤ asr v n + asr (-v) n ∧ asr v n + asr (-v) n ≤ 0 := by
  obtain ⟨hle, hlt⟩ := asr_bounds v n
  obtain ⟨hle', hlt'⟩ := asr_bounds (-v) n
  have hp : (0 : Int) < 2 ^ n := by positivity
  constructor
  · have hpos : 0 < (asr v n + asr (-v) n + 2) * 2 ^ n := by linarith
    have := pos_of_mul_pos_left hpos hp.le
    omega
  · have hneg : (asr v n + asr (-v) n) * 2 ^ n ≤ 0 := by linarith
    exact nonpos_of_mul_nonpos_left hneg hp

/-- Settles O42: the two sums change places, so their sum is the same and their difference changes its sign before the
shift. -/
theorem pairingsMirrorEachOther : Obligations.PairingsMirrorEachOther := by
  intro p x x' s0 s1 h
  have hlines := h.qmfShift s0 s1
  obtain ⟨hE, hO⟩ := hlines.sums p
  simp only [qmfTx, hE, hO]
  refine ⟨hlines, by rw [Int.add_comm], ?_⟩
  rw [← Int.neg_sub (sumO _ _)]
  exact asr_add_asr_neg _ 14

end Sys2Proof.Machine

/-! PROOFS. Family other, 30_encoding.md sections 3 and 4, 45_bitpacker.md: codewords, the packer and the unpacker. -/

namespace Sys2Proof.Machine

/-! ### Splitting and assembling a codeword (R101, R102) -/

/-- R102: the low field is the code's lowest `BITS - 2` bits. -/
theorem codeField_toNat (bits : CodeBits) (code : BitVec 8) :
    (codeField bits code).toNat = code.toNat % 2 ^ (bits.toNat - 2) := by
  have hmask : (((1 <<< lowWidth bits : Nat) : BitVec 8) - 1).toNat = 2 ^ lowWidth bits - 1 := by cases bits <;> rfl
  have hwidth : 2 ^ lowWidth bits ≤ 2 ^ 6 := by cases bits <;> decide
  have hfits : code.toNat % 2 ^ lowWidth bits < 2 ^ 6 := (Nat.mod_lt _ (by positivity)).trans_le hwidth
  rw [codeField, BitVec.toNat_setWidth, BitVec.toNat_and, hmask, Nat.and_two_pow_sub_one_eq_mod, Nat.mod_eq_of_lt hfits]
  rfl

/-- R102: the high field is the two bits above the low field. -/
theorem codeHigh_toNat (bits : CodeBits) (code : BitVec 8) :
    (codeHigh bits code).toNat = code.toNat / 2 ^ (bits.toNat - 2) % 4 := by
  have hmask (n : Nat) : n &&& 3 = n % 4 := Nat.and_two_pow_sub_one_eq_mod n 2
  simp [codeHigh, lowWidth, hmask, Nat.shiftRight_eq_div_pow]

/-- R102: `ril` is the four top bits of the low field. -/
theorem codeRil_toNat (bits : CodeBits) (code : BitVec 8) :
    (codeRil bits code).toNat = code.toNat % 2 ^ (bits.toNat - 2) / 2 ^ (bits.toNat - 6) := by
  have hfield := codeField_toNat bits code
  simp only [codeRil, BitVec.toNat_setWidth, BitVec.toNat_ushiftRight, hfield, Nat.shiftRight_eq_div_pow]
  cases bits <;> simp only [lowWidth, CodeBits.toNat] <;> omega

/-- R101: the code before the shift is the high field above the low code. -/
theorem assembleCode_toNat (bits : CodeBits) (ihigh : BitVec 2) (ilow : BitVec 6) :
    (assembleCode bits ihigh ilow).toNat = (64 * ihigh.toNat + ilow.toNat) / 2 ^ (8 - bits.toNat) := by
  have hhigh : (ihigh.setWidth 8 <<< 6).toNat = ihigh.toNat <<< 6 := by
    simp only [BitVec.toNat_shiftLeft, BitVec.toNat_setWidth, Nat.shiftLeft_eq]
    omega
  have hlow : (ilow.setWidth 8).toNat = ilow.toNat := by
    rw [BitVec.toNat_setWidth]
    omega
  rw [assembleCode, BitVec.toNat_ushiftRight, BitVec.toNat_or, hhigh, hlow, ← Nat.shiftLeft_add_eq_or_of_lt ilow.isLt,
    Nat.shiftLeft_eq, Nat.shiftRight_eq_div_pow, Nat.mul_comm]

/-- R101, R102: splitting an assembled codeword gives the high field back. -/
theorem codeHigh_assembleCode (bits : CodeBits) (ihigh : BitVec 2) (ilow : BitVec 6) :
    codeHigh bits (assembleCode bits ihigh ilow) = ihigh := by
  apply BitVec.eq_of_toNat_eq
  rw [codeHigh_toNat, assembleCode_toNat]
  cases bits <;> simp only [CodeBits.toNat] <;> omega

/-- R101, R102: the low field of an assembled codeword is the low code with its lowest `8 - BITS` bits dropped. -/
theorem codeField_assembleCode_toNat (bits : CodeBits) (ihigh : BitVec 2) (ilow : BitVec 6) :
    (codeField bits (assembleCode bits ihigh ilow)).toNat = ilow.toNat / 2 ^ (8 - bits.toNat) := by
  rw [codeField_toNat, assembleCode_toNat]
  cases bits <;> simp only [CodeBits.toNat] <;> omega

/-- R188: both sides adapt by the same four bits. -/
theorem codeRil_assembleCode (bits : CodeBits) (ihigh : BitVec 2) (ilow : BitVec 6) :
    codeRil bits (assembleCode bits ihigh ilow) = rilOfIlow ilow := by
  apply BitVec.eq_of_toNat_eq
  rw [codeRil_toNat, assembleCode_toNat, rilOfIlow, BitVec.extractLsb'_toNat, Nat.shiftRight_eq_div_pow]
  cases bits <;> simp only [CodeBits.toNat] <;> omega

/-- R279: the decoder sees a codeword through its two fields. -/
theorem decCode_congr (p : Params) (c : Context) {code code' : BitVec 8}
    (hfield : codeField c.cfg.bits code = codeField c.cfg.bits code')
    (hhigh : codeHigh c.cfg.bits code = codeHigh c.cfg.bits code') : decCode p c code = decCode p c code' := by
  simp only [decCode, codeRil, hfield, hhigh]

/-- R104: bits from `BITS` up reach neither field. -/
theorem fields_eq_of_mod_eq {bits : CodeBits} {code code' : BitVec 8}
    (h : code.toNat % 2 ^ bits.toNat = code'.toNat % 2 ^ bits.toNat) :
    codeField bits code = codeField bits code' ∧ codeHigh bits code = codeHigh bits code' := by
  refine ⟨BitVec.eq_of_toNat_eq ?_, BitVec.eq_of_toNat_eq ?_⟩
  · rw [codeField_toNat, codeField_toNat]
    cases bits <;> simp only [CodeBits.toNat] at h ⊢ <;> omega
  · rw [codeHigh_toNat, codeHigh_toNat]
    cases bits <;> simp only [CodeBits.toNat] at h ⊢ <;> omega

/-- Settles O45: the fields of any byte and the value of an assembled codeword, as remainders and quotients. -/
theorem splitInvertsAssembly : Obligations.SplitInvertsAssembly := by
  refine ⟨fun bits code => ⟨codeField_toNat bits code, codeHigh_toNat bits code, codeRil_toNat bits code⟩,
    fun p c code code' h => ?_, fun bits ihigh ilow => ⟨assembleCode_toNat bits ihigh ilow,
      codeHigh_assembleCode bits ihigh ilow, codeField_assembleCode_toNat bits ihigh ilow,
      codeRil_assembleCode bits ihigh ilow, assembleCode_lt bits ihigh ilow⟩⟩
  obtain ⟨hfield, hhigh⟩ := fields_eq_of_mod_eq h
  exact decCode_congr p c hfield hhigh

/-! ### The bypass modes (R219, R239) -/

/-- R219, R279: in 8 kHz mode the decoder runs the low band alone. -/
theorem decCode_eightk (p : Params) (c : Context) (code : BitVec 8) (h : c.cfg.eightk = true) :
    let low := lowDec p.tables c.cfg.bits c.band0 (codeField c.cfg.bits code) (codeRil c.cfg.bits code)
    decCode p c code = (rxBypass c.cfg.itu low.1 0, { c with band0 := low.2 }) := by
  rw [decCode_bypass p c code (.inr h), if_pos h]

/-- A stage that neither reads nor writes `Band[1]` in 8 kHz mode. -/
def HighBandBlind {α : Type} (g : Context → α × Context) : Prop :=
  ∀ (c : Context) (b1 : Band), c.cfg.eightk = true → g { c with band1 := b1 } = ((g c).1, { (g c).2 with band1 := b1 })

theorem HighBandBlind.band1_eq {α : Type} {g : Context → α × Context} (hg : HighBandBlind g) {c : Context}
    (h : c.cfg.eightk = true) : (g c).2.band1 = c.band1 :=
  congrArg (·.2.band1) (hg c c.band1 h)

theorem emit_withBand1 (c : Context) (b1 : Band) (code : BitVec 8) :
    emit { c with band1 := b1 } code = ((emit c code).1, { (emit c code).2 with band1 := b1 }) := by
  simp only [emit, pack]
  split_ifs <;> rfl

theorem encodeAndEmit_highBandBlind (p : Params) (xlow xhigh : Int) :
    HighBandBlind fun c => encodeAndEmit p c xlow xhigh := by
  intro c b1 h
  simp only [encodeAndEmit_eightk p (c := c) xlow xhigh h,
    encodeAndEmit_eightk p (c := { c with band1 := b1 }) xlow xhigh h]
  exact emit_withBand1 { c with band0 := (lowEnc p c.band0 xlow).2 } b1 _

theorem decCodes_highBandBlind (p : Params) (codes : List (BitVec 8)) : HighBandBlind fun c => decCodes p codes c := by
  induction codes with
  | nil => exact fun _ _ _ => rfl
  | cons code rest ih =>
    intro c b1 h
    have hcode := decCode_eightk p c code h
    have hcode' := decCode_eightk p { c with band1 := b1 } code h
    have hrest := ih { c with
      band0 := (lowDec p.tables c.cfg.bits c.band0 (codeField c.cfg.bits code) (codeRil c.cfg.bits code)).2 } b1 h
    simp only [decCodes_cons, hcode, hcode', hrest]

/-- The split of a stream byte into codewords changes the accumulator only. -/
theorem codesOfByte_frame (c : Context) (b : Byte) :
    ∃ buf n, (codesOfByte c b).2 = { c with accBuf := buf, accBits := n } := by
  unfold codesOfByte
  split_ifs
  · exact unpack_frame c b
  · exact ⟨c.accBuf, c.accBits, rfl⟩

theorem decByteResult_highBandBlind (p : Params) (b : Byte) : HighBandBlind fun c => decByteResult p c b := by
  intro c b1 h
  have hcodes : codesOfByte { c with band1 := b1 } b = ((codesOfByte c b).1, { (codesOfByte c b).2 with band1 := b1 }) := by
    simp only [codesOfByte]
    split_ifs <;> rfl
  obtain ⟨buf, n, hframe⟩ := codesOfByte_frame c b
  simp only [decByteResult, hcodes, hframe]
  exact decCodes_highBandBlind p _ { c with accBuf := buf, accBits := n } b1 h

/-- R239: where the bypass runs, a run of codewords leaves the delay line. -/
theorem decCodes_x_of_bypass (p : Params) (codes : List (BitVec 8)) (c : Context)
    (h : c.cfg.itu = true ∨ c.cfg.eightk = true) : (decCodes p codes c).2.x = c.x := by
  induction codes generalizing c with
  | nil => rfl
  | cons code rest ih =>
    simp only [decCodes_cons, decCode_bypass p c code h]
    exact ih _ h

theorem decByteResult_x_of_bypass (p : Params) (c : Context) (b : Byte) (h : c.cfg.itu = true ∨ c.cfg.eightk = true) :
    (decByteResult p c b).2.x = c.x := by
  obtain ⟨buf, n, hframe⟩ := codesOfByte_frame c b
  simp only [decByteResult, hframe]
  exact decCodes_x_of_bypass p _ { c with accBuf := buf, accBits := n } h

/-- R276: a bypass sample leaves the delay line in every mode. -/
theorem encSampleResult_x (p : Params) (c : Context) (smp : BitVec 16) : (encSampleResult p c smp).2.x = c.x := by
  obtain ⟨b0, b1, buf, n, hframe⟩ := encSampleResult_frame p c smp
  rw [hframe]

/-- Settles O38: both commands are blind to `Band[1]` in 8 kHz mode, which is also why they leave it. -/
theorem bypassModesLeaveHighBandAndLine : Obligations.BypassModesLeaveHighBandAndLine := by
  refine ⟨fun smp p c => ⟨encSampleResult_x p c smp, fun h => ?_⟩,
    fun b p c => ⟨fun h => decByteResult_x_of_bypass p c b h.symm, fun h => ?_⟩, fun p c xlow xhigh h => ?_,
    fun p c code code' h hfield => ?_⟩
  · have hblind := encodeAndEmit_highBandBlind p (asr smp.toInt 1) (asr smp.toInt 1)
    exact ⟨hblind.band1_eq h, fun b1 => ⟨congrArg (·.1) (hblind c b1 h), congrArg (·.2) (hblind c b1 h)⟩⟩
  · have hblind := decByteResult_highBandBlind p b
    exact ⟨hblind.band1_eq h, fun b1 => ⟨congrArg (·.1) (hblind c b1 h), congrArg (·.2) (hblind c b1 h)⟩⟩
  · rw [encCode_eightk xlow xhigh h, codeHigh_assembleCode]
  · rw [decCode_eightk p c code h, decCode_eightk p c code' h, codeRil, codeRil, hfield]

end Sys2Proof.Machine

/-! PROOFS. Family other, 45_bitpacker.md: the packer and the unpacker as a change of base of one number. -/

namespace Sys2Proof.Machine

/-! ### Streams as numbers -/

theorem digitsValue_append (base : Nat) (xs ys : List (BitVec 8)) :
    digitsValue base (xs ++ ys) = digitsValue base xs + base ^ xs.length * digitsValue base ys := by
  induction xs with
  | nil => simp [digitsValue]
  | cons x xs ih => 
    simp only [List.cons_append, digitsValue, ih, List.length_cons]
    ring

@[simp] theorem digitsValue_singleton (base : Nat) (v : BitVec 8) : digitsValue base [v] = v.toNat := rfl

/-- An accumulator takes in items of `wIn` bits and gives out items of `wOut` bits, oldest bits first: what it holds and takes
is what it gives and then holds, as one number and in bits. -/
structure Regroups (wIn wOut : Nat) (buf n : Nat) (ins outs : List (BitVec 8)) (buf' n' : Nat) : Prop where
  value : digitsValue (2 ^ wOut) outs + 2 ^ (wOut * outs.length) * buf' = buf + 2 ^ n * digitsValue (2 ^ wIn) ins
  count : wOut * outs.length + n' = n + wIn * ins.length
  held : buf' < 2 ^ n'

theorem Regroups.nil {wIn wOut buf n : Nat} (h : buf < 2 ^ n) : Regroups wIn wOut buf n [] [] buf n :=
  ⟨by simp [digitsValue], by simp, h⟩

/-- Two runs of an accumulator, one after the other. -/
theorem Regroups.append {wIn wOut buf n buf' n' buf'' n'' : Nat} {ins outs ins' outs' : List (BitVec 8)}
    (h : Regroups wIn wOut buf n ins outs buf' n') (h' : Regroups wIn wOut buf' n' ins' outs' buf'' n'') :
    Regroups wIn wOut buf n (ins ++ ins') (outs ++ outs') buf'' n'' where
  value := by
    have hshift : 2 ^ (wOut * outs.length) * 2 ^ n' = 2 ^ n * (2 ^ wIn) ^ ins.length := by
      rw [← pow_mul, ← pow_add, ← pow_add, h.count]
    rw [digitsValue_append, digitsValue_append, List.length_append, ← pow_mul]
    calc digitsValue (2 ^ wOut) outs + 2 ^ (wOut * outs.length) * digitsValue (2 ^ wOut) outs'
          + 2 ^ (wOut * (outs.length + outs'.length)) * buf''
        = digitsValue (2 ^ wOut) outs + 2 ^ (wOut * outs.length) *
            (digitsValue (2 ^ wOut) outs' + 2 ^ (wOut * outs'.length) * buf'') := by ring
      _ = (digitsValue (2 ^ wOut) outs + 2 ^ (wOut * outs.length) * buf')
            + 2 ^ (wOut * outs.length) * 2 ^ n' * digitsValue (2 ^ wIn) ins' := by rw [h'.value]; ring
      _ = buf + 2 ^ n * (digitsValue (2 ^ wIn) ins + (2 ^ wIn) ^ ins.length * digitsValue (2 ^ wIn) ins') := by
        rw [h.value, hshift]; ring
  count := by
    have hcount := h.count
    have hcount' := h'.count
    simp only [List.length_append, Nat.mul_add]
    omega
  held := h'.held

/-- Bits put above the `n` held ones (R251, R256). -/
theorem or_shiftLeft_eq_add {buf n : Nat} (h : buf < 2 ^ n) (v : Nat) : buf ||| (v <<< n) = buf + 2 ^ n * v := by
  rw [Nat.or_comm, ← Nat.shiftLeft_add_eq_or_of_lt h, Nat.shiftLeft_eq, Nat.mul_comm, Nat.add_comm]

theorem add_shifted_lt {buf n v w : Nat} (h : buf < 2 ^ n) (hv : v < 2 ^ w) : buf + 2 ^ n * v < 2 ^ (n + w) := by
  calc buf + 2 ^ n * v < 2 ^ n * (v + 1) := by rw [Nat.mul_succ]; omega
    _ ≤ 2 ^ n * 2 ^ w := Nat.mul_le_mul_left _ hv
    _ = 2 ^ (n + w) := (pow_add 2 n w).symm

/-! ### PACK (R251) -/

/-- R251: a codeword goes above the held bits, and a byte comes out once eight are there. -/
theorem pack_regroups (c : Context) {code : BitVec 8} (hn : c.accBits.toNat ≤ 7) (hbuf : c.accBuf.toNat < 2 ^ c.accBits.toNat)
    (hcode : code.toNat < 2 ^ c.cfg.bits.toNat) :
    Regroups c.cfg.bits.toNat 8 c.accBuf.toNat c.accBits.toNat [code] (pack c code).1 (pack c code).2.accBuf.toNat
      (pack c code).2.accBits.toNat ∧ (pack c code).2.accBits.toNat ≤ 7 := by
  have hw := codeBits_cases c.cfg.bits
  have hlt := add_shifted_lt hbuf hcode
  have hbound : 2 ^ (c.accBits.toNat + c.cfg.bits.toNat) ≤ 2 ^ 15 := Nat.pow_le_pow_right (by decide) (by omega)
  have hsum := or_shiftLeft_eq_add hbuf code.toNat
  have hcount := Nat.mod_eq_of_lt (a := c.accBits.toNat + c.cfg.bits.toNat - 8) (b := 2 ^ 4) (by omega)
  simp only [pack, hsum]
  split_ifs with hfull
  · generalize hv : c.accBuf.toNat + 2 ^ c.accBits.toNat * code.toNat = v at *
    have hlow : v &&& 0xFF = v % 256 := Nat.and_two_pow_sub_one_eq_mod v 8
    have hhigh : v >>> 8 = v / 256 := Nat.shiftRight_eq_div_pow v 8
    have hrest : v / 256 < 2 ^ (c.accBits.toNat + c.cfg.bits.toNat - 8) := by
      have hsplit : 2 ^ (c.accBits.toNat + c.cfg.bits.toNat - 8) * 256 = 2 ^ (c.accBits.toNat + c.cfg.bits.toNat) :=
        pow_sub_mul_pow 2 hfull
      rwa [Nat.div_lt_iff_lt_mul (by decide), hsplit]
    simp only [hlow, hhigh, BitVec.toNat_ofNat, hcount]
    refine ⟨⟨?_, ?_, ?_⟩, by omega⟩
    · simp only [digitsValue_singleton, List.length_singleton, BitVec.toNat_ofNat, hv]
      omega
    · simp only [List.length_singleton]
      omega
    · rwa [Nat.mod_eq_of_lt (by omega)]
  · rw [not_le] at hfull
    simp only [BitVec.toNat_ofNat, Nat.mod_eq_of_lt (hfull.trans (by decide : 8 < 2 ^ 4)), Nat.mod_eq_of_lt (hlt.trans_le (hbound.trans (by decide : 2 ^ 15 ≤ 2 ^ 16)))]
    refine ⟨⟨?_, ?_, hlt⟩, by omega⟩
    · simp [digitsValue]
    · simp

theorem packAll_regroups {c : Context} {codes : List (BitVec 8)} (hn : c.accBits.toNat ≤ 7)
    (hbuf : c.accBuf.toNat < 2 ^ c.accBits.toNat) (hcodes : ∀ code ∈ codes, code.toNat < 2 ^ c.cfg.bits.toNat) :
    Regroups c.cfg.bits.toNat 8 c.accBuf.toNat c.accBits.toNat codes (packAll c codes).1
      (packAll c codes).2.accBuf.toNat (packAll c codes).2.accBits.toNat ∧ (packAll c codes).2.accBits.toNat ≤ 7 := by
  induction codes generalizing c with
  | nil => exact ⟨.nil hbuf, hn⟩
  | cons code rest ih =>
    obtain ⟨hcode, hrest⟩ := List.forall_mem_cons.mp hcodes
    obtain ⟨hstep, hn'⟩ := pack_regroups c hn hbuf hcode
    have hcfg : (pack c code).2.cfg = c.cfg := by
      obtain ⟨buf, n, hframe⟩ := pack_frame c code
      rw [hframe]
    obtain ⟨hrun, hn''⟩ := ih hn' hstep.held (by rwa [hcfg])
    rw [hcfg] at hrun
    exact ⟨hstep.append hrun, hn''⟩

/-- Settles O46: the regrouping from an empty accumulator, where fewer than eight bits stay. -/
theorem packedStreamLayout : Obligations.PackedStreamLayout := by
  intro c codes hbits hbuf hn hcodes
  obtain ⟨⟨hvalue, hcount, hheld⟩, hle⟩ := packAll_regroups (c := c) (codes := codes) (by rw [hn]; decide)
    (by rw [hn, hbuf]; decide) hcodes
  have hbuf0 : c.accBuf.toNat = 0 := by rw [hbuf]; rfl
  have hn0 : c.accBits.toNat = 0 := by rw [hn]; rfl
  rw [hbuf0, hn0, Nat.zero_add, pow_zero, Nat.one_mul, pow_mul] at hvalue
  rw [hn0, Nat.zero_add, Nat.mul_comm c.cfg.bits.toNat] at hcount
  exact ⟨hvalue, by omega, by omega, hheld⟩

/-! ### UNPACK (R256, R257) -/

/-- A turn of the loop takes the oldest codeword. -/
theorem unpackLoop_regroups {w : Nat} (hw : w ≤ 8) (fuel : Nat) {buf n : Nat} (hbuf : buf < 2 ^ n) :
    let r := unpackLoop w fuel buf n
    digitsValue (2 ^ w) r.1 + 2 ^ (w * r.1.length) * r.2.1 = buf ∧ w * r.1.length + r.2.2 = n ∧ r.2.1 < 2 ^ r.2.2 ∧
      ∀ code ∈ r.1, code.toNat < 2 ^ w := by
  induction fuel generalizing buf n with
  | zero => simp [unpackLoop, digitsValue, hbuf]
  | succ fuel ih =>
    by_cases hfull : w ≤ n
    · have hmask : buf &&& ((1 <<< w) - 1) = buf % 2 ^ w := by
        rw [Nat.shiftLeft_eq, Nat.one_mul, Nat.and_two_pow_sub_one_eq_mod]
      have hpow : 2 ^ w ≤ 2 ^ 8 := Nat.pow_le_pow_right (by decide) hw
      have hmod : buf % 2 ^ w < 2 ^ w := Nat.mod_lt _ (by positivity)
      have hcode : (BitVec.ofNat 8 (buf % 2 ^ w)).toNat = buf % 2 ^ w := by
        rw [BitVec.toNat_ofNat, Nat.mod_eq_of_lt (hmod.trans_le hpow)]
      have hrest : buf / 2 ^ w < 2 ^ (n - w) := by
        rwa [Nat.div_lt_iff_lt_mul (by positivity), pow_sub_mul_pow 2 hfull]
      rw [unpackLoop_take hfull, hmask, Nat.shiftRight_eq_div_pow]
      obtain ⟨hvalue, hcount, hheld, hcodes⟩ := ih hrest
      generalize unpackLoop w fuel (buf / 2 ^ w) (n - w) = r at *
      refine ⟨?_, ?_, hheld, List.forall_mem_cons.mpr ⟨hcode.trans_lt hmod, hcodes⟩⟩
      · simp only [digitsValue, hcode, List.length_cons, Nat.mul_succ, pow_add]
        calc _ = buf % 2 ^ w + 2 ^ w * (digitsValue (2 ^ w) r.1 + 2 ^ (w * r.1.length) * r.2.1) := by ring
          _ = buf := by rw [hvalue, Nat.mod_add_div]
      · simp only [List.length_cons, Nat.mul_succ]
        omega
    · rw [unpackLoop_stop (by omega)]
      simp [digitsValue, hbuf]

/-- R256, R257: a byte goes above the held bits, and every whole codeword comes out. -/
theorem unpack_regroups (c : Context) (b : Byte) (hbuf : c.accBuf.toNat < 2 ^ c.accBits.toNat) :
    Regroups 8 c.cfg.bits.toNat c.accBuf.toNat c.accBits.toNat [b] (unpack c b).1 (unpack c b).2.accBuf.toNat
      (unpack c b).2.accBits.toNat ∧ (unpack c b).2.accBits.toNat < c.cfg.bits.toNat ∧
      ∀ code ∈ (unpack c b).1, code.toNat < 2 ^ c.cfg.bits.toNat := by
  have hw := codeBits_cases c.cfg.bits
  have hdrain := unpackLoop_drains c.cfg.bits (n := c.accBits.toNat + 8) (c.accBuf.toNat + 2 ^ c.accBits.toNat * b.toNat)
    (by omega)
  obtain ⟨hvalue, hcount, hheld, hcodes⟩ := unpackLoop_regroups (w := c.cfg.bits.toNat) (by omega) 4
    (add_shifted_lt hbuf b.isLt)
  simp only [unpack, or_shiftLeft_eq_add hbuf]
  generalize unpackLoop c.cfg.bits.toNat 4 (c.accBuf.toNat + 2 ^ c.accBits.toNat * b.toNat) (c.accBits.toNat + 8) = r at *
  have hpow : 2 ^ r.2.2 ≤ 2 ^ 16 := Nat.pow_le_pow_right (by decide) (by omega)
  have hbits : (BitVec.ofNat 4 r.2.2).toNat = r.2.2 := by
    rw [BitVec.toNat_ofNat]
    omega
  have hrest : (BitVec.ofNat 16 r.2.1).toNat = r.2.1 := by
    rw [BitVec.toNat_ofNat, Nat.mod_eq_of_lt (hheld.trans_le hpow)]
  rw [hbits, hrest]
  exact ⟨⟨hvalue, hcount, hheld⟩, hdrain, hcodes⟩

theorem codeBits_of_ne_eight {bits : CodeBits} (h : bits ≠ .eight) : bits.toNat = 6 ∨ bits.toNat = 7 := by
  cases bits
  · exact .inl rfl
  · exact .inr rfl
  · exact absurd rfl h

/-- Settles O48: the regrouping of one byte; the counts leave room for one codeword or two. -/
theorem unpackDrains : Obligations.UnpackDrains := by
  intro c b hn hbuf hbits
  obtain ⟨⟨hvalue, hcount, hheld⟩, hdrain, hcodes⟩ := unpack_regroups c b hbuf
  rw [List.length_singleton] at hcount
  rw [digitsValue_singleton] at hvalue
  have hw := codeBits_of_ne_eight hbits
  generalize c.cfg.bits.toNat = w at *
  refine ⟨hvalue, hcount, ?_, ?_, hcodes, hdrain, hheld⟩
  · obtain rfl | rfl := hw <;> omega
  · obtain rfl | rfl := hw <;> omega

theorem unpackAll_regroups {c : Context} (bytes : List Byte) (hbuf : c.accBuf.toNat < 2 ^ c.accBits.toNat) :
    Regroups 8 c.cfg.bits.toNat c.accBuf.toNat c.accBits.toNat bytes (unpackAll c bytes).1
      (unpackAll c bytes).2.accBuf.toNat (unpackAll c bytes).2.accBits.toNat ∧
      (c.accBits.toNat < c.cfg.bits.toNat → (unpackAll c bytes).2.accBits.toNat < c.cfg.bits.toNat) ∧
      ∀ code ∈ (unpackAll c bytes).1, code.toNat < 2 ^ c.cfg.bits.toNat := by
  induction bytes generalizing c with
  | nil => exact ⟨.nil hbuf, id, fun _ h => absurd h List.not_mem_nil⟩
  | cons b rest ih =>
    obtain ⟨hstep, hdrain, hcodes⟩ := unpack_regroups c b hbuf
    have hcfg : (unpack c b).2.cfg = c.cfg := rfl
    obtain ⟨hrun, hdrain', hcodes'⟩ := ih hstep.held
    rw [hcfg] at hrun hdrain' hcodes'
    exact ⟨hstep.append hrun, fun _ => hdrain' hdrain, List.forall_mem_append.mpr ⟨hcodes, hcodes'⟩⟩

/-! ### Packing, then unpacking -/

/-- Digits of a base are determined from below. -/
theorem eq_take_of_digitsValue_eq {base : Nat} {xs ys : List (BitVec 8)} {high : Nat} (hx : ∀ v ∈ xs, v.toNat < base)
    (hy : ∀ v ∈ ys, v.toNat < base) (hle : xs.length ≤ ys.length)
    (h : digitsValue base xs + base ^ xs.length * high = digitsValue base ys) : xs = ys.take xs.length := by
  induction xs generalizing ys with
  | nil => rfl
  | cons x xs ih =>
    cases ys with
    | nil => simp at hle
    | cons y ys =>
      obtain ⟨hx, hxs⟩ := List.forall_mem_cons.mp hx
      obtain ⟨hy, hys⟩ := List.forall_mem_cons.mp hy
      simp only [digitsValue, List.length_cons, pow_succ] at h hle
      have hsplit : x.toNat + base * (digitsValue base xs + base ^ xs.length * high) =
          y.toNat + base * digitsValue base ys := by
        rw [← h]
        ring
      have hdigit : x.toNat = y.toNat := by
        have hmod := congrArg (· % base) hsplit
        simpa [Nat.add_mul_mod_self_left, Nat.mod_eq_of_lt hx, Nat.mod_eq_of_lt hy] using hmod
      have hrest : digitsValue base xs + base ^ xs.length * high = digitsValue base ys := by
        rw [hdigit] at hsplit
        exact Nat.eq_of_mul_eq_mul_left (by omega) (Nat.add_left_cancel hsplit)
      rw [List.length_cons, List.take_succ_cons, BitVec.eq_of_toNat_eq hdigit, ← ih hxs hys (by omega) hrest]

/-- Settles O47: unpacking regroups the number the packed bytes are, which below the held bits is the codewords; the count
says how many of them are whole. -/
theorem unpackInvertsPack : Obligations.UnpackInvertsPack := by
  intro c c' codes hbits hcfg hbuf hn hbuf' hn' hcodes
  have hzero {c : Context} (hbuf : c.accBuf = 0) (hn : c.accBits = 0) :
      c.accBuf.toNat = 0 ∧ c.accBits.toNat = 0 ∧ c.accBuf.toNat < 2 ^ c.accBits.toNat := by
    rw [hbuf, hn]
    decide
  obtain ⟨hb, hk, hheld⟩ := hzero hbuf hn
  obtain ⟨hb', hk', hheld'⟩ := hzero hbuf' hn'
  obtain ⟨⟨hvalue, hcount, -⟩, hle⟩ := packAll_regroups (by omega) hheld hcodes
  obtain ⟨⟨hvalue', hcount', -⟩, hdrain, hcodes'⟩ := unpackAll_regroups (packAll c codes).1 hheld'
  rw [hb, hk, Nat.zero_add, pow_zero, Nat.one_mul] at hvalue
  rw [hb', hk', Nat.zero_add, pow_zero, Nat.one_mul] at hvalue'
  rw [hk] at hcount
  rw [hk'] at hcount' hdrain
  rw [hcfg] at *
  generalize packAll c codes = packed at *
  generalize unpackAll c' packed.1 = unpacked at *
  have hw := codeBits_of_ne_eight hbits
  have hdrain := hdrain (by omega)
  have hlength : unpacked.1.length =
      if codes.length * c.cfg.bits.toNat % 8 = 0 then codes.length else codes.length - 1 := by
    generalize c.cfg.bits.toNat = w at *
    have hrem : packed.2.accBits.toNat = codes.length * w % 8 := by
      rw [Nat.mul_comm]
      omega
    obtain rfl | rfl := hw <;> split_ifs <;> omega
  have hpow : 2 ^ (8 * packed.1.length) = (2 ^ c.cfg.bits.toNat) ^ unpacked.1.length * 2 ^ unpacked.2.accBits.toNat := by
    rw [← pow_mul, ← pow_add, hcount', Nat.zero_add]
  have hdigits : digitsValue (2 ^ c.cfg.bits.toNat) unpacked.1 + (2 ^ c.cfg.bits.toNat) ^ unpacked.1.length *
      (unpacked.2.accBuf.toNat + 2 ^ unpacked.2.accBits.toNat * packed.2.accBuf.toNat) =
      digitsValue (2 ^ c.cfg.bits.toNat) codes := by
    rw [← hvalue, ← hvalue', hpow, pow_mul]
    ring
  rw [← hlength]
  exact eq_take_of_digitsValue_eq hcodes' hcodes (by rw [hlength]; split_ifs <;> omega) hdigits

end Sys2Proof.Machine

/-! PROOFS. Family other, 46_commands.md sections 2 and 3, 42_lowband_adpcm.md section 4: how much a data command answers, and
the decoder that follows the encoder. -/

namespace Sys2Proof.Machine

/-! ### The length of an answer -/

theorem pack_length_le (c : Context) (code : BitVec 8) : (pack c code).1.length ≤ 1 := by
  unfold pack
  dsimp only
  split_ifs <;> simp

theorem emit_length (c : Context) (code : BitVec 8) :
    (emit c code).1.length ≤ 1 ∧ (c.cfg.packed = false → (emit c code).1.length = 1) := by
  cases hp : c.cfg.packed with
  | true =>
    rw [emit_of_packed code hp]
    exact ⟨pack_length_le c code, fun h => nomatch h⟩
  | false =>
    rw [emit_of_unpacked code hp]
    exact ⟨le_rfl, fun _ => rfl⟩

theorem encCode_cfg (p : Params) (c : Context) (xlow xhigh : Int) : (encCode p c xlow xhigh).2.cfg = c.cfg := by
  obtain ⟨b0, b1, hframe⟩ := encCode_frame p c xlow xhigh
  rw [hframe]

theorem encodeAndEmit_length (p : Params) (c : Context) (xlow xhigh : Int) :
    (encodeAndEmit p c xlow xhigh).1.length ≤ 1 ∧
      (c.cfg.packed = false → (encodeAndEmit p c xlow xhigh).1.length = 1) := by
  rw [← encCode_cfg p c xlow xhigh]
  exact emit_length _ _

/-- R117, R279: the output stage of every mode. -/
theorem decCode_length (p : Params) (c : Context) (code : BitVec 8) :
    (decCode p c code).1.length = samplesPerCodeword c.cfg := by
  by_cases hmode : c.cfg.itu = true ∨ c.cfg.eightk = true
  · rw [decCode_bypass p c code hmode]
    cases hitu : c.cfg.itu <;> simp_all [rxBypass, samplesPerCodeword]
  · simp only [not_or, Bool.not_eq_true] at hmode
    obtain ⟨hitu, heightk⟩ := hmode
    rw [decCode_fullBand p c code heightk hitu]
    simp [qmfRx, samplesPerCodeword, heightk]

theorem decCode_cfg (p : Params) (c : Context) (code : BitVec 8) : (decCode p c code).2.cfg = c.cfg := by
  obtain ⟨b0, b1, x, hframe⟩ := decCode_frame p c code
  rw [hframe]

theorem decCodes_length (p : Params) (codes : List (BitVec 8)) (c : Context) :
    (decCodes p codes c).1.length = samplesPerCodeword c.cfg * codes.length := by
  induction codes generalizing c with
  | nil => rfl
  | cons code rest ih =>
    rw [decCodes_cons, List.length_append, decCode_length, ih, decCode_cfg, List.length_cons]
    ring

/-- R256: each turn of the loop takes `bits` bits. -/
theorem unpackLoop_count (bits fuel buf n : Nat) :
    bits * (unpackLoop bits fuel buf n).1.length + (unpackLoop bits fuel buf n).2.2 = n := by
  induction fuel generalizing buf n with
  | zero => simp [unpackLoop]
  | succ fuel ih =>
    by_cases hfull : bits ≤ n
    · have hrest := ih (buf >>> bits) (n - bits)
      rw [unpackLoop_take hfull]
      simp only [List.length_cons, Nat.mul_succ]
      omega
    · rw [unpackLoop_stop (by omega)]
      simp

/-- R257: UNPACK takes every whole codeword, whatever the buffer holds. -/
theorem unpack_length (c : Context) (b : Byte) :
    (unpack c b).1.length = (c.accBits.toNat + 8) / c.cfg.bits.toNat ∧
      (unpack c b).2.accBits.toNat = (c.accBits.toNat + 8) % c.cfg.bits.toNat := by
  have hw := codeBits_cases c.cfg.bits
  have hcount := unpackLoop_count c.cfg.bits.toNat 4 (c.accBuf.toNat ||| (b.toNat <<< c.accBits.toNat)) (c.accBits.toNat + 8)
  have hdrain := unpackLoop_drains c.cfg.bits (n := c.accBits.toNat + 8)
    (c.accBuf.toNat ||| (b.toNat <<< c.accBits.toNat)) (by omega)
  simp only [unpack]
  generalize unpackLoop c.cfg.bits.toNat 4 (c.accBuf.toNat ||| (b.toNat <<< c.accBits.toNat)) (c.accBits.toNat + 8) = r at *
  have hbits : (BitVec.ofNat 4 r.2.2).toNat = r.2.2 := by
    rw [BitVec.toNat_ofNat]
    omega
  have hpos : 0 < c.cfg.bits.toNat := by omega
  obtain ⟨hquot, hrem⟩ := (Nat.div_mod_unique hpos).mpr ⟨(Nat.add_comm _ _).trans hcount, hdrain⟩
  rw [hbits, hquot, hrem]
  exact ⟨rfl, rfl⟩

/-- R119 for one byte. -/
theorem codesOfByte_length (c : Context) (b : Byte) : (codesOfByte c b).1.length = decodeCodewords c 1 := by
  unfold codesOfByte decodeCodewords
  split_ifs
  · obtain ⟨hlength, -⟩ := unpack_length c b
    exact hlength
  · rfl

theorem decByteResult_length (p : Params) (c : Context) (b : Byte) :
    (decByteResult p c b).1.length = decodeSampleCount c 1 := by
  obtain ⟨buf, n, hframe⟩ := codesOfByte_frame c b
  have hcfg : (codesOfByte c b).2.cfg = c.cfg := by rw [hframe]
  rw [decByteResult, decCodes_length, hcfg, codesOfByte_length, decodeSampleCount]

/-- R257: no byte completes more than two codewords. -/
theorem decodeCodewords_one_le {c : Context} (hn : c.accBits.toNat < c.cfg.bits.toNat)  :
    decodeCodewords c 1 ≤ 2 := by
  unfold decodeCodewords
  split_ifs
  · have hw := codeBits_cases c.cfg.bits
    have htwo : c.accBits.toNat + 8 * 1 < 3 * c.cfg.bits.toNat := by omega
    exact Nat.le_of_lt_succ (Nat.div_lt_of_lt_mul (by omega))
  · decide

theorem samplesPerCodeword_le (cfg : Cfg) : samplesPerCodeword cfg ≤ 2 := by
  unfold samplesPerCodeword
  split_ifs <;> decide

/-- Settles O49: an encoder command emits one codeword, a byte completes at most two, of at most two samples each. -/
theorem responseLengths : Obligations.ResponseLengths := by
  refine ⟨fun s0 s1 p c => ?_, fun b p c hn _ => ⟨decByteResult_length p c b, ?_⟩⟩
  · obtain ⟨hpair, hpair'⟩ := encodeAndEmit_length p { c with x := (qmfTx p c.x s0 s1).1 } (qmfTx p c.x s0 s1).2.1
      (qmfTx p c.x s0 s1).2.2
    obtain ⟨hsample, hsample'⟩ := encodeAndEmit_length p c (asr s0.toInt 1) (asr s0.toInt 1)
    exact ⟨hpair, hsample, fun h => ⟨hpair' h, hsample' h⟩⟩
  · rw [decByteResult_length, decodeSampleCount]
    exact Nat.mul_le_mul (samplesPerCodeword_le c.cfg) (decodeCodewords_one_le hn)

/-! ### The decoder follows the encoder -/

/-- Two contexts with the same configuration and the same banks. -/
structure SameBanks (c d : Context) : Prop where
  cfg : c.cfg = d.cfg
  band0 : c.band0 = d.band0
  band1 : c.band1 = d.band1

/-- R279: the banks after one codeword, in every mode. -/
theorem decCode_banks (p : Params) (d : Context) (code : BitVec 8) :
    (decCode p d code).2.band0 = lowAdapt p.tables d.band0 (codeRil d.cfg.bits code) ∧
      (decCode p d code).2.band1 =
        if d.cfg.eightk then d.band1 else highAdapt p.tables d.band1 (codeHigh d.cfg.bits code) := by
  by_cases hmode : d.cfg.itu = true ∨ d.cfg.eightk = true
  · rw [decCode_bypass p d code hmode]
    refine ⟨rfl, ?_⟩
    dsimp only
    split_ifs <;> rfl
  · simp only [not_or, Bool.not_eq_true] at hmode
    obtain ⟨hitu, heightk⟩ := hmode
    rw [decCode_fullBand p d code heightk hitu, heightk]
    exact ⟨rfl, rfl⟩

/-- R187, R216: both sides adapt their banks by the same fields of the codeword. -/
theorem SameBanks.encCode_decCode {c d : Context} (h : SameBanks c d) (p : Params) (xlow xhigh : Int) :
    SameBanks (encCode p c xlow xhigh).2 (decCode p d (encCode p c xlow xhigh).1).2 := by
  obtain ⟨hcfg, hband0, hband1⟩ := h
  obtain ⟨hdec0, hdec1⟩ := decCode_banks p d (encCode p c xlow xhigh).1
  refine ⟨by rw [encCode_cfg, decCode_cfg, hcfg], ?_, ?_⟩
  · rw [hdec0, ← hcfg, ← hband0]
    cases heightk : c.cfg.eightk with
    | true => rw [encCode_eightk _ _ heightk, codeRil_assembleCode]; rfl
    | false => rw [encCode_both _ _ heightk, codeRil_assembleCode]; rfl
  · rw [hdec1, ← hcfg, ← hband1]
    cases heightk : c.cfg.eightk with
    | true => rw [encCode_eightk _ _ heightk]; rfl
    | false => rw [encCode_both _ _ heightk, codeHigh_assembleCode]; rfl

/-- R278: an unpacked byte is one codeword. -/
theorem decByteResult_of_unpacked (p : Params) {d : Context} (b : Byte) (h : d.cfg.packed = false) :
    (decByteResult p d b).2 = (decCode p d b).2 := by
  simp [decByteResult, codesOfByte, h, takeByte, decCodes]

/-- R252, R277: an unpacked byte in an encoder's answer is the codeword of `ENC_CODE`. -/
theorem runOn_answers_byte {p : Params} {c : Context} {i : Instr} {b : Byte} (hk : target i = .enc)
    (hpacked : c.cfg.packed = false) (h : (runOn p c i).1 = ⟨0, [.byte b]⟩) :
    ∃ x xlow xhigh, (encCode p { c with x := x } xlow xhigh).1 = b ∧
      (runOn p c i).2 = (encCode p { c with x := x } xlow xhigh).2 := by
  have hend := runOn_end p c i
  generalize runOn p c i = r at *
  cases hend with
  | refused hcode hno => cases congrArg Response.out h
  | constructed bits options itu hk => cases h
  | encoded x xlow xhigh hc hk hno hx =>
    refine ⟨x, xlow, xhigh, ?_⟩
    have hemit := emit_of_unpacked (encCode p { c with x := x } xlow xhigh).1
      ((congrArg Cfg.packed (encCode_cfg p { c with x := x } xlow xhigh)).trans hpacked)
    simp only [encodeAndEmit, hemit, List.map_singleton, Response.mk.injEq, List.cons.injEq, OutItem.byte.injEq] at h ⊢
    exact ⟨h.2.1, trivial⟩
  | decoded b hc hdec hno => cases hk.symm.trans hdec
  | statusRead hno => cases h

/-- Settles O50: a completed encoder command ran `encCode`, whose codeword is the byte answered; the decoder then runs
`decCode` on it. -/
theorem decoderTracksEncoder : Obligations.DecoderTracksEncoder := by
  intro s t i hi hc hd hcfg hpacked hband0 hband1 ht b hresp
  have htarget : target i = .enc := by obtain ⟨s0, s1, rfl⟩ | ⟨smp, rfl⟩ := hi <;> rfl
  obtain rfl := eq_updated_of_exec ht
  have hanswer := response_eq_of_append ((updated_responses _ _ _).symm.trans hresp)
  rw [htarget] at hanswer ⊢
  refine ⟨_, exec_eq_updated (.decByte b) _, ?_⟩
  have hsame : SameBanks (runOn s.params s.enc i).2 (runOn s.params s.dec (.decByte b)).2 := by
    rw [runOn, if_neg (by simp [hd]), decByteResult_of_unpacked _ _ (hcfg ▸ hpacked)]
    obtain ⟨x, xlow, xhigh, rfl, hctx⟩ := runOn_answers_byte htarget hpacked hanswer
    have hbefore : SameBanks { s.enc with x := x } s.dec := ⟨hcfg, hband0, hband1⟩
    rw [hctx]
    exact hbefore.encCode_decCode s.params xlow xhigh
  exact ⟨hsame.band0.symm, hsame.band1.symm⟩

end Sys2Proof.Machine

/-! PROOFS. Family other, 10_state.md: the invariant of reachable states and the step sizes. -/

namespace Sys2Proof.Machine

/-! ### Banks (10_state.md section 2) -/

/-- R32: what a sign register holds. -/
theorem toReg_sgn_cases (v : Int) : toReg (sgn v) = 0 ∨ toReg (sgn v) = -1 := by
  obtain h | h := sgn_cases v
  · exact .inl (by rw [h]; rfl)
  · exact .inr (by rw [h]; rfl)

/-- BLOCK4 leaves every bank with its invariant, but for the four registers no rule writes and for `Nb` and `Det`, which it
leaves as they are. -/
theorem bandOk_block4 {maxNb minDet : Nat} {b : Band} (d : Int) (ha0 : b.a[0] = 0) (hap0 : b.ap[0] = 0)
    (hb0 : b.b[0] = 0) (hbp0 : b.bp[0] = 0) (hnb : b.nb.toNat ≤ maxNb) (hmin : minDet ≤ b.det.toNat)
    (hmul : b.det.toNat % 4 = 0) : BandOk maxNb minDet (block4 b d) := by
  obtain ⟨ha, -, -⟩ := block4_a_toInt b d
  obtain ⟨hap, hap1, hap2⟩ := block4_ap_eq b d
  have hb := (block4_b_zero b d).trans hb0
  have hbp := (block4_bp_zero b d).trans hbp0
  refine
    { a0 := ha.trans ha0, ap0 := hap.trans hap0, b0 := hb, bp0 := hbp, ap1 := hap1, ap2 := hap2, bp := ?_
      r01 := by simp only [block4_r]; rfl
      p01 := by simp only [block4_p]; rfl
      d01 := by simp only [block4_d]; rfl
      sg := ?_, poles := block4KeepsPoleLimits b d
      nb := by rwa [block4_nb]
      detMin := by rwa [block4_det]
      detMul := by rwa [block4_det] }
  · exact Fin.cases (hbp.trans hb.symm) fun k => (block4_b_succ b d k).symm
  · exact Fin.cases (toReg_sgn_cases d) fun k => (block4_sg_succ b d k).symm ▸ toReg_sgn_cases _

/-- R47: a bank in its construction state. -/
theorem bandOk_constructed {maxNb minDet : Nat} {det : Reg15} (hmin : minDet ≤ det.toNat) (hmul : det.toNat % 4 = 0) :
    BandOk maxNb minDet (Band.constructed det) where
  a0 := rfl
  ap0 := rfl
  b0 := rfl
  bp0 := rfl
  ap1 := rfl
  ap2 := rfl
  bp _ := rfl
  r01 := rfl
  p01 := rfl
  d01 := rfl
  sg i := by
    obtain ⟨-, -, -, hsg⟩ := Band.constructed_zeroVectors_getElem det i
    exact .inl hsg
  poles := (by decide : -12288 ≤ (0 : Reg16).toInt ∧ (0 : Reg16).toInt ≤ 12288 ∧
    -(15360 - (0 : Reg16).toInt) ≤ (0 : Reg16).toInt ∧ (0 : Reg16).toInt ≤ 15360 - (0 : Reg16).toInt)
  nb := Nat.zero_le _
  detMin := hmin
  detMul := hmul

/-- R34: the step size in its register, with any table set of the shape of R77. -/
theorem toReg15_scaleDet {t : Tables} (ht : TablesOk t) {base : Nat} (hbase : base ≤ 11) {nb : Reg15}
    (h : nb.toNat ≤ 2048 * (base + 1)) :
    2 ^ (11 - base) * 4 ≤ (toReg15 (scaleDet t base nb)).toNat ∧ (toReg15 (scaleDet t base nb)).toNat % 4 = 0 := by
  have hreg := toReg15_toNat (scaleDet_fits ht hbase h)
  have hmul := scaleDet_emod_four t base nb
  refine ⟨?_, by omega⟩
  have hmin : 2 ^ (11 - base) * 4 ≤ scaleDet t base nb := by
    obtain hle | hlt := le_or_gt (nb.toNat / 2048) base
    · obtain ⟨hlo, -⟩ := scaleDet_bounds_of_le ht.ilb hbase hle
      exact hlo
    · have hpow : (2 : Int) ^ (11 - base) ≤ 2048 := two_pow_le_2048 (Nat.sub_le 11 base)
      obtain ⟨hfirst, -⟩ : 2048 ≤ t.ilb[0] ∧ t.ilb[0] ≤ 4095 := ht.ilb 0
      rw [scaleDet_top t ((base_lt_div_iff h).mp hlt)]
      omega
  rw [← hreg] at hmin
  exact_mod_cast hmin

theorem BandOk.lowAdapt {t : Tables} (ht : TablesOk t) {b : Band} (h : BandOk 18432 32 b) (ril : BitVec 4) :
    BandOk 18432 32 (lowAdapt t b ril) := by
  have hnb := logscl_nb_le t b ril
  obtain ⟨hmin, hmul⟩ := toReg15_scaleDet ht (base := 8) (by decide) hnb
  rw [lowAdapt_eq]
  exact bandOk_block4 _ h.a0 h.ap0 h.b0 h.bp0 hnb hmin hmul

theorem BandOk.highAdapt {t : Tables} (ht : TablesOk t) {b : Band} (h : BandOk 22528 8 b) (ihigh : BitVec 2) :
    BandOk 22528 8 (highAdapt t b ihigh) := by
  have hnb := logsch_nb_le t b ihigh
  obtain ⟨hmin, hmul⟩ := toReg15_scaleDet ht (base := 10) (by decide) hnb
  rw [highAdapt_eq]
  exact bandOk_block4 _ h.a0 h.ap0 h.b0 h.bp0 hnb hmin hmul

/-- R34: each adaptation leaves the step size of its own `Nb`. -/
theorem lowAdapt_det (t : Tables) (b : Band) (ril : BitVec 4) :
    (lowAdapt t b ril).det = toReg15 (scaleDet t 8 (lowAdapt t b ril).nb) := by
  rw [lowAdapt_eq, block4_det, block4_nb]

theorem highAdapt_det (t : Tables) (b : Band) (ihigh : BitVec 2) :
    (highAdapt t b ihigh).det = toReg15 (scaleDet t 10 (highAdapt t b ihigh).nb) := by
  rw [highAdapt_eq, block4_det, block4_nb, scaleh_det]

/-! ### What a codeword does to a context -/

/-- One codeword through a context, either way: the banks adapt, `Band[1]` not in 8 kHz mode, and the delay line is left where
the bypass runs. -/
structure CodewordStep (t : Tables) (c c' : Context) : Prop where
  cfg : c'.cfg = c.cfg
  status : c'.status = c.status
  accBuf : c'.accBuf = c.accBuf
  accBits : c'.accBits = c.accBits
  band0 : ∃ ril, c'.band0 = lowAdapt t c.band0 ril
  band1 : (c.cfg.eightk = true ∧ c'.band1 = c.band1) ∨
    (c.cfg.eightk = false ∧ ∃ ihigh, c'.band1 = highAdapt t c.band1 ihigh)
  line : c.cfg.eightk = true ∨ c.cfg.itu = true → c'.x = c.x

theorem encCode_codewordStep (p : Params) (c : Context) (xlow xhigh : Int) :
    CodewordStep p.tables c (encCode p c xlow xhigh).2 := by
  cases h : c.cfg.eightk with
  | true =>
    rw [encCode_eightk _ _ h]
    exact ⟨rfl, rfl, rfl, rfl, ⟨_, rfl⟩, .inl ⟨h, rfl⟩, fun _ => rfl⟩
  | false =>
    rw [encCode_both _ _ h]
    exact ⟨rfl, rfl, rfl, rfl, ⟨_, rfl⟩, .inr ⟨h, _, rfl⟩, fun _ => rfl⟩

theorem decCode_codewordStep (p : Params) (c : Context) (code : BitVec 8) :
    CodewordStep p.tables c (decCode p c code).2 := by
  obtain ⟨hband0, hband1⟩ := decCode_banks p c code
  have hline (h : c.cfg.eightk = true ∨ c.cfg.itu = true) : (decCode p c code).2.x = c.x := by
    rw [decCode_bypass p c code h.symm]
  obtain ⟨b0, b1, x, hframe⟩ := decCode_frame p c code
  rw [hframe] at hband0 hband1 hline ⊢
  refine ⟨rfl, rfl, rfl, rfl, ⟨_, hband0⟩, ?_, hline⟩
  cases h : c.cfg.eightk with
  | true => exact .inl ⟨rfl, by simpa [h] using hband1⟩
  | false => exact .inr ⟨rfl, _, by simpa [h] using hband1⟩

theorem ContextOk.codewordStep {t : Tables} (ht : TablesOk t) {c c' : Context} (h : ContextOk c)
    (hstep : CodewordStep t c c') : ContextOk c' := by
  obtain ⟨hcfg, -, hbuf, hbits, ⟨ril, hband0⟩, hband1, hline⟩ := hstep
  have hhigh : BandOk 22528 8 c'.band1 := by
    obtain ⟨-, heq⟩ | ⟨-, ihigh, heq⟩ := hband1
    · exact heq ▸ h.high
    · exact heq ▸ h.high.highAdapt ht ihigh
  refine
    { low := hband0 ▸ h.low.lowAdapt ht ril, high := hhigh
      packed := by rw [hcfg]; exact h.packed
      unpacked := by rw [hcfg, hbuf, hbits]; exact h.unpacked
      acc := by rw [hbuf, hbits]; exact h.acc
      eightk := fun h8 => ?_
      line := by rw [hcfg]; exact fun hmode => (hline hmode).trans (h.line hmode) }
  rw [hcfg] at h8
  obtain ⟨-, heq⟩ | ⟨h8', -⟩ := hband1
  · exact heq.trans (h.eightk h8)
  · rw [h8] at h8'
    cases h8'

/-! ### The accumulator (10_state.md section 6) -/

/-- A new accumulator content keeps the invariant of a context when it fits its count, and is empty unless packed. -/
theorem ContextOk.withAccumulator {c : Context} (h : ContextOk c) {buf : BitVec 16} {n : BitVec 4}
    (hheld : buf.toNat < 2 ^ n.toNat) (hpacked : c.cfg.packed = true) :
    ContextOk { c with accBuf := buf, accBits := n } :=
  { h with unpacked := fun hno => (nomatch hpacked.symm.trans hno), acc := hheld }

theorem ContextOk.emit {c : Context} (h : ContextOk c) (hn : c.accBits.toNat ≤ 7) {code : BitVec 8}
    (hcode : code.toNat < 2 ^ c.cfg.bits.toNat) :
    ContextOk (emit c code).2 ∧ (emit c code).2.accBits.toNat ≤ 7 := by
  cases hp : c.cfg.packed with
  | false =>
    rw [emit_of_unpacked code hp]
    exact ⟨h, hn⟩
  | true =>
    rw [emit_of_packed code hp]
    obtain ⟨⟨-, -, hheld⟩, hle⟩ := pack_regroups c hn h.acc hcode
    obtain ⟨buf, n, hframe⟩ := pack_frame c code
    rw [hframe] at hheld hle ⊢
    exact ⟨h.withAccumulator hheld hp, hle⟩

theorem ContextOk.codesOfByte {c : Context} (h : ContextOk c) (hn : c.accBits.toNat < c.cfg.bits.toNat) (b : Byte) :
    ContextOk (codesOfByte c b).2 ∧ (codesOfByte c b).2.accBits.toNat < c.cfg.bits.toNat := by
  unfold Machine.codesOfByte
  split_ifs with hp
  · obtain ⟨⟨-, -, hheld⟩, hdrain, -⟩ := unpack_regroups c b h.acc
    exact ⟨h.withAccumulator hheld hp, hdrain⟩
  · exact ⟨h, hn⟩

/-! ### Commands -/

/-- The codeword `ENC_CODE` gives fits `BITS` bits. -/
theorem encCode_lt (p : Params) (c : Context) (xlow xhigh : Int) :
    (encCode p c xlow xhigh).1.toNat < 2 ^ c.cfg.bits.toNat := by
  cases h : c.cfg.eightk with
  | true =>
    rw [encCode_eightk _ _ h]
    exact assembleCode_lt _ _ _
  | false =>
    rw [encCode_both _ _ h]
    exact assembleCode_lt _ _ _

theorem ContextOk.encodeAndEmit {p : Params} (ht : TablesOk p.tables) {c : Context} (h : ContextOk c)
    (hn : c.accBits.toNat ≤ 7) (xlow xhigh : Int) :
    ContextOk (encodeAndEmit p c xlow xhigh).2 ∧ (encodeAndEmit p c xlow xhigh).2.accBits.toNat ≤ 7 := by
  have hstep := encCode_codewordStep p c xlow xhigh
  refine (h.codewordStep ht hstep).emit ?_ ?_
  · rwa [hstep.accBits]
  · rw [hstep.cfg]
    exact encCode_lt p c xlow xhigh

theorem ContextOk.decCodes {p : Params} (ht : TablesOk p.tables) (codes : List (BitVec 8)) {c : Context}
    (h : ContextOk c) : ContextOk (decCodes p codes c).2 := by
  induction codes generalizing c with
  | nil => exact h
  | cons code rest ih => exact ih (h.codewordStep ht (decCode_codewordStep p c code))

theorem ContextOk.decByteResult {p : Params} (ht : TablesOk p.tables) {c : Context} (h : ContextOk c)
    (hn : c.accBits.toNat < c.cfg.bits.toNat) (b : Byte) :
    ContextOk (decByteResult p c b).2 ∧ (decByteResult p c b).2.accBits.toNat < (decByteResult p c b).2.cfg.bits.toNat := by
  obtain ⟨hcodes, hdrain⟩ := h.codesOfByte hn b
  obtain ⟨b0, b1, x, hframe⟩ := decCodes_frame p (Machine.codesOfByte c b).1 (Machine.codesOfByte c b).2
  obtain ⟨buf, n, hframe'⟩ := codesOfByte_frame c b
  refine ⟨hcodes.decCodes ht _, ?_⟩
  rw [Machine.decByteResult, hframe]
  rw [hframe'] at hdrain ⊢
  exact hdrain

theorem contextOk_constructed (bits : CodeBits) (options : BitVec 8) (itu : Bool) :
    ContextOk (Context.constructed (cfgOf bits options itu)) where
  low := bandOk_constructed (by decide) (by decide)
  high := bandOk_constructed (by decide) (by decide)
  packed := by
    intro h
    simp only [Context.constructed, cfgOf, Bool.and_eq_true, bne_iff_ne] at h
    exact h.2
  unpacked _ := ⟨rfl, rfl⟩
  acc := (by decide : (0 : BitVec 16).toNat < 2 ^ (0 : BitVec 4).toNat)
  eightk _ := rfl
  line _ := rfl

/-- The part of the invariant on one context. -/
structure ContextInv (k : Ctx) (c : Context) : Prop where
  encOk : k = .enc → EncOk c
  decOk : k = .dec → DecOk c
  fault : c.status.fault.toNat ≤ 4

/-- A code of 4 or less, recorded by the sticky rule, keeps the invariant of a context. -/
theorem ContextInv.sticky {k : Ctx} {c : Context} (h : ContextInv k c) {code : BitVec 8} (hcode : code.toNat ≤ 4) :
    ContextInv k (c.withStatus (stickyFault c.status code)) := by
  have hcons := stickyFault_constructed c.status code
  refine ⟨fun hk hc => ?_, fun hk hc => ?_, ?_⟩
  · obtain ⟨hok, hn⟩ := h.encOk hk (hcons.symm.trans hc)
    exact ⟨{ hok with }, hn⟩
  · obtain ⟨hok, hn⟩ := h.decOk hk (hcons.symm.trans hc)
    exact ⟨{ hok with }, hn⟩
  · rw [stickyFault_fault]
    split_ifs
    · exact hcode
    · exact h.fault

theorem FaultCode.OfCommand.toByte_le {code : FaultCode} (h : code.OfCommand) : code.toByte.toNat ≤ 4 := by
  obtain rfl | rfl | rfl := h <;> decide

/-- A completed command answers code 0, with any list. -/
theorem responseOk_complete (out : List OutItem) : ResponseOk ⟨0, out⟩ :=
  ⟨Nat.zero_le 4, fun h => absurd rfl h⟩

theorem responseOk_refusal {code : BitVec 8} (h : code.toNat ≤ 4) : ResponseOk ⟨code, []⟩ := ⟨h, fun _ => rfl⟩

/-- Every end of a command keeps the invariant of its context and answers in the form of R14. -/
theorem ContextEnd.inv {p : Params} {i : Instr} {c : Context} {r : Response × Context} (h : ContextEnd p i c r)
    (ht : TablesOk p.tables) (hinv : ContextInv (target i) c) : ContextInv (target i) r.2 ∧ ResponseOk r.1 := by
  cases h with
  | refused hcode hno => exact ⟨hinv.sticky hcode.toByte_le, responseOk_refusal hcode.toByte_le⟩
  | constructed bits options itu hk =>
    have hbits : 0 < bits.toNat := by
      have := codeBits_cases bits
      omega
    have hok := contextOk_constructed bits options itu
    exact ⟨⟨fun _ _ => ⟨hok, Nat.zero_le 7⟩, fun _ _ => ⟨hok, hbits⟩, Nat.zero_le 4⟩, responseOk_complete _⟩
  | encoded x xlow xhigh hc hk hno hx =>
    obtain ⟨hok, hn⟩ := hinv.encOk hk hc
    have hok' : ContextOk { c with x := x } := { hok with line := fun hmode => (hx hmode).trans (hok.line hmode) }
    refine ⟨⟨fun _ _ => hok'.encodeAndEmit ht hn xlow xhigh, fun hdec => (nomatch hk.symm.trans hdec), ?_⟩,
      responseOk_complete _⟩
    rw [(encodeAndEmit_statusBlind p xlow xhigh).snd_status { c with x := x }]
    exact hinv.fault
  | decoded b hc hk hno =>
    obtain ⟨hok, hn⟩ := hinv.decOk hk hc
    refine ⟨⟨fun henc => (nomatch hk.symm.trans henc), fun _ _ => hok.decByteResult ht hn b, ?_⟩, responseOk_complete _⟩
    rw [(decByteResult_statusBlind p b).snd_status c]
    exact hinv.fault
  | statusRead hno => exact ⟨hinv, responseOk_complete _⟩

/-! ### The invariant along a step -/

theorem Inv.context {s : State} (h : Inv s) (k : Ctx) : ContextInv k (s.ctx k) := by
  cases k
  · exact ⟨fun _ => h.enc, fun hk => (nomatch hk), h.encFault⟩
  · exact ⟨fun hk => (nomatch hk), fun _ => h.dec, h.decFault⟩

theorem Inv.withPending {s : State} (h : Inv s) (ws : List CmdWord) : Inv { s with pending := ws } :=
  { h with }

theorem Inv.respond {s : State} (h : Inv s) {r : Response} (hr : ResponseOk r) : Inv (respond r s) :=
  { h with responses := List.forall_mem_append.mpr ⟨h.responses, List.forall_mem_singleton.mpr hr⟩ }

theorem Inv.updated {s : State} (h : Inv s) {k : Ctx} {r : Response × Context} (hr : ContextInv k r.2 ∧ ResponseOk r.1) :
    Inv (updated s k r) := by
  obtain ⟨hctx, hresp⟩ := hr
  refine Inv.respond ?_ hresp
  cases k
  · exact { h with enc := hctx.encOk rfl, encFault := hctx.fault }
  · exact { h with dec := hctx.decOk rfl, decFault := hctx.fault }

theorem Inv.raiseIllegal {s : State} (h : Inv s) (w : CmdWord) : Inv (raiseIllegal w s) := by
  have hcode : FaultCode.illegalCmd.toByte.toNat ≤ 4 := by decide
  unfold Machine.raiseIllegal
  cases illegalCtx w.op with
  | none => exact h.respond (responseOk_refusal hcode)
  | some k => exact h.updated (r := refuse _ .illegalCmd) ⟨(h.context k).sticky hcode, responseOk_refusal hcode⟩

/-- Settles O57: a step updates one context by an end of a command or by the sticky rule, and both keep the invariant. -/
theorem stepKeepsInvariant : Obligations.StepKeepsInvariant := by
  intro s t hinv h
  obtain ⟨-, heq⟩ | ⟨w, rest, i, -, -, heq⟩ | ⟨w, rest, e, -, -, heq⟩ := step_cases s
  · cases heq.symm.trans h
    exact hinv
  · obtain rfl := eq_updated_of_exec (heq.symm.trans h)
    have hinv' := hinv.withPending rest
    exact hinv'.updated ((runOn_end _ _ i).inv hinv.tables (hinv'.context (target i)))
  · cases heq.symm.trans h
    exact (hinv.withPending rest).raiseIllegal w

/-- R77: the listed tables have the shape asked of a substituted set. -/
theorem tablesOk_default : TablesOk defaultTables where
  ilb := defaultTables_ilb_bounds
  qm2 := by unfold entryFits16; decide
  qm4 := by unfold entryFits16; decide
  qm5 := by unfold entryFits16; decide
  qm6 := by unfold entryFits16; decide

/-- Settles O58: no context is constructed at power-on, and the listed tables have the shape of R77. -/
theorem invariantHoldsAtReset : Obligations.InvariantHoldsAtReset where
  tables := tablesOk_default
  enc h := nomatch h
  dec h := nomatch h
  encFault := Nat.zero_le 4
  decFault := Nat.zero_le 4
  responses _ h := nomatch h

/-! ### The step sizes (R34) -/

theorem StepSizesMatch.codewordStep {t : Tables} {c c' : Context} (h : StepSizesMatch t c) (hstep : CodewordStep t c c') :
    StepSizesMatch t c' := by
  intro hc
  obtain ⟨-, hstatus, -, -, ⟨ril, hband0⟩, hband1, -⟩ := hstep
  obtain ⟨-, hhigh⟩ := h (hstatus ▸ hc)
  refine ⟨by rw [hband0, lowAdapt_det], ?_⟩
  obtain ⟨-, heq⟩ | ⟨-, ihigh, heq⟩ := hband1
  · rw [heq, hhigh]
  · rw [heq, highAdapt_det]

theorem StepSizesMatch.decCodes {p : Params} (codes : List (BitVec 8)) {c : Context} (h : StepSizesMatch p.tables c) :
    StepSizesMatch p.tables (decCodes p codes c).2 := by
  induction codes generalizing c with
  | nil => exact h
  | cons code rest ih => exact ih (h.codewordStep (decCode_codewordStep p c code))

/-- With the listed tables a constructed bank holds the step sizes of `Nb` = 0. -/
theorem stepSizesMatch_constructed (cfg : Cfg) : StepSizesMatch defaultTables (Context.constructed cfg) := fun _ =>
  (by decide : (32 : Reg15) = toReg15 (scaleDet defaultTables 8 0) ∧ (8 : Reg15) = toReg15 (scaleDet defaultTables 10 0))

theorem StepSizesMatch.sticky {t : Tables} {c : Context} (h : StepSizesMatch t c) (code : BitVec 8) :
    StepSizesMatch t (c.withStatus (stickyFault c.status code)) :=
  fun hc => h ((stickyFault_constructed c.status code).symm.trans hc)

/-- Every end of a command keeps the step sizes of its context. -/
theorem ContextEnd.stepSizesMatch {p : Params} {i : Instr} {c : Context} {r : Response × Context}
    (h : ContextEnd p i c r) (ht : p.tables = defaultTables) (hmatch : StepSizesMatch p.tables c) :
    StepSizesMatch p.tables r.2 := by
  cases h with
  | refused => exact hmatch.sticky _
  | constructed bits options itu => exact ht ▸ stepSizesMatch_constructed _
  | encoded x xlow xhigh =>
    have hcode := StepSizesMatch.codewordStep (c := { c with x := x }) hmatch (encCode_codewordStep p _ xlow xhigh)
    obtain ⟨buf, n, hframe⟩ := emit_frame (encCode p { c with x := x } xlow xhigh).2 (encCode p { c with x := x } xlow xhigh).1
    rw [encodeAndEmit, hframe]
    exact hcode
  | decoded b =>
    obtain ⟨buf, n, hframe⟩ := codesOfByte_frame c b
    have hbefore : StepSizesMatch p.tables (codesOfByte c b).2 := by
      rw [hframe]
      exact hmatch
    exact hbefore.decCodes _
  | statusRead => exact hmatch

theorem ScaleInv.context {s : State} (h : ScaleInv s) (k : Ctx) : StepSizesMatch s.params.tables (s.ctx k) := by
  obtain ⟨-, henc, hdec⟩ := h
  cases k
  · exact henc
  · exact hdec

theorem ScaleInv.updated {s : State} (h : ScaleInv s) {k : Ctx} {r : Response × Context}
    (hr : StepSizesMatch s.params.tables r.2) : ScaleInv (updated s k r) := by
  obtain ⟨ht, henc, hdec⟩ := h
  cases k
  · exact ⟨ht, hr, hdec⟩
  · exact ⟨ht, henc, hr⟩

/-- Settles O59: an adaptation writes `Det` from the `Nb` it has just written, and nothing else writes either. -/
theorem stepKeepsStepSizes : Obligations.StepKeepsStepSizes := by
  intro s t hinv h
  obtain ⟨-, heq⟩ | ⟨w, rest, i, -, -, heq⟩ | ⟨w, rest, e, -, -, heq⟩ := step_cases s
  · cases heq.symm.trans h
    exact hinv
  · obtain rfl := eq_updated_of_exec (heq.symm.trans h)
    have hrest : ScaleInv { s with pending := rest } := hinv
    obtain ⟨ht, -, -⟩ := hinv
    exact hrest.updated ((runOn_end _ _ i).stepSizesMatch ht (hrest.context (target i)))
  · cases heq.symm.trans h
    have hrest : ScaleInv { s with pending := rest } := hinv
    unfold raiseIllegal
    cases illegalCtx w.op with
    | none => exact hrest
    | some k => exact hrest.updated (r := refuse _ .illegalCmd) ((hrest.context k).sticky _)

/-- Settles O60: the tables at power-on are the listed ones, and no context is constructed. -/
theorem stepSizesMatchAtReset : Obligations.StepSizesMatchAtReset :=
  ⟨rfl, fun h => (nomatch h), fun h => (nomatch h)⟩

end Sys2Proof.Machine

/-! PROOFS. Family other, 30_encoding.md section 8 and 60_exceptions.md: when `encode` and `decode` are accepted, the commands
they issue, and what a call returns. -/

namespace Sys2Proof.Machine

/-! ### The counts (R119) -/

theorem encodeCodewords_eq (cfg : Cfg) (n : Nat) :
    encodeCodewords cfg n = if cfg.eightk = false ∧ cfg.itu = false then n / 2 else n := by
  simp only [encodeCodewords, Cfg.fullBand_iff]

theorem samplesPerCodeword_mul (cfg : Cfg) (n : Nat) :
    samplesPerCodeword cfg * n = if cfg.eightk = true ∧ cfg.itu = false then n else 2 * n := by
  simp only [samplesPerCodeword, Bool.and_eq_true, Bool.not_eq_true']
  split_ifs
  · exact Nat.one_mul n
  · rfl

/-- R311: the capacity is tested after the input, against the bytes of the result. -/
theorem encodeWords_eq_outCapacity_iff (pcm : List Byte) (capacity : Nat) (s : State) :
    encodeWords pcm capacity s = .error .outCapacity ↔
      capacity < encodeResultBytes s.enc (pcm.length / 2) ∧ encodeWords pcm capacity s ≠ .error .invalidInput := by
  obtain ⟨-, heq⟩ | ⟨-, -, -, heq⟩ | ⟨-, -, hcap, heq⟩ | ⟨-, -, hcap, heq⟩ := encodeWords_cases pcm capacity s
  · simp [heq]
  · simp [heq]
  · simp [heq, hcap]
  · simp [heq, hcap]

theorem decodeWords_eq_outCapacity_iff (bytes : List Byte) (capacity : Nat) (s : State) :
    decodeWords bytes capacity s = .error .outCapacity ↔ capacity < decodeResultBytes s.dec bytes.length := by
  obtain ⟨hcap, heq⟩ | ⟨hcap, heq⟩ := decodeWords_cases bytes capacity s
  · simp [heq, hcap]
  · simp [heq, hcap]

/-- R301: the only codes of this layer. -/
theorem encodeWords_error {pcm : List Byte} {capacity : Nat} {s : State} {e : FaultCode}
    (h : encodeWords pcm capacity s = .error e) : e = .invalidInput ∨ e = .outCapacity := by
  obtain ⟨-, heq⟩ | ⟨-, -, -, heq⟩ | ⟨-, -, -, heq⟩ | ⟨-, -, -, heq⟩ := encodeWords_cases pcm capacity s
  · exact .inl (Except.error.inj (h.symm.trans heq))
  · exact .inl (Except.error.inj (h.symm.trans heq))
  · exact .inr (Except.error.inj (h.symm.trans heq))
  · cases h.symm.trans heq

theorem decodeWords_error {bytes : List Byte} {capacity : Nat} {s : State} {e : FaultCode}
    (h : decodeWords bytes capacity s = .error e) : e = .outCapacity := by
  obtain ⟨-, heq⟩ | ⟨-, heq⟩ := decodeWords_cases bytes capacity s
  · exact Except.error.inj (h.symm.trans heq)
  · cases h.symm.trans heq

theorem runDecode_of_error {bytes : List Byte} {capacity : Nat} {s : State} {e : FaultCode}
    (h : decodeWords bytes capacity s = .error e) : runDecode bytes capacity s = .error e := by
  simp [runDecode, h]

theorem decodeWords_ok {bytes : List Byte} {capacity : Nat} {s : State} {ws : List CmdWord}
    (h : decodeWords bytes capacity s = .ok ws) : ws = bytes.map fun b => encode (.decByte b) := by
  obtain ⟨-, heq⟩ | ⟨-, heq⟩ := decodeWords_cases bytes capacity s
  · cases h.symm.trans heq
  · exact Except.ok.inj (h.symm.trans heq)

/-- An accepted `encode`: its tests passed, and the words are those of its commands. -/
theorem encodeWords_ok {pcm : List Byte} {capacity : Nat} {s : State} {ws : List CmdWord}
    (h : encodeWords pcm capacity s = .ok ws) :
    pcm.length % 2 = 0 ∧ (encodesFullBand s.enc = true → pcm.length / 2 % 2 = 0) ∧
      ws = (encodeCommands (encodesFullBand s.enc) (pcmSamples pcm)).map encode := by
  obtain ⟨-, heq⟩ | ⟨-, -, -, heq⟩ | ⟨-, -, -, heq⟩ | ⟨heven, hpairs, -, heq⟩ := encodeWords_cases pcm capacity s
  · cases h.symm.trans heq
  · cases h.symm.trans heq
  · cases h.symm.trans heq
  · exact ⟨heven, hpairs, Except.ok.inj (h.symm.trans heq)⟩

/-! ### The commands issued (R116, R79) -/

/-- R94 as a sum: the byte above an opcode of `dec.byte`. -/
theorem encode_decByte_eq_add (b : BitVec 8) : encode (.decByte b) = 0x220000000000 + b.setWidth 48 := by
  apply BitVec.eq_of_toNat_eq
  rw [encode_decByte_eq, BitVec.toNat_ofNat, BitVec.toNat_add, BitVec.toNat_setWidth]
  have hb := b.isLt
  have hop : (0x220000000000 : BitVec 48).toNat = 0x220000000000 := rfl
  rw [hop]
  omega

/-- R79: sample `k` of a byte buffer. -/
def pcmSample (pcm : List Byte) (k : Nat) : Reg16 :=
  BitVec.ofNat 16 ((pcm.getD (2 * k) 0).toNat + 256 * (pcm.getD (2 * k + 1) 0).toNat)

theorem append_eq_ofNat (hi lo : Byte) : hi ++ lo = BitVec.ofNat 16 (lo.toNat + 256 * hi.toNat) := by
  apply BitVec.eq_of_toNat_eq
  rw [toNat_append_eq_add, BitVec.toNat_ofNat]
  have hhi := hi.isLt
  have hlo := lo.isLt
  omega

/-- Half of a list that is two longer. -/
theorem range_half_cons_cons {α : Type} (x y : α) (rest : List α) :
    List.range ((x :: y :: rest).length / 2) = 0 :: (List.range (rest.length / 2)).map Nat.succ := by
  have hlength : (x :: y :: rest).length / 2 = rest.length / 2 + 1 := by
    simp only [List.length_cons]
    omega
  rw [hlength, List.range_succ_eq_map]

theorem pcmSamples_eq_map : ∀ pcm : List Byte, pcmSamples pcm = (List.range (pcm.length / 2)).map (pcmSample pcm)
  | [] => rfl
  | [_] => by simp [pcmSamples]
  | lo :: hi :: rest => by
    rw [range_half_cons_cons, List.map_cons, List.map_map, pcmSamples_pair, pcmSamples_eq_map rest, append_eq_ofNat]
    rfl

theorem pcmSamples_length (pcm : List Byte) : (pcmSamples pcm).length = pcm.length / 2 := by
  simp [pcmSamples_eq_map]

theorem pairCommands_eq_map : ∀ samples : List Reg16, pairCommands samples =
    (List.range (samples.length / 2)).map fun j => .encPair (samples.getD (2 * j) 0) (samples.getD (2 * j + 1) 0)
  | [] => rfl
  | [_] => by simp [pairCommands]
  | s0 :: s1 :: rest => by
    rw [range_half_cons_cons, List.map_cons, List.map_map, pairCommands_pair, pairCommands_eq_map rest]
    rfl

theorem pcmSamples_getD {pcm : List Byte} {k : Nat} (h : k < pcm.length / 2) :
    (pcmSamples pcm).getD k 0 = pcmSample pcm k := by
  rw [pcmSamples_eq_map, List.getD_eq_getElem _ _ (by simpa using h), List.getElem_map, List.getElem_range]

/-- R116 steps 3 and 4: the commands of a buffer of whole samples, in order. -/
theorem encodeCommands_eq_map (fullBand : Bool) (pcm : List Byte) :
    encodeCommands fullBand (pcmSamples pcm) =
      if fullBand then (List.range (pcm.length / 4)).map fun j => .encPair (pcmSample pcm (2 * j)) (pcmSample pcm (2 * j + 1))
      else (List.range (pcm.length / 2)).map fun k => .encSample (pcmSample pcm k) := by
  unfold encodeCommands
  split_ifs
  · rw [pairCommands_eq_map, pcmSamples_length, Nat.div_div_eq_div_mul]
    refine List.map_congr_left fun j hj => ?_
    have hj : j < pcm.length / 4 := List.mem_range.mp hj
    rw [pcmSamples_getD (by omega), pcmSamples_getD (by omega)]
  · rw [pcmSamples_eq_map, List.map_map]
    rfl

/-- Settles O52: the capacity tests with the counts of R119 written out, the codes of the layer, and the words issued. -/
theorem callsCheckCapacity : Obligations.CallsCheckCapacity := by
  refine ⟨fun pcm capacity s hc => ?_, fun bytes capacity s hc => ?_, fun pcm capacity s hc => ?_,
    fun bytes capacity s hc => ?_, fun input capacity s => ⟨fun e he => ⟨encodeWords_error he, runEncode_of_error he⟩,
      fun e he => ⟨decodeWords_error he, runDecode_of_error he⟩, fun ws hws => ?_⟩, fun pcm capacity s ws hc hws => ?_⟩
  · rw [encodeWords_eq_outCapacity_iff, encodeResultBytes_constructed hc, encodeByteCount, encodeCodewords_eq]
  · rw [decodeWords_eq_outCapacity_iff, decodeResultBytes_constructed hc, decodeSampleCount, samplesPerCodeword_mul,
      decodeCodewords]
  · rw [Ne, encodeWords_eq_outCapacity_iff, encodeResultBytes_unconstructed hc]
    simp
  · rw [Ne, decodeWords_eq_outCapacity_iff, decodeResultBytes_unconstructed hc]
    simp
  · simp only [decodeWords_ok hws, encode_decByte_eq_add]
  · obtain ⟨-, -, rfl⟩ := encodeWords_ok hws
    rw [encodesFullBand_constructed hc, encodeCommands_eq_map]
    simp only [Cfg.fullBand_iff]
    split_ifs <;> exact List.map_map

end Sys2Proof.Machine

/-! PROOFS. Family other, 30_encoding.md section 8 and 45_bitpacker.md section 4: the runs of `encode` and `decode`. -/

namespace Sys2Proof.Machine

/-! ### A list of commands on one context -/

/-- Commands one after the other on one context: their responses in order, and the context after. -/
def runAll (p : Params) (c : Context) : List Instr → List Response × Context
  | [] => ([], c)
  | i :: rest => ((runOn p c i).1 :: (runAll p (runOn p c i).2 rest).1, (runAll p (runOn p c i).2 rest).2)

theorem runAll_length (p : Params) (c : Context) (is : List Instr) : (runAll p c is).1.length = is.length := by
  induction is generalizing c with
  | nil => rfl
  | cons i rest ih => exact congrArg Nat.succ (ih _)

theorem runAll_append (p : Params) (c : Context) (is js : List Instr) :
    runAll p c (is ++ js) =
      ((runAll p c is).1 ++ (runAll p (runAll p c is).2 js).1, (runAll p (runAll p c is).2 js).2) := by
  induction is generalizing c with
  | nil => rfl
  | cons i rest ih => simp only [List.cons_append, runAll, ih]

/-- The state after such a list. -/
def updatedAll (s : State) (k : Ctx) (r : List Response × Context) : State :=
  { s.setCtx k r.2 with responses := s.responses ++ r.1 }

@[simp] theorem updatedAll_responses (s : State) (k : Ctx) (r : List Response × Context) :
    (updatedAll s k r).responses = s.responses ++ r.1 := rfl

@[simp] theorem updatedAll_params (s : State) (k : Ctx) (r : List Response × Context) :
    (updatedAll s k r).params = s.params := setCtx_params s k r.2

@[simp] theorem updatedAll_pending (s : State) (k : Ctx) (r : List Response × Context) :
    (updatedAll s k r).pending = s.pending := setCtx_pending s k r.2

theorem updatedAll_nil (s : State) (k : Ctx) : updatedAll s k ([], s.ctx k) = s := by
  simp [updatedAll, setCtx_ctx_self]

theorem updatedAll_updatedAll (s : State) (k : Ctx) (r r' : List Response × Context) :
    updatedAll (updatedAll s k r) k r' = updatedAll s k (r.1 ++ r'.1, r'.2) := by
  cases k <;> simp [updatedAll, State.setCtx]

theorem updated_eq_updatedAll (s : State) (k : Ctx) (r : Response × Context) :
    updated s k r = updatedAll s k ([r.1], r.2) := by
  cases k <;> rfl

theorem coreRun_succ_of_step {s t : State} (h : step s = .next t) (n : Nat) :
    Host.Core.run Sys2Proof.core (n + 1) s = Host.Core.run Sys2Proof.core n t :=
  run_succ_of_step (M := Sys2Proof.core) h n

/-- R14, R84: delivered words of well-formed commands on one context run one after the other on it. -/
theorem run_encoded_eq_runAll {k : Ctx} (is : List Instr) (hwf : ∀ i ∈ is, i.wellFormed = true)
    (hk : ∀ i ∈ is, target i = k) (s : State) (hs : s.pending = []) :
    Host.Core.run Sys2Proof.core is.length { s with pending := is.map encode } =
      .next (updatedAll s k (runAll s.params (s.ctx k) is)) := by
  induction is generalizing s with
  | nil =>
    rw [runAll, updatedAll_nil]
    cases s
    cases hs
    rfl
  | cons i rest ih =>
    obtain ⟨hi, hrest⟩ := List.forall_mem_cons.mp hwf
    obtain ⟨rfl, hrestk⟩ := List.forall_mem_cons.mp hk
    have hstep : step { s with pending := (i :: rest).map encode } =
        .next { updated s (target i) (runOn s.params (s.ctx (target i)) i) with pending := rest.map encode } := by
      rw [step_of_decode_ok rfl (decode_encode hi), exec_eq_updated]
      cases target i <;> rfl
    refine (coreRun_succ_of_step hstep rest.length).trans ((ih hrest hrestk _ ?_).trans ?_)
    · rw [updated_pending, hs]
    · rw [updated_params, updated_ctx_same, updated_eq_updatedAll, updatedAll_updatedAll]
      rfl

theorem runWords_eq_updatedAll {k : Ctx} {is : List Instr} (hwf : ∀ i ∈ is, i.wellFormed = true)
    (hk : ∀ i ∈ is, target i = k) {s : State} (hs : s.pending = []) :
    runWords (is.map encode) s = .next (updatedAll s k (runAll s.params (s.ctx k) is)) := by
  have hdeliver : deliver (is.map encode) s = { s with pending := is.map encode } := by
    rw [deliver, hs, List.nil_append]
  rw [runWords, hdeliver, List.length_map]
  exact run_encoded_eq_runAll is hwf hk s hs

/-! ### The commands of the two calls -/

/-- The commands `encode` issues. -/
def IsEncoderData (i : Instr) : Prop := (∃ s0 s1, i = .encPair s0 s1) ∨ ∃ smp, i = .encSample smp

theorem isEncoderData_of_mem_pairCommands : ∀ {samples : List Reg16} {i : Instr}, i ∈ pairCommands samples →
    ∃ s0 s1, i = .encPair s0 s1
  | s0 :: s1 :: rest, i, h => by
    obtain rfl | h := List.mem_cons.mp h
    · exact ⟨s0, s1, rfl⟩
    · exact isEncoderData_of_mem_pairCommands h

theorem mem_encodeCommands {fullBand : Bool} {samples : List Reg16} {i : Instr}
    (h : i ∈ encodeCommands fullBand samples) :
    (fullBand = true ∧ ∃ s0 s1, i = .encPair s0 s1) ∨ (fullBand = false ∧ ∃ smp, i = .encSample smp) := by
  cases fullBand with
  | true => exact .inl ⟨rfl, isEncoderData_of_mem_pairCommands h⟩
  | false =>
    obtain ⟨smp, -, rfl⟩ := List.mem_map.mp h
    exact .inr ⟨rfl, smp, rfl⟩

theorem isEncoderData_of_mem_encodeCommands {fullBand : Bool} {samples : List Reg16} {i : Instr}
    (h : i ∈ encodeCommands fullBand samples) : IsEncoderData i := by
  obtain ⟨-, hi⟩ | ⟨-, hi⟩ := mem_encodeCommands h
  · exact .inl hi
  · exact .inr hi

theorem IsEncoderData.facts {i : Instr} (h : IsEncoderData i) :
    i.wellFormed = true ∧ target i = .enc ∧ constructs i = none := by
  obtain ⟨s0, s1, rfl⟩ | ⟨smp, rfl⟩ := h <;> exact ⟨rfl, rfl, rfl⟩

theorem pairCommands_length : ∀ samples : List Reg16, (pairCommands samples).length = samples.length / 2 := by
  simp [pairCommands_eq_map]

/-- R119: one command for each codeword. -/
theorem encodeCommands_length (cfg : Cfg) (samples : List Reg16) :
    (encodeCommands cfg.fullBand samples).length = encodeCodewords cfg samples.length := by
  unfold encodeCommands encodeCodewords
  split_ifs
  · exact pairCommands_length samples
  · exact List.length_map _

/-- An accepted `encode` runs its commands on the encoder context. -/
theorem runWords_encode {pcm : List Byte} {capacity : Nat} {s : State} {ws : List CmdWord} (hs : s.pending = [])
    (h : encodeWords pcm capacity s = .ok ws) :
    runWords ws s = .next (updatedAll s .enc
      (runAll s.params s.enc (encodeCommands (encodesFullBand s.enc) (pcmSamples pcm)))) := by
  obtain ⟨-, -, rfl⟩ := encodeWords_ok h
  have hdata : ∀ i ∈ encodeCommands (encodesFullBand s.enc) (pcmSamples pcm),
      i.wellFormed = true ∧ target i = .enc ∧ constructs i = none :=
    fun i hi => (isEncoderData_of_mem_encodeCommands hi).facts
  exact runWords_eq_updatedAll (k := .enc) (fun i hi => (hdata i hi).1) (fun i hi => (hdata i hi).2.1) hs

theorem runEncode_of_ok {pcm : List Byte} {capacity : Nat} {s : State} {ws : List CmdWord} (hs : s.pending = [])
    (h : encodeWords pcm capacity s = .ok ws) :
    let r := runAll s.params s.enc (encodeCommands (encodesFullBand s.enc) (pcmSamples pcm))
    runEncode pcm capacity s = .ok (codeBytes r.1, updatedAll s .enc r) := by
  simp only [runEncode, h, runWords_encode hs h, updatedAll_responses, List.drop_left]

theorem decByte_facts {bytes : List Byte} : ∀ i ∈ bytes.map Instr.decByte, i.wellFormed = true ∧ target i = .dec := by
  intro i hi
  obtain ⟨b, -, rfl⟩ := List.mem_map.mp hi
  exact ⟨rfl, rfl⟩

/-- An accepted `decode` runs its commands on the decoder context. -/
theorem runWords_decode {bytes : List Byte} {capacity : Nat} {s : State} {ws : List CmdWord} (hs : s.pending = [])
    (h : decodeWords bytes capacity s = .ok ws) :
    runWords ws s = .next (updatedAll s .dec (runAll s.params s.dec (bytes.map .decByte))) := by
  have hws : ws = (bytes.map .decByte).map encode := by
    rw [decodeWords_ok h, List.map_map]
    rfl
  rw [hws]
  exact runWords_eq_updatedAll (k := .dec) (fun i hi => (decByte_facts i hi).1) (fun i hi => (decByte_facts i hi).2) hs

theorem runDecode_of_ok {bytes : List Byte} {capacity : Nat} {s : State} {ws : List CmdWord} (hs : s.pending = [])
    (h : decodeWords bytes capacity s = .ok ws) :
    let r := runAll s.params s.dec (bytes.map .decByte)
    runDecode bytes capacity s = .ok (pcmBytes (pcmOut r.1), updatedAll s .dec r) := by
  simp only [runDecode, h, runWords_decode hs h, updatedAll_responses, List.drop_left]

/-! ### Configuration along a call -/

/-- Data commands keep what the mode of `encode` depends on. -/
theorem runAll_cfg_constructed {is : List Instr} (hno : ∀ i ∈ is, constructs i = none) (p : Params) (c : Context) :
    (runAll p c is).2.cfg = c.cfg ∧ (runAll p c is).2.status.constructed = c.status.constructed := by
  induction is generalizing c with
  | nil => exact ⟨rfl, rfl⟩
  | cons i rest ih =>
    obtain ⟨hi, hrest⟩ := List.forall_mem_cons.mp hno
    have hend := runOn_end p c i
    have hcfg := hend.cfg_eq (by simp [hi])
    have hcons : (runOn p c i).2.status.constructed = c.status.constructed := by
      obtain ⟨hk, -⟩ | ⟨-, hstatus⟩ := hend.status
      · cases hi.symm.trans hk
      · rw [hstatus, stickyFault_constructed]
    obtain ⟨hcfg', hcons'⟩ := ih hrest (runOn p c i).2
    exact ⟨hcfg'.trans hcfg, hcons'.trans hcons⟩

theorem encodesFullBand_congr {c c' : Context} (hcfg : c'.cfg = c.cfg)
    (hcons : c'.status.constructed = c.status.constructed) : encodesFullBand c' = encodesFullBand c := by
  rw [encodesFullBand, encodesFullBand, hcfg, hcons]

/-! ### Streaming (45_bitpacker.md section 4) -/

theorem pcmSamples_append : ∀ {pcm : List Byte} (pcm' : List Byte), pcm.length % 2 = 0 →
    pcmSamples (pcm ++ pcm') = pcmSamples pcm ++ pcmSamples pcm'
  | [], _, _ => rfl
  | lo :: hi :: rest, pcm', h => by
    simp only [List.length_cons] at h
    simp only [List.cons_append, pcmSamples_pair, pcmSamples_append (pcm := rest) pcm' (by omega)]

theorem pairCommands_append : ∀ {samples : List Reg16} (samples' : List Reg16), samples.length % 2 = 0 →
    pairCommands (samples ++ samples') = pairCommands samples ++ pairCommands samples'
  | [], _, _ => rfl
  | s0 :: s1 :: rest, samples', h => by
    simp only [List.length_cons] at h
    simp only [List.cons_append, pairCommands_pair, pairCommands_append (samples := rest) samples' (by omega)]

/-- Whole samples, and in full-band mode whole pairs, give the commands of two buffers one after the other. -/
theorem encodeCommands_append {fullBand : Bool} {pcm : List Byte} (pcm' : List Byte) (heven : pcm.length % 2 = 0)
    (hpairs : fullBand = true → pcm.length / 2 % 2 = 0) :
    encodeCommands fullBand (pcmSamples (pcm ++ pcm')) =
      encodeCommands fullBand (pcmSamples pcm) ++ encodeCommands fullBand (pcmSamples pcm') := by
  rw [pcmSamples_append pcm' heven]
  cases fullBand with
  | true => exact pairCommands_append _ (by rw [pcmSamples_length]; exact hpairs rfl)
  | false => exact List.map_append

/-- Input that passes the tests of `encode` and fits the buffer is accepted. -/
theorem encodeWords_of_accepted {pcm : List Byte} {capacity : Nat} {s : State} (heven : pcm.length % 2 = 0)
    (hpairs : encodesFullBand s.enc = true → pcm.length / 2 % 2 = 0)
    (hcap : encodeResultBytes s.enc (pcm.length / 2) ≤ capacity) :
    ∃ ws, encodeWords pcm capacity s = .ok ws := by
  obtain ⟨hodd, -⟩ | ⟨-, hfull, hodd, -⟩ | ⟨-, -, hsmall, -⟩ | ⟨-, -, -, heq⟩ := encodeWords_cases pcm capacity s
  · omega
  · have := hpairs hfull
    omega
  · omega
  · exact ⟨_, heq⟩

/-- What an accepted call of `encode` tested, and what it gives. -/
theorem runEncode_ok {pcm : List Byte} {capacity : Nat} {s t : State} {out : List Byte} (hs : s.pending = [])
    (h : runEncode pcm capacity s = .ok (out, t)) :
    let r := runAll s.params s.enc (encodeCommands (encodesFullBand s.enc) (pcmSamples pcm))
    pcm.length % 2 = 0 ∧ (encodesFullBand s.enc = true → pcm.length / 2 % 2 = 0) ∧
      out = codeBytes r.1 ∧ t = updatedAll s .enc r := by
  cases hws : encodeWords pcm capacity s with
  | error e => cases (runEncode_of_error hws).symm.trans h
  | ok ws =>
    obtain ⟨heven, hpairs, -⟩ := encodeWords_ok hws
    have hrun := (runEncode_of_ok hs hws).symm.trans h
    rw [Except.ok.injEq, Prod.mk.injEq] at hrun
    exact ⟨heven, hpairs, hrun.1.symm, hrun.2.symm⟩

/-- Settles O56: the second call runs in the same mode, so its commands are the rest of the commands of one call. -/
theorem streamingEquivalence : Obligations.StreamingEquivalence := by
  intro pcm pcm' cap cap' capacity s t u out out' hs h h' hcap
  obtain ⟨heven, hpairs, rfl, rfl⟩ := runEncode_ok hs h
  obtain ⟨heven', hpairs', rfl, rfl⟩ := runEncode_ok (by rw [updatedAll_pending, hs]) h'
  have hdata : ∀ i ∈ encodeCommands (encodesFullBand s.enc) (pcmSamples pcm), constructs i = none := fun i hi =>
    (isEncoderData_of_mem_encodeCommands hi).facts.2.2
  obtain ⟨hcfg, hcons⟩ := runAll_cfg_constructed hdata s.params s.enc
  have henc (r : List Response × Context) : (updatedAll s .enc r).enc = r.2 := rfl
  rw [henc, encodesFullBand_congr hcfg hcons] at hpairs'
  have hlength : (pcm ++ pcm').length = pcm.length + pcm'.length := List.length_append
  obtain ⟨ws, hws⟩ := encodeWords_of_accepted (pcm := pcm ++ pcm') (s := s) (by omega)
    (fun hfull => by
      have := hpairs hfull
      have := hpairs' hfull
      omega) hcap
  rw [runEncode_of_ok hs hws, encodeCommands_append pcm' heven hpairs, runAll_append, codeBytes_append, henc,
    updatedAll_params, encodesFullBand_congr hcfg hcons, updatedAll_updatedAll]

/-! ### The counts of a run (R119) -/

/-- R251: every eight bits taken in come out. -/
theorem pack_count (c : Context) (code : BitVec 8) (hn : c.accBits.toNat ≤ 7) :
    8 * (pack c code).1.length + (pack c code).2.accBits.toNat = c.accBits.toNat + c.cfg.bits.toNat ∧
      (pack c code).2.accBits.toNat ≤ 7 := by
  have hw := codeBits_cases c.cfg.bits
  simp only [pack]
  split_ifs with hfull
  · simp only [BitVec.toNat_ofNat, List.length_singleton]
    omega
  · simp only [BitVec.toNat_ofNat, List.length_nil]
    omega

/-- EMIT: a byte for each codeword when not packed, else the count of PACK. -/
theorem emit_count (c : Context) (code : BitVec 8) (hn : c.accBits.toNat ≤ 7) :
    (c.cfg.packed = false → (emit c code).1.length = 1) ∧ (emit c code).2.accBits.toNat ≤ 7 ∧
      (c.cfg.packed = true →
        8 * (emit c code).1.length + (emit c code).2.accBits.toNat = c.accBits.toNat + c.cfg.bits.toNat) := by
  cases hp : c.cfg.packed with
  | false =>
    rw [emit_of_unpacked code hp]
    exact ⟨fun _ => rfl, hn, fun h => nomatch h⟩
  | true =>
    rw [emit_of_packed code hp]
    obtain ⟨hcount, hle⟩ := pack_count c code hn
    exact ⟨fun h => (nomatch h), hle, fun _ => hcount⟩

theorem encodeAndEmit_count (p : Params) (c : Context) (xlow xhigh : Int) (hn : c.accBits.toNat ≤ 7) :
    let r := encodeAndEmit p c xlow xhigh
    (c.cfg.packed = false → r.1.length = 1) ∧ r.2.accBits.toNat ≤ 7 ∧
      (c.cfg.packed = true → 8 * r.1.length + r.2.accBits.toNat = c.accBits.toNat + c.cfg.bits.toNat) := by
  have hstep := encCode_codewordStep p c xlow xhigh
  have hemit := emit_count (encCode p c xlow xhigh).2 (encCode p c xlow xhigh).1 (by rwa [hstep.accBits])
  rwa [hstep.cfg, hstep.accBits] at hemit

/-- The data commands an encoder in a given mode accepts (R275, R276). -/
def Accepts (cfg : Cfg) (i : Instr) : Prop :=
  (cfg.fullBand = true ∧ ∃ s0 s1, i = .encPair s0 s1) ∨ (cfg.fullBand = false ∧ ∃ smp, i = .encSample smp)

/-- An accepted command runs the encoder stage and answers its bytes. -/
theorem runOn_of_accepts {c : Context} {i : Instr} (p : Params) (hc : c.status.constructed = true) (hi : Accepts c.cfg i) :
    ∃ x xlow xhigh, runOn p c i = (⟨0, (encodeAndEmit p { c with x := x } xlow xhigh).1.map .byte⟩,
      (encodeAndEmit p { c with x := x } xlow xhigh).2) := by
  obtain ⟨hmode, s0, s1, rfl⟩ | ⟨hmode, smp, rfl⟩ := hi
  · obtain ⟨heightk, hitu⟩ := (Cfg.fullBand_iff c.cfg).mp hmode
    refine ⟨(qmfTx p c.x s0 s1).1, (qmfTx p c.x s0 s1).2.1, (qmfTx p c.x s0 s1).2.2, ?_⟩
    rw [runOn, if_neg (by simp [hc]), if_neg (by simp [heightk, hitu])]
    rfl
  · have hbypass : ¬ (c.cfg.eightk = false ∧ c.cfg.itu = false) := by
      rw [← Cfg.fullBand_iff, hmode]
      decide
    refine ⟨c.x, asr smp.toInt 1, asr smp.toInt 1, ?_⟩
    rw [runOn, if_neg (by simp [hc]), if_neg hbypass]
    rfl

/-- The code bytes of one item. -/
def itemBytes : OutItem → List Byte
  | .byte b => [b]
  | .sample _ => []
  | .word _ => []

theorem codeBytes_eq_flatMap (rs : List Response) : codeBytes rs = rs.flatMap fun r => r.out.flatMap itemBytes := by
  refine congrArg (rs.flatMap ·) (funext fun r => ?_)
  induction r.out with
  | nil => rfl
  | cons item rest ih => cases item <;> simp [itemBytes, ih]

theorem codeBytes_cons_bytes (code : BitVec 8) (bytes : List Byte) (rs : List Response) :
    codeBytes (⟨code, bytes.map .byte⟩ :: rs) = bytes ++ codeBytes rs := by
  have hbytes : (bytes.map OutItem.byte).flatMap itemBytes = bytes := by
    rw [List.flatMap_map]
    exact List.flatMap_singleton' bytes
  rw [codeBytes_eq_flatMap, codeBytes_eq_flatMap, List.flatMap_cons, hbytes]

/-- A run of accepted commands: a byte for each when not packed, else the count of the packed stream. -/
theorem runAll_encode_count (p : Params) {is : List Instr} {c : Context} (hc : c.status.constructed = true)
    (hn : c.accBits.toNat ≤ 7) (hi : ∀ i ∈ is, Accepts c.cfg i) :
    (c.cfg.packed = false → (codeBytes (runAll p c is).1).length = is.length) ∧
      (c.cfg.packed = true → 8 * (codeBytes (runAll p c is).1).length + (runAll p c is).2.accBits.toNat =
        c.accBits.toNat + is.length * c.cfg.bits.toNat ∧ (runAll p c is).2.accBits.toNat ≤ 7) := by
  induction is generalizing c with
  | nil => exact ⟨fun _ => rfl, fun _ => ⟨by simp [runAll, codeBytes], hn⟩⟩
  | cons i rest ih =>
    obtain ⟨hfirst, hrest⟩ := List.forall_mem_cons.mp hi
    obtain ⟨x, xlow, xhigh, hrun⟩ := runOn_of_accepts p hc hfirst
    obtain ⟨hunpacked, hn', hpacked⟩ := encodeAndEmit_count p { c with x := x } xlow xhigh hn
    obtain ⟨b0, b1, buf, n, hframe⟩ := encodeAndEmit_frame p { c with x := x } xlow xhigh
    rw [runAll, hrun]
    dsimp only at hunpacked hpacked
    generalize encodeAndEmit p { c with x := x } xlow xhigh = r at *
    have hcfg : r.2.cfg = c.cfg := by rw [hframe]
    have hcons : r.2.status = c.status := by rw [hframe]
    obtain ⟨hunpacked', hpacked'⟩ := ih (c := r.2) (by rw [hcons, hc]) hn' (by rw [hcfg]; exact hrest)
    rw [hcfg] at hunpacked' hpacked'
    simp only [codeBytes_cons_bytes, List.length_append, List.length_cons, Nat.succ_mul]
    refine ⟨fun h => ?_, fun h => ?_⟩
    · rw [hunpacked h, hunpacked' h, Nat.add_comm]
    · obtain ⟨hcount, hle⟩ := hpacked' h
      have := hpacked h
      exact ⟨by omega, hle⟩

/-! ### Calls on an unconstructed context (R307) -/

/-- A command that an unconstructed context refuses. -/
def NeedsConstruction (i : Instr) : Prop :=
  ∀ (p : Params) (c : Context), c.status.constructed = false → runOn p c i = refuse c .notConstructed

theorem IsEncoderData.needsConstruction {i : Instr} (h : IsEncoderData i) : NeedsConstruction i := by
  intro p c hc
  obtain ⟨s0, s1, rfl⟩ | ⟨smp, rfl⟩ := h
  · rw [runOn, if_pos hc]
  · rw [runOn, if_pos hc]

theorem decByte_needsConstruction (b : Byte) : NeedsConstruction (.decByte b) := by
  intro p c hc
  rw [runOn, if_pos hc]

theorem stickyFault_stickyFault (st : Status) (code : BitVec 8) :
    stickyFault (stickyFault st code) code = stickyFault st code := by
  by_contra h
  obtain ⟨hzero, hcode, -⟩ := of_stickyFault_ne h
  rw [stickyFault_fault] at hzero
  split_ifs at hzero with hst
  · exact hcode hzero
  · exact hst hzero

/-- Each command is refused; the first marks the sticky code, which then stays. -/
theorem runAll_of_unconstructed {is : List Instr} (hi : ∀ i ∈ is, NeedsConstruction i) (p : Params) {c : Context}
    (hc : c.status.constructed = false) :
    runAll p c is =
      (List.replicate is.length ⟨2, []⟩, if is.length = 0 then c else c.withStatus (stickyFault c.status 2)) := by
  induction is generalizing c with
  | nil => rfl
  | cons i rest ih =>
    obtain ⟨hfirst, hrest⟩ := List.forall_mem_cons.mp hi
    have hmarked : (refuse c .notConstructed).2.status.constructed = false := (stickyFault_constructed _ _).trans hc
    have hstays : (if rest.length = 0 then (refuse c .notConstructed).2 else
        (refuse c .notConstructed).2.withStatus (stickyFault (refuse c .notConstructed).2.status 2)) =
        c.withStatus (stickyFault c.status 2) := by
      split_ifs
      · rfl
      · exact congrArg c.withStatus (stickyFault_stickyFault c.status 2)
    rw [runAll, hfirst p c hc, ih hrest hmarked, hstays]
    rfl

/-- A refused call on an unconstructed context, whole. -/
theorem updatedAll_of_unconstructed {is : List Instr} (hi : ∀ i ∈ is, NeedsConstruction i) {s : State} {k : Ctx}
    (hc : (s.ctx k).status.constructed = false) :
    updatedAll s k (runAll s.params (s.ctx k) is) = refusedCalls k is.length s := by
  rw [runAll_of_unconstructed hi s.params hc, refusedCalls]
  split_ifs with hnone
  · rw [updatedAll, setCtx_ctx_self]
  · have hfirst : refusedState k 2 s = updated s k (refuse (s.ctx k) .notConstructed) :=
      (raiseFault_eq_refusedState k .notConstructed s).symm
    rw [hfirst]
    cases k <;> rfl

/-! ### What `encode` returns -/

/-- R119: bytes and held bits after an accepted `encode` on a constructed encoder. -/
theorem runAll_encode_result (p : Params) {c : Context} (hc : c.status.constructed = true) (hn : c.accBits.toNat ≤ 7)
    (samples : List Reg16) :
    let r := runAll p c (encodeCommands c.cfg.fullBand samples)
    (codeBytes r.1).length = encodeByteCount c samples.length ∧
      (c.cfg.packed = true → r.2.accBits.toNat =
        (c.accBits.toNat + encodeCodewords c.cfg samples.length * c.cfg.bits.toNat) % 8) := by
  obtain ⟨hunpacked, hpacked⟩ := runAll_encode_count p hc hn
    (is := encodeCommands c.cfg.fullBand samples) fun _ => mem_encodeCommands
  rw [encodeCommands_length] at hunpacked hpacked
  refine ⟨?_, fun h => ?_⟩
  · unfold encodeByteCount
    dsimp only
    split_ifs with h
    · obtain ⟨hcount, hle⟩ := hpacked h
      omega
    · exact hunpacked (Bool.eq_false_iff.mpr h)
  · obtain ⟨hcount, hle⟩ := hpacked h
    omega

theorem codeBytes_refusals (code : BitVec 8) (n : Nat) : codeBytes (List.replicate n ⟨code, []⟩) = [] := by
  simp [codeBytes]

/-- Settles O53: the run of the commands on the encoder context; its bytes counted on a constructed context, none on one that
refuses each command. -/
theorem encodeOutputLength : Obligations.EncodeOutputLength := by
  intro pcm capacity s ws hs hok h
  have hrun := runWords_encode hs h
  have hcall := runEncode_of_ok hs h
  obtain ⟨-, -, hws⟩ := encodeWords_ok h
  have hlength : ws.length = (encodeCommands (encodesFullBand s.enc) (pcmSamples pcm)).length := by
    rw [hws, List.length_map]
  refine ⟨_, _, hrun, hcall, ⟨_, rfl, by rw [runAll_length, hlength], codeBytes_eq_flatMap _⟩, ?_, fun hc hp => ?_, fun hc => ?_⟩
  · cases hc : s.enc.status.constructed with
    | true =>
      obtain ⟨-, hn⟩ := hok hc
      rw [encodesFullBand_constructed hc, encodeResultBytes_constructed hc, ← pcmSamples_length]
      exact (runAll_encode_result s.params hc hn (pcmSamples pcm)).1
    | false =>
      rw [runAll_of_unconstructed (fun i hi => (isEncoderData_of_mem_encodeCommands hi).needsConstruction) _ hc,
        codeBytes_refusals, encodeResultBytes_unconstructed hc]
      rfl
  · obtain ⟨-, hn⟩ := hok hc
    rw [encodesFullBand_constructed hc, ← pcmSamples_length]
    exact (runAll_encode_result s.params hc hn (pcmSamples pcm)).2 hp
  · rw [hlength]
    exact updatedAll_of_unconstructed (k := .enc)
      (fun i hi => (isEncoderData_of_mem_encodeCommands hi).needsConstruction) hc

/-! ### What `decode` returns -/

/-- The PCM bytes of one item, low byte first (R79). -/
def itemPcmBytes : OutItem → List Byte
  | .byte _ => []
  | .sample v => [BitVec.ofNat 8 (v.toNat % 256), BitVec.ofNat 8 (v.toNat / 256)]
  | .word _ => []

theorem bytes_of_sample (v : Reg16) :
    v.extractLsb' 0 8 = BitVec.ofNat 8 (v.toNat % 256) ∧ v.extractLsb' 8 8 = BitVec.ofNat 8 (v.toNat / 256) := by
  refine ⟨BitVec.eq_of_toNat_eq ?_, BitVec.eq_of_toNat_eq ?_⟩
  · simp
  · simp [Nat.shiftRight_eq_div_pow]

theorem pcmBytes_pcmOut_singleton (code : BitVec 8) (out : List OutItem) :
    pcmBytes (pcmOut [⟨code, out⟩]) = out.flatMap itemPcmBytes := by
  induction out with
  | nil => rfl
  | cons item items ih =>
    obtain b | v | w := item
    · exact ih
    · obtain ⟨hlow, hhigh⟩ := bytes_of_sample v
      have hfirst : pcmOut [⟨code, .sample v :: items⟩] = v :: pcmOut [⟨code, items⟩] := rfl
      rw [hfirst, pcmBytes_cons, hlow, hhigh, ih]
      rfl
    · exact ih

theorem pcmBytes_pcmOut_eq_flatMap (rs : List Response) :
    pcmBytes (pcmOut rs) = rs.flatMap fun r => r.out.flatMap itemPcmBytes := by
  induction rs with
  | nil => rfl
  | cons r rest ih =>
    have hsplit : pcmOut (r :: rest) = pcmOut [r] ++ pcmOut rest := pcmOut_append [r] rest
    rw [hsplit, pcmBytes_append, ih, List.flatMap_cons, ← pcmBytes_pcmOut_singleton r.fault]

theorem pcmBytes_length (vs : List Reg16) : (pcmBytes vs).length = 2 * vs.length := by
  induction vs with
  | nil => rfl
  | cons v rest ih =>
    simp only [pcmBytes_cons, List.length_cons, ih]
    ring

theorem pcmOut_cons_samples (code : BitVec 8) (vs : List Reg16) (rs : List Response) :
    pcmOut (⟨code, vs.map .sample⟩ :: rs) = vs ++ pcmOut rs := by
  have hvs : pcmOut [⟨code, vs.map .sample⟩] = vs := by
    induction vs with
    | nil => rfl
    | cons v rest ih => exact congrArg (v :: ·) ih
  exact (pcmOut_append [_] rs).trans (congrArg (· ++ pcmOut rs) hvs)

/-- R278: a constructed decoder runs every byte. -/
theorem runOn_decByte {c : Context} (p : Params) (hc : c.status.constructed = true) (b : Byte) :
    runOn p c (.decByte b) = (⟨0, (decByteResult p c b).1.map .sample⟩, (decByteResult p c b).2) := by
  rw [runOn, if_neg (by simp [hc])]

/-- R257: the count held after one byte. -/
theorem decByteResult_accBits (p : Params) (c : Context) (b : Byte) : (decByteResult p c b).2.accBits.toNat =
    if c.cfg.packed then (c.accBits.toNat + 8) % c.cfg.bits.toNat else c.accBits.toNat := by
  obtain ⟨b0, b1, x, hframe⟩ := decCodes_frame p (codesOfByte c b).1 (codesOfByte c b).2
  obtain ⟨-, hrest⟩ := unpack_length c b
  rw [decByteResult, hframe]
  simp only [codesOfByte]
  split_ifs
  · exact hrest
  · rfl

/-- R119: the codewords of a byte, then those of the bytes behind it. -/
theorem decodeCodewords_succ (c c' : Context) (m : Nat) (hcfg : c'.cfg = c.cfg)
    (hbits : c.cfg.packed = true → c'.accBits.toNat = (c.accBits.toNat + 8) % c.cfg.bits.toNat) :
    decodeCodewords c (m + 1) = decodeCodewords c 1 + decodeCodewords c' m := by
  have hw := codeBits_cases c.cfg.bits
  unfold decodeCodewords
  rw [hcfg]
  split_ifs with hp
  · rw [hbits hp]
    have hsplit : c.accBits.toNat + 8 * (m + 1) =
        c.cfg.bits.toNat * ((c.accBits.toNat + 8) / c.cfg.bits.toNat)
          + ((c.accBits.toNat + 8) % c.cfg.bits.toNat + 8 * m) := by
      have := Nat.div_add_mod (c.accBits.toNat + 8) c.cfg.bits.toNat
      omega
    rw [hsplit, Nat.mul_add_div (by omega)]
  · exact Nat.add_comm m 1

/-- R119: samples and held bits after a run of bytes through a constructed decoder. -/
theorem runAll_decode_result (p : Params) (bytes : List Byte) {c : Context} (hc : c.status.constructed = true)
    (hn : c.accBits.toNat < c.cfg.bits.toNat) :
    let r := runAll p c (bytes.map .decByte)
    (pcmOut r.1).length = decodeSampleCount c bytes.length ∧
      (c.cfg.packed = true → r.2.accBits.toNat = (c.accBits.toNat + 8 * bytes.length) % c.cfg.bits.toNat) := by
  induction bytes generalizing c with
  | nil =>
    have hnone : decodeCodewords c 0 = 0 := by
      unfold decodeCodewords
      split_ifs
      · exact Nat.div_eq_of_lt hn
      · rfl
    refine ⟨?_, fun _ => (Nat.mod_eq_of_lt hn).symm⟩
    rw [List.length_nil, decodeSampleCount, hnone]
    rfl
  | cons b rest ih =>
    have hlength := decByteResult_length p c b
    have hbits := decByteResult_accBits p c b
    obtain ⟨b0, b1, x, buf, n, hframe⟩ := decByteResult_frame p c b
    have hcfg : (decByteResult p c b).2.cfg = c.cfg := by rw [hframe]
    have hcons : (decByteResult p c b).2.status = c.status := by rw [hframe]
    have hw := codeBits_cases c.cfg.bits
    rw [List.map_cons, runAll, runOn_decByte p hc]
    generalize decByteResult p c b = r at *
    have hn' : r.2.accBits.toNat < r.2.cfg.bits.toNat := by
      rw [hcfg, hbits]
      split_ifs
      · exact Nat.mod_lt _ (by omega)
      · exact hn
    obtain ⟨hcount, hheld⟩ := ih (c := r.2) (by rw [hcons, hc]) hn'
    dsimp only
    rw [pcmOut_cons_samples, List.length_append, hlength, hcount, List.length_cons]
    refine ⟨?_, fun hp => ?_⟩
    · rw [decodeSampleCount, decodeSampleCount, decodeSampleCount, hcfg, ← Nat.mul_add,
        decodeCodewords_succ c r.2 rest.length hcfg fun hp => by rw [hbits, if_pos hp]]
    · rw [hheld (by rw [hcfg, hp]), hcfg, hbits, if_pos hp, Nat.mod_add_mod]
      congr 1
      ring

theorem pcmOut_refusals (code : BitVec 8) (n : Nat) : pcmOut (List.replicate n ⟨code, []⟩) = [] := by
  simp [pcmOut]

/-- Settles O54: the run of the bytes on the decoder context; its samples counted on a constructed context, none on one that
refuses each command. -/
theorem decodeOutputLength : Obligations.DecodeOutputLength := by
  intro bytes capacity s ws hs hok h
  have hlength : (bytes.map Instr.decByte).length = bytes.length := List.length_map _
  have hrefused : ∀ i ∈ bytes.map Instr.decByte, NeedsConstruction i := fun i hi => by
    obtain ⟨b, -, rfl⟩ := List.mem_map.mp hi
    exact decByte_needsConstruction b
  refine ⟨_, _, runWords_decode hs h, runDecode_of_ok hs h, ⟨_, rfl, by rw [runAll_length, hlength],
    pcmBytes_pcmOut_eq_flatMap _⟩, ?_, fun hc hp => ?_, fun hc => ?_⟩
  · rw [pcmBytes_length]
    cases hc : s.dec.status.constructed with
    | true =>
      obtain ⟨-, hn⟩ := hok hc
      rw [decodeResultBytes_constructed hc, (runAll_decode_result s.params bytes hc hn).1]
    | false =>
      rw [runAll_of_unconstructed hrefused _ hc, pcmOut_refusals, decodeResultBytes_unconstructed hc]
      rfl
  · obtain ⟨-, hn⟩ := hok hc
    exact (runAll_decode_result s.params bytes hc hn).2 hp
  · rw [← hlength]
    exact updatedAll_of_unconstructed (k := .dec) hrefused hc

end Sys2Proof.Machine
